-- ==== Sys2Proof/Word.lean ====
section
/-! DEFINITION. The word types of STEGCORE: bytes of BUF, 32-bit register values, and the 16-byte and 32-byte
sequences of the cipher (spec 00_scope R7, R8). -/

namespace Sys2Proof

/-- A byte, a natural in [0,255] (20_memory R60). -/
abbrev Byte := BitVec 8

/-- A register value, 32 bits wide (00_scope R8). -/
abbrev Word := BitVec 32

/-- `Bytes16`: an IV or a cipher block (00_scope R7). Index 0 is the first byte. -/
abbrev Bytes16 := Vector Byte 16

/-- `Bytes32`: a key (00_scope R7). Index 0 is the first byte. -/
abbrev Bytes32 := Vector Byte 32

end Sys2Proof
end

