-- ==== Sys2Proof/Syntax.lean ====
section
/-! DEFINITION. The commands of STEGCORE: one constructor per row of the opcode table (spec 30_encoding R91). No command
has an operand field: every operand is a register value (30_encoding R90, R93). -/

namespace Sys2Proof

/-- The ten commands (30_encoding R91). -/
inductive Instr where
  /-- 0x01, 40_container R112. -/
  | parse
  /-- 0x02, 41_key_cipher R130. -/
  | kdf
  /-- 0x03, 41_key_cipher R134. -/
  | encrypt
  /-- 0x04, 41_key_cipher R136. -/
  | decrypt
  /-- 0x05, 42_bits_hamming R155. -/
  | henc
  /-- 0x06, 42_bits_hamming R158. -/
  | hdec
  /-- 0x07, 43_embed_extract R172. -/
  | lsbwr
  /-- 0x08, 43_embed_extract R174. -/
  | lsbrd
  /-- 0x09, 43_embed_extract R180. -/
  | embed
  /-- 0x0A, 43_embed_extract R185. -/
  | extract
  deriving DecidableEq, Repr

end Sys2Proof
end

