-- ==== Sys2Proof/WellFormed.lean ====
section
/-! DEFINITION. Which instructions and which raw command words are well-formed (spec 30_encoding R90 to R94). An `Instr`
has no fields, so there is nothing to check on it; the checks are those of the 32-bit word the host writes to CMD. -/

namespace Sys2Proof

/-- Every command is well-formed: no constructor carries an operand (30_encoding R90, R93). -/
def Instr.wellFormed : Instr → Bool
  | .parse => true
  | .kdf => true
  | .encrypt => true
  | .decrypt => true
  | .henc => true
  | .hdec => true
  | .lsbwr => true
  | .lsbrd => true
  | .embed => true
  | .extract => true

/-- The two fields of the format CMDW (30_encoding R90): RSV in bits 31:8, OPC in bits 7:0. -/
structure CmdWord where
  rsv : BitVec 24
  opc : BitVec 8
  deriving DecidableEq, Repr

/-- The fields of a 32-bit word. -/
def CmdWord.ofWord (w : Word) : CmdWord := { rsv := w.extractLsb' 8 24, opc := w.extractLsb' 0 8 }

/-- The 32-bit word with these fields. -/
def CmdWord.toWord (c : CmdWord) : Word := c.rsv ++ c.opc

/-- RSV must be 0 (30_encoding R90). -/
def CmdWord.rsvOk (c : CmdWord) : Bool := c.rsv == 0#24

/-- The opcode is one of 0x01 to 0x0A (30_encoding R91, R94). -/
def CmdWord.opcOk (c : CmdWord) : Bool := 1 ≤ c.opc.toNat && c.opc.toNat ≤ 10

/-- A command word that names a command: both checks hold (30_encoding R92). -/
def CmdWord.wellFormed (c : CmdWord) : Bool := c.rsvOk && c.opcOk

end Sys2Proof
end

