-- ==== Sys2Proof/Decode.lean ====
section
/-! DEFINITION. Decoding of the command word, total on every 32-bit word and rejecting by name (spec 30_encoding R92,
R94), and the encoder (30_encoding R90, R91). -/

namespace Sys2Proof

/-- Why a word decodes as Illegal (30_encoding R92, R94). Both cases complete with IllegalCommand. -/
inductive Illegal where
  /-- Bits 31:8 are not 0. -/
  | reservedBits
  /-- The opcode is 0x00 or 0x0B to 0xFF. -/
  | reservedOpcode
  deriving DecidableEq, Repr

/-- The opcode map read from an opcode (30_encoding R91): none for a reserved opcode (R94). -/
def commandOfOpcode (opc : Nat) : Option Instr :=
  match opc with
  | 0x01 => some .parse
  | 0x02 => some .kdf
  | 0x03 => some .encrypt
  | 0x04 => some .decrypt
  | 0x05 => some .henc
  | 0x06 => some .hdec
  | 0x07 => some .lsbwr
  | 0x08 => some .lsbrd
  | 0x09 => some .embed
  | 0x0A => some .extract
  | _ => none

/-- `decode(w)` of 30_encoding R92. -/
def decode (w : Word) : Except Illegal Instr :=
  if w.extractLsb' 8 24 ≠ 0#24 then .error .reservedBits
  else
    match commandOfOpcode (w.extractLsb' 0 8).toNat with
    | some i => .ok i
    | none => .error .reservedOpcode

/-- The opcode of a command (30_encoding R91). -/
def opcode (i : Instr) : BitVec 8 :=
  match i with
  | .parse => 0x01
  | .kdf => 0x02
  | .encrypt => 0x03
  | .decrypt => 0x04
  | .henc => 0x05
  | .hdec => 0x06
  | .lsbwr => 0x07
  | .lsbrd => 0x08
  | .embed => 0x09
  | .extract => 0x0A

/-- The command word of a command: RSV 0, then the opcode (30_encoding R90). -/
def encode (i : Instr) : Word := 0#24 ++ opcode i

/-- The word of the opcode table's bits: the low `nbits` bits of `w`, every bit above them 0. The table numbers bit 0 as
the least significant bit of the one 32-bit word, as 30_encoding R90 does. -/
def tableWord (nbits w : Nat) : Word := BitVec.ofNat 32 (w % 2 ^ nbits)

/-- The instruction the decoder reads from an instruction whose bits, numbered as the opcode table numbers them, are
`w`. -/
def decodeTableWord (nbits w : Nat) : Option Instr :=
  match decode (tableWord nbits w) with
  | .ok i => some i
  | .error _ => none

end Sys2Proof
end

