-- ==== Sys2Proof/Machine/Bytes.lean ====
section
/-! DEFINITION. Byte-order helpers (spec 00_scope R11) and the conversions between byte lists and 16-byte values. -/

namespace Sys2Proof.Machine

/-- The little-endian value of a byte sequence: LE16 on two bytes, LE32 on four (00_scope R11). -/
def leNat : List Byte → Nat
  | [] => 0
  | b :: bs => b.toNat + 256 * leNat bs

/-- The big-endian value of a byte sequence: BE32 on four bytes, BE128 on sixteen (00_scope R11). -/
def beNat (bs : List Byte) : Nat := leNat bs.reverse

/-- The `n` low bytes of `v`, least significant first. -/
def leBytes : Nat → Nat → List Byte
  | 0, _ => []
  | n + 1, v => BitVec.ofNat 8 v :: leBytes n (v / 256)

/-- The `n` low bytes of `v`, most significant first: BE32bytes for `n` = 4, BE128bytes for `n` = 16 (00_scope R11). -/
def beBytes (n v : Nat) : List Byte := (leBytes n v).reverse

/-- `ceil(a/b)` (00_scope R8). -/
def ceilDiv (a b : Nat) : Nat := (a + b - 1) / b

/-- The 16-byte value that begins a byte sequence (the IV of an encrypted payload, 41_key_cipher R136). -/
def toBytes16 (bs : List Byte) : Bytes16 := Vector.ofFn fun i => bs.getD i.val 0

/-- ASCII("STG1") (00_scope R11). PRESUMED by the spec from the ASCII table (GK1), log 17. -/
def magicTag : List Byte := [0x53, 0x54, 0x47, 0x31]

/-- ASCII("RIFF") (00_scope R11). -/
def riffTag : List Byte := [0x52, 0x49, 0x46, 0x46]

/-- ASCII("WAVE") (00_scope R11). -/
def waveTag : List Byte := [0x57, 0x41, 0x56, 0x45]

/-- ASCII("fmt ") (00_scope R11). -/
def fmtTag : List Byte := [0x66, 0x6D, 0x74, 0x20]

/-- ASCII("data") (00_scope R11). -/
def dataTag : List Byte := [0x64, 0x61, 0x74, 0x61]

end Sys2Proof.Machine
end

