-- ==== Sys2Proof/Config.lean ====
section
/-! DEFINITION. What one instance of STEGCORE fixes and the spec leaves open (00_scope R7), and the free value of the
machine, the IV draw. None of these constants has a body: no proof can see what it is. -/

namespace Sys2Proof.Config

/-- `BLOCK_CIPHER`, the block cipher under counter mode (00_scope R7, 41_key_cipher R133): OPEN, log 6. -/
opaque blockCipher : Bytes32 → Bytes16 → Bytes16

/-- `KDF_FN`, the key derivation with its constant salt folded in (00_scope R7, 41_key_cipher R131): OPEN, log 6. -/
opaque kdfFn : List Byte → Bytes32

/-- `IV_DRAW`: the value of the n-th IV draw, under no law (00_scope R7, 41_key_cipher R135): a free value, log 5. -/
opaque ivDraw : Nat → Bytes16

/-- `BUF_BYTES` less one (00_scope R7: 1 ≤ BUF_BYTES ≤ 2^28, so this is any 28-bit number): OPEN, log 4. -/
opaque bufTop : BitVec 28

/-- `BASE`, the host bus address of register offset 0x000 (00_scope R7): OPEN, log 8. -/
opaque base : Nat

/-- `BUF_WINDOW`, the host bus address of BUF byte 0 (00_scope R7): OPEN, log 8. -/
opaque bufWindow : Nat

end Sys2Proof.Config
end

