-- ==== Sys2Proof/Machine/Agents.lean ====
section
/-! DEFINITION. What the agents of STEGCORE do (spec 10_state R20): the accesses a host can make, and the turns of a run.
Plain data only; what each access does stands in Machine/HostPort.lean. -/

namespace Sys2Proof.Machine

/-- The two address spaces (20_memory R60). -/
inductive Space where
  /-- The register space, offsets 0x000 to 0x0FF. -/
  | reg
  /-- The buffer memory. -/
  | buf
  deriving DecidableEq, Repr

/-- A host access reads, or writes a value of which the access's width of low bytes is stored (20_memory R61, R64). -/
inductive HostOp where
  | read
  | write (value : Word)
  deriving DecidableEq, Repr

/-- One host access: a space, an address in it (a register offset from BASE, or a BUF address), a width in bytes, and
what is done (20_memory R61, R62). Any width and address can be asked for; malformed accesses fault. -/
structure HostAccess where
  space : Space
  addr : Nat
  width : Nat
  op : HostOp
  deriving DecidableEq, Repr

/-- One turn of a run: a host access, the core's turn (10_state R20), or a power-on reset (70_reset_and_hazards R230). -/
inductive Turn where
  | host (access : HostAccess)
  | core
  | powerOn
  deriving DecidableEq, Repr

/-- The registers of the map (10_state R22). KEYk is `key k`, for k = 0 to 7. -/
inductive Reg where
  | id | ctrl | cmd | status
  | wavBase | wavLen | srcBase | srcLen | dstBase | dstCap | dstLen
  | bitStart | bitCount
  | dataOffset | dataSize | channels | sampleCount | payloadLen | totalBits
  | key (k : Fin 8)
  deriving DecidableEq, Repr

end Sys2Proof.Machine
end

