-- ==== Sys2Proof/Machine/State.lean ====
section
/-! DEFINITION. The state of STEGCORE (spec 10_state R21: register file, key store, hidden state, BUF), the reasons a step
can stop, the command errors, and the state after power-on reset (70_reset_and_hazards R230). -/

namespace Sys2Proof.Machine

/-- BUF (20_memory R60): `top` is BUF_BYTES − 1, so its 28 bits are exactly the sizes 1 to 2^28 of 00_scope R7; `cells`
lists the bytes that hold a value, addresses strictly rising. An unlisted address holds no value (R66). -/
structure Memory where
  top : BitVec 28
  cells : List Host.Cell
  deriving DecidableEq, Repr

/-- The command errors (60_exceptions R201). Each is a completion of the command, a next state, never a stop. -/
inductive CmdError where
  | formatError
  | capacityError
  | notFoundError
  | truncatedError
  | illegalCommand
  | rangeError
  | noKey
  | shortInput
  | notParsed
  deriving DecidableEq, Repr

/-- The model faults (60_exceptions R207): host behaviour to which the spec gives no meaning. They end the run. -/
inductive Fault where
  /-- Raised by a host access of the wrong width, misaligned, or outside its space (20_memory R61, R62). Safe: the spec
  gives it no value. -/
  | hostBadAccess
  /-- Raised by the host or by a command that reads a BUF byte holding no value (20_memory R66). Safe: the contents
  after power-on are unspecified. -/
  | unwrittenRead
  /-- Raised by a host access to BUF while STATUS.BUSY = 1 (70_reset_and_hazards R240). Safe: hardware might serve it. -/
  | hostBufWhileBusy
  deriving DecidableEq, Repr

/-- Why a step has no meaning. STEGCORE has a meaning for every command, so no step answers with it. -/
inductive Refusal where
  /-- Raised by no one: every arm of `exec` calls a meaning. Safe. -/
  | notModelled (mnemonic : String)
  deriving DecidableEq, Repr

/-- What ends a command before its last line: a `raise` of the pseudocode (00_scope R12), or a model fault. -/
inductive Stop where
  | raise (e : CmdError)
  | fault (f : Fault)
  deriving DecidableEq, Repr

/-- Everything the spec gives the machine (10_state R21, R22, R40, R45; 20_memory R60), and the model's own three last
fields. BUSY and KEYV are not stored: `pending` and `keyw` are their one home (R42, R45). -/
structure State where
  /-- CTRL.IE (10_state R24). -/
  ie : Bool
  /-- CTRL.ECC (10_state R24). -/
  ecc : Bool
  /-- STATUS.DONE (10_state R28). -/
  done : Bool
  /-- STATUS.ERR (10_state R28). -/
  err : Bool
  /-- STATUS.OVR (10_state R28). -/
  ovr : Bool
  /-- STATUS.ERRCODE (10_state R28, 60_exceptions R201). -/
  errcode : BitVec 4
  /-- STATUS.PARSED (10_state R39). -/
  parsed : Bool
  /-- STATUS.ECCF (10_state R28). -/
  eccf : Bool
  /-- WAV_BASE (10_state R31). -/
  wavBase : Word
  /-- WAV_LEN (10_state R31). -/
  wavLen : Word
  /-- SRC_BASE (10_state R32). -/
  srcBase : Word
  /-- SRC_LEN (10_state R32). -/
  srcLen : Word
  /-- DST_BASE (10_state R33). -/
  dstBase : Word
  /-- DST_CAP (10_state R33). -/
  dstCap : Word
  /-- DST_LEN (10_state R34). -/
  dstLen : Word
  /-- BIT_START (10_state R35). -/
  bitStart : Word
  /-- BIT_COUNT (10_state R35). -/
  bitCount : Word
  /-- DATA_OFFSET (10_state R36). -/
  dataOffset : Word
  /-- DATA_SIZE (10_state R36). -/
  dataSize : Word
  /-- CHANNELS (10_state R36). -/
  channels : Word
  /-- SAMPLE_COUNT (10_state R36). -/
  sampleCount : Word
  /-- PAYLOAD_LEN (10_state R37). -/
  payloadLen : Word
  /-- TOTAL_BITS (10_state R38). -/
  totalBits : Word
  /-- K, the key (10_state R40). -/
  key : Bytes32
  /-- keyw, bit k set when KEYk has been written since the last clear (10_state R40, R41). -/
  keyw : BitVec 8
  /-- The accepted command word (10_state R45); BUSY = 1 exactly when there is one. -/
  pending : Option Word
  /-- ecc_latch: CTRL.ECC at acceptance (10_state R27, R45). -/
  eccLatch : Bool
  /-- BUF (20_memory R60). -/
  buf : Memory
  /-- The model's own: how many IVs have been drawn; it names the next free IV (41_key_cipher R135, log 5). -/
  draws : Nat
  /-- The model's own: the turns still to come, first to last (10_state R20, log 1). -/
  agenda : List Turn
  /-- The model's own: the values host reads returned, newest first (30_encoding R96, log 11). -/
  hostReads : List Word
  deriving DecidableEq, Repr

/-- The machine right after power-on reset (70_reset_and_hazards R230): every register 0, no command pending, and no BUF
byte holding a value. BUF_BYTES is the open parameter. -/
def State.reset : State where
  ie := false
  ecc := false
  done := false
  err := false
  ovr := false
  errcode := 0
  parsed := false
  eccf := false
  wavBase := 0
  wavLen := 0
  srcBase := 0
  srcLen := 0
  dstBase := 0
  dstCap := 0
  dstLen := 0
  bitStart := 0
  bitCount := 0
  dataOffset := 0
  dataSize := 0
  channels := 0
  sampleCount := 0
  payloadLen := 0
  totalBits := 0
  key := Vector.replicate 32 0
  keyw := 0
  pending := none
  eccLatch := false
  buf := { top := Config.bufTop, cells := [] }
  draws := 0
  agenda := []
  hostReads := []

end Sys2Proof.Machine
end

