-- ==== Sys2Proof/Machine/Flags.lean ====
section
/-! DEFINITION. Every flag of STEGCORE (spec 10_state R44): the views BUSY, KEYV and IRQ, the CTRL and STATUS words, the
error codes, and what acceptance, completion and a STATUS write do to the flags. -/

namespace Sys2Proof.Machine

/-- STATUS.BUSY: 1 exactly when a command is pending (10_state R45). DEDUCED, log 19. -/
def State.busy (s : State) : Bool := s.pending.isSome

/-- STATUS.KEYV: 1 exactly when keyw = 0xFF (10_state R42). DEDUCED, log 19. -/
def State.keyv (s : State) : Bool := s.keyw == 0xFF#8

/-- The interrupt output, a level (60_exceptions R210). -/
def State.irq (s : State) : Bool := s.ie && s.done

/-- ERRCODE of each error (60_exceptions R201). -/
def CmdError.code : CmdError → BitVec 4
  | .formatError => 1
  | .capacityError => 2
  | .notFoundError => 3
  | .truncatedError => 4
  | .illegalCommand => 5
  | .rangeError => 6
  | .noKey => 7
  | .shortInput => 8
  | .notParsed => 9

/-- A flag as the number 0 or 1. -/
def bit (b : Bool) : Word := if b then 1 else 0

/-- CTRL as the host reads it (10_state R24): IE in bit 0, ECC in bit 1, every other bit 0. -/
def State.ctrlWord (s : State) : Word := bit s.ie ||| (bit s.ecc <<< 1)

/-- STATUS as the host reads it (10_state R28). -/
def State.statusWord (s : State) : Word :=
  bit s.busy ||| (bit s.done <<< 1) ||| (bit s.err <<< 2) ||| (bit s.ovr <<< 3)
    ||| (s.errcode.setWidth 32 <<< 8)
    ||| (bit s.parsed <<< 16) ||| (bit s.keyv <<< 17) ||| (bit s.eccf <<< 18)

/-- A write ignored while BUSY sets OVR (10_state R30). -/
def State.overrun (s : State) : State := { s with ovr := true }

/-- Acceptance of the word `w` (10_state R27): BUSY is 1 because a word is pending. OVR is unchanged. -/
def State.accept (s : State) (w : Word) : State :=
  { s with done := false, err := false, errcode := 0, pending := some w, eccLatch := s.ecc }

/-- A host write of `v` to STATUS, write 1 to clear (10_state R29). -/
def State.statusClear (s : State) (v : Word) : State :=
  { s with
    done := s.done && !v.getLsbD 1
    err := s.err && !v.getLsbD 2
    errcode := if v.getLsbD 2 then 0 else s.errcode
    ovr := s.ovr && !v.getLsbD 3 }

end Sys2Proof.Machine
end

