-- ==== Sys2Proof/Machine/Operands.lean ====
section
/-! DEFINITION. Operand assembly (spec 30_encoding R93): every operand of a command is a register value, and a register
pair names a region of BUF (20_memory R60). The checks on regions are those of 60_exceptions R205. -/

namespace Sys2Proof.Machine

/-- A region `[base, base + len)` of BUF, exact naturals (20_memory R60, 00_scope R8). -/
structure Region where
  base : Nat
  len : Nat
  deriving DecidableEq, Repr

/-- BUF_BYTES (00_scope R7). -/
def Memory.bytes (m : Memory) : Nat := m.top.toNat + 1

/-- BUF_BYTES of this machine. -/
def State.bufBytes (s : State) : Nat := s.buf.bytes

/-- The carrier region (10_state R31). -/
def State.wav (s : State) : Region := { base := s.wavBase.toNat, len := s.wavLen.toNat }

/-- The input region (10_state R32). -/
def State.src (s : State) : Region := { base := s.srcBase.toNat, len := s.srcLen.toNat }

/-- The output area, the whole declared area (10_state R33, 60_exceptions R205). -/
def State.dst (s : State) : Region := { base := s.dstBase.toNat, len := s.dstCap.toNat }

/-- `inside(b, n)`: b + n ≤ BUF_BYTES, computed exactly (60_exceptions R205). -/
def State.inside (s : State) (r : Region) : Bool := decide (r.base + r.len ≤ s.bufBytes)

/-- `overlap((a, m), (b, n))` (60_exceptions R205). -/
def overlap (p q : Region) : Bool :=
  decide (0 < p.len) && decide (0 < q.len) && decide (p.base < q.base + q.len) && decide (q.base < p.base + p.len)

/-- Both regions inside BUF and not overlapping (60_exceptions R205). -/
def State.regionsOk (s : State) (p q : Region) : Bool := s.inside p && s.inside q && !overlap p q

end Sys2Proof.Machine
end

