-- ==== Sys2Proof/Machine/Ops.lean ====
section
/-! DEFINITION. The named operations every meaning uses: reading and writing BUF, the checks that raise, the two ways a
command completes (spec 60_exceptions R202, R203), acceptance's counterpart on reset, and the key store. -/

namespace Sys2Proof.Machine

/-! ### BUF -/

/-- The byte a cell list holds at an address, if any. -/
def cellsRead : List Host.Cell → Nat → Option Byte
  | [], _ => none
  | (k, v) :: cs, a => if a = k then some v else cellsRead cs a

/-- The cell list with a byte written, addresses kept strictly rising. -/
def cellsWrite : List Host.Cell → Nat → Byte → List Host.Cell
  | [], a, v => [(a, v)]
  | (k, x) :: cs, a, v =>
    if a < k then (a, v) :: (k, x) :: cs
    else if a = k then (a, v) :: cs
    else (k, x) :: cellsWrite cs a v

/-- Every address of the list is at least `lo`, the addresses rise strictly, and each is below `hi`. -/
def cellsWf (hi : Nat) : Nat → List Host.Cell → Bool
  | _, [] => true
  | lo, (k, _) :: cs => decide (lo ≤ k) && decide (k < hi) && cellsWf hi (k + 1) cs

/-- The canonical form of BUF: addresses strictly rising and inside BUF (20_memory R60). An unlisted byte holds no value
(R66), so no entry can equal what an unlisted address reads as. -/
def Memory.wf (m : Memory) : Bool := cellsWf m.bytes 0 m.cells

/-- The value of the byte at an address: none for a byte nothing has written (20_memory R66, log 7). -/
def Memory.read (m : Memory) (a : Nat) : Option Byte := cellsRead m.cells a

/-- BUF with one byte written. Outside BUF there is no byte to write and nothing changes; every caller has checked its
addresses (60_exceptions R205, 20_memory R61, log 20). -/
def Memory.write (m : Memory) (a : Nat) (v : Byte) : Memory :=
  if a < m.bytes then { m with cells := cellsWrite m.cells a v } else m

/-- `MemRead(a, n)` (00_scope R12): the `n` bytes from `a`, none when one of them holds no value. -/
def Memory.readBytes (m : Memory) : Nat → Nat → Option (List Byte)
  | _, 0 => some []
  | a, n + 1 =>
    match m.read a, m.readBytes (a + 1) n with
    | some b, some bs => some (b :: bs)
    | _, _ => none

/-- `MemWrite(a, n, v)` (00_scope R12): the bytes written from `a` on. -/
def Memory.writeBytes (m : Memory) : Nat → List Byte → Memory
  | _, [] => m
  | a, b :: bs => (m.write a b).writeBytes (a + 1) bs

/-- What a command reads: the bytes, or the model fault UnwrittenRead (20_memory R66). -/
def Memory.load (m : Memory) (a n : Nat) : Except Stop (List Byte) :=
  match m.readBytes a n with
  | some bs => .ok bs
  | none => .error (.fault .unwrittenRead)

/-- One byte a command reads, or the model fault UnwrittenRead (20_memory R66). -/
def Memory.loadByte (m : Memory) (a : Nat) : Except Stop Byte :=
  match m.read a with
  | some b => .ok b
  | none => .error (.fault .unwrittenRead)

/-! ### Raising and completing -/

/-- The check `if not c then raise e` of the pseudocode (00_scope R12). -/
def require (c : Bool) (e : CmdError) : Except Stop Unit := if c then .ok () else .error (.raise e)

/-- Successful completion (60_exceptions R202). -/
def State.completeOk (s : State) : State := { s with err := false, errcode := 0, done := true, pending := none }

/-- Completion with error `e`, the one way a command fails (60_exceptions R203): FormatError also clears PARSED, and
nothing else changes. -/
def State.completeErr (s : State) (e : CmdError) : State :=
  { s with
    err := true
    errcode := e.code
    done := true
    pending := none
    parsed := if e = .formatError then false else s.parsed }

/-- The outcome of a command performed in state `s` whose own writes gave `r` (60_exceptions R202). -/
def finish (s : State) (r : Except Stop State) : Host.Outcome State Fault Refusal :=
  match r with
  | .ok t => .next t.completeOk
  | .error (.raise e) => .next (s.completeErr e)
  | .error (.fault f) => .fault f

/-! ### The key store and reset -/

/-- KEYCLR: K all zero, keyw 0 (10_state R43). -/
def State.keyClear (s : State) : State := { s with key := Vector.replicate 32 0, keyw := 0 }

/-- The key with word `v` written to KEYk: byte 4k + j is bits 8j+7:8j of `v` (10_state R41). -/
def keyWithWord (key : Bytes32) (k : Fin 8) (v : Word) : Bytes32 :=
  (((key.set (4 * k.val) (v.extractLsb' 0 8)).set (4 * k.val + 1) (v.extractLsb' 8 8)).set
    (4 * k.val + 2) (v.extractLsb' 16 8)).set (4 * k.val + 3) (v.extractLsb' 24 8)

/-- A host write of `v` to KEYk while BUSY = 0 (10_state R41). -/
def State.keyWrite (s : State) (k : Fin 8) (v : Word) : State :=
  { s with key := keyWithWord s.key k v, keyw := s.keyw ||| (1#8 <<< k.val) }

/-- Soft reset (70_reset_and_hazards R232): every register, the key store, `pending` and `ecc_latch` at their reset
values; BUF keeps its contents. The model's own fields go on (log 24). -/
def State.softReset (s : State) : State :=
  { State.reset with buf := s.buf, draws := s.draws, agenda := s.agenda, hostReads := s.hostReads }

/-- Power-on reset as an event of a run (70_reset_and_hazards R230): as a soft reset, and no BUF byte holds a value. The
size of BUF is the instance's. DESIGN CHOICE, log 24. -/
def State.powerOn (s : State) : State := { s.softReset with buf := { s.buf with cells := [] } }

/-- One IV taken from IV_DRAW (41_key_cipher R135): the next draw is another free value. -/
def State.drawn (s : State) : State := { s with draws := s.draws + 1 }

/-- The state with the turns still to come replaced. -/
def State.withAgenda (s : State) (turns : List Turn) : State := { s with agenda := turns }

end Sys2Proof.Machine
end

