-- ==== Sys2Proof/Machine/Container.lean ====
section
/-! DEFINITION. The container parser and PARSE (spec 40_container R110 to R116). -/

namespace Sys2Proof.Machine

/-- The `fmt ` fields the parser reads (30_encoding R101). -/
structure FmtChunk where
  format : Nat
  channels : Nat
  bits : Nat
  deriving DecidableEq, Repr

/-- The container record (40_container R111). -/
structure Container where
  dataOffset : Nat
  dataSize : Nat
  channelCount : Nat
  deriving DecidableEq, Repr

/-- `sampleCount = dataSize div 2` (40_container R116). -/
def Container.sampleCount (c : Container) : Nat := c.dataSize / 2

/-- Where the walk of the chunks ended (40_container R111): the last `fmt ` seen, and the first `data` chunk. -/
structure WalkEnd where
  fmt : Option FmtChunk
  data : Option (Nat × Nat)
  deriving DecidableEq, Repr

/-- The next chunk's cursor (30_encoding R100): exact, no wrap (00_scope R8). -/
def nextChunk (cur size : Nat) : Nat := cur + 8 + size + size % 2

/-- The three `fmt ` fields of a chunk at cursor `cur` (30_encoding R101). PRESUMED by the spec (GK3, GK7), log 17. -/
def loadFmt (m : Memory) (wav cur : Nat) : Except Stop FmtChunk := do
  let f ← m.load (wav + cur + 8) 2
  let c ← m.load (wav + cur + 10) 2
  let b ← m.load (wav + cur + 22) 2
  return { format := leNat f, channels := leNat c, bits := leNat b }

/-- The walk of 40_container R111 from cursor `cur`, over the carrier of length `len` at BUF address `wav`. The first
argument bounds the iterations (R115, log 15). -/
def walkChunks (m : Memory) (wav len : Nat) : Nat → Nat → Option FmtChunk → Except Stop WalkEnd
  | 0, _, fmt => .ok { fmt := fmt, data := none }
  | fuel + 1, cur, fmt =>
    if len ≤ cur then .ok { fmt := fmt, data := none }
    else if len < cur + 8 then .ok { fmt := fmt, data := none }
    else do
      let id ← m.load (wav + cur) 4
      let sizeBytes ← m.load (wav + cur + 4) 4
      let size := leNat sizeBytes
      if id = fmtTag then
        require (decide (16 ≤ size) && decide (cur + 24 ≤ len)) .formatError
        let f ← loadFmt m wav cur
        walkChunks m wav len fuel (nextChunk cur size) (some f)
      else if id = dataTag then
        return { fmt := fmt, data := some (cur + 8, size) }
      else walkChunks m wav len fuel (nextChunk cur size) fmt

/-- The checks after the walk, and the record (40_container R111). -/
def containerOf (len : Nat) (w : WalkEnd) : Except Stop Container :=
  match w.data, w.fmt with
  | some (offset, size), some f => do
    require (f.format == 1 && f.bits == 16) .formatError
    require (decide (offset + size ≤ len)) .formatError
    return { dataOffset := offset, dataSize := size, channelCount := f.channels }
  | _, _ => .error (.raise .formatError)

/-- `parseWAV(W)` for the carrier `BUF[wav .. wav + len)` (40_container R111). It reads only the bytes the pseudocode
indexes; an unwritten one among those is the fault UnwrittenRead (log 14). -/
def parseWav (m : Memory) (wav len : Nat) : Except Stop Container := do
  require (decide (12 ≤ len)) .formatError
  let riff ← m.load wav 4
  require (riff == riffTag) .formatError
  let wave ← m.load (wav + 8) 4
  require (wave == waveTag) .formatError
  let w ← walkChunks m wav len ((len - 12) / 8 + 1) 12 none
  containerOf len w

/-- `parseWAV` of the carrier the registers name (10_state R31). -/
def State.parseCarrier (s : State) : Except Stop Container := parseWav s.buf s.wav.base s.wav.len

/-- The container registers and PARSED after a successful PARSE, EMBED or EXTRACT (10_state R36, R39). -/
def State.withContainer (s : State) (c : Container) : State :=
  { s with
    dataOffset := BitVec.ofNat 32 c.dataOffset
    dataSize := BitVec.ofNat 32 c.dataSize
    channels := BitVec.ofNat 32 c.channelCount
    sampleCount := BitVec.ofNat 32 c.sampleCount
    parsed := true }

/-- PARSE's own writes (40_container R112). -/
def parseBody (s : State) : Except Stop State := do
  require (s.inside s.wav) .rangeError
  let c ← s.parseCarrier
  return s.withContainer c

/-- PARSE (40_container R112). -/
def execParse (s : State) : Host.Outcome State Fault Refusal := finish s (parseBody s)

end Sys2Proof.Machine
end

