-- ==== Sys2Proof/Machine/BitUtil.lean ====
section
/-! DEFINITION. The bit utilities (spec 42_bits_hamming R150, R151) and the Hamming(7,4) functions (R153, R154). A bit
sequence is a list of Booleans, element 0 first (00_scope R10). -/

namespace Sys2Proof.Machine

/-- Element `i` of a bit sequence, 0 past its end (the `s'` of R151 and R153). -/
def bitAt (s : List Bool) (i : Nat) : Bool := s.getD i false

/-- The 8 bits of a byte, most significant first (R150). -/
def byteBits (b : Byte) : List Bool :=
  [b.getLsbD 7, b.getLsbD 6, b.getLsbD 5, b.getLsbD 4, b.getLsbD 3, b.getLsbD 2, b.getLsbD 1, b.getLsbD 0]

/-- `bytesToBits(b)` (R150). -/
def bytesToBits : List Byte → List Bool
  | [] => []
  | b :: bs => byteBits b ++ bytesToBits bs

/-- The byte whose bit 7 − m is element m of the sequence, 0 past its end (R151). -/
def packByte (s : List Bool) : Byte :=
  BitVec.ofBool (bitAt s 0) ++ BitVec.ofBool (bitAt s 1) ++ BitVec.ofBool (bitAt s 2) ++ BitVec.ofBool (bitAt s 3)
    ++ BitVec.ofBool (bitAt s 4) ++ BitVec.ofBool (bitAt s 5) ++ BitVec.ofBool (bitAt s 6) ++ BitVec.ofBool (bitAt s 7)

/-- The first `n` bytes of a packed bit sequence. -/
def packBytes : Nat → List Bool → List Byte
  | 0, _ => []
  | n + 1, s => packByte (s.take 8) :: packBytes n (s.drop 8)

/-- `bitsToBytes(s)`, `ceil(N/8)` bytes (R151). -/
def bitsToBytes (s : List Bool) : List Byte := packBytes (ceilDiv s.length 8) s

/-- The Hamming group of four data bits, in position order p1, p2, d1, p3, d2, d3, d4 (R153, 30_encoding R99). -/
def hamGroup (d1 d2 d3 d4 : Bool) : List Bool :=
  [d1 ^^ d2 ^^ d4, d1 ^^ d3 ^^ d4, d1, d2 ^^ d3 ^^ d4, d2, d3, d4]

/-- The codes of the first `n` groups of four bits, a short last group padded with 0 (R153). -/
def encodeGroups : Nat → List Bool → List Bool
  | 0, _ => []
  | n + 1, s => hamGroup (bitAt s 0) (bitAt s 1) (bitAt s 2) (bitAt s 3) ++ encodeGroups n (s.drop 4)

/-- `hamEncode(s)`, `7 × ceil(N/4)` bits (R153). -/
def hamEncode (s : List Bool) : List Bool := encodeGroups (ceilDiv s.length 4) s

/-- The syndrome of a received group, 4·s3 + 2·s2 + s1 (R154). Position p is element p − 1. -/
def syndrome (c : List Bool) : Nat :=
  let s1 := bitAt c 0 ^^ bitAt c 2 ^^ bitAt c 4 ^^ bitAt c 6
  let s2 := bitAt c 1 ^^ bitAt c 2 ^^ bitAt c 5 ^^ bitAt c 6
  let s3 := bitAt c 3 ^^ bitAt c 4 ^^ bitAt c 5 ^^ bitAt c 6
  4 * s3.toNat + 2 * s2.toNat + s1.toNat

/-- The group with the bit at 1-indexed position `p` flipped; position 0 flips nothing. -/
def flipAt (c : List Bool) (p : Nat) : List Bool := if p = 0 then c else c.modify (p - 1) not

/-- The data bits decoded from a received group of seven bits (R154): correct at the syndrome, then positions 3, 5, 6,
7. -/
def decodeGroup (c : List Bool) : List Bool :=
  let f := flipAt c (syndrome c)
  [bitAt f 2, bitAt f 4, bitAt f 5, bitAt f 6]

/-- The data bits of the first `n` groups of seven bits. -/
def decodeGroups : Nat → List Bool → List Bool
  | 0, _ => []
  | n + 1, s => decodeGroup (s.take 7) ++ decodeGroups n (s.drop 7)

/-- `hamDecode(s)`, `4 × (N div 7)` bits; the trailing N mod 7 bits are ignored (R154). -/
def hamDecode (s : List Bool) : List Bool := decodeGroups (s.length / 7) s

end Sys2Proof.Machine
end

