-- ==== Sys2Proof/Machine/KeyCipher.lean ====
section
/-! DEFINITION. Key derivation, counter mode, and KDF, ENCRYPT, DECRYPT (spec 41_key_cipher). The block cipher, the key
derivation and the drawn IV are arguments; only the three meanings put Config's opaque constants in their place. -/

namespace Sys2Proof.Machine

/-- The signature of `BLOCK_CIPHER` (00_scope R7). -/
abbrev BlockCipher := Bytes32 → Bytes16 → Bytes16

/-- The counter block of keystream block `j` (41_key_cipher R132): the IV as a 128-bit big-endian number, plus j, modulo
2^128. PRESUMED by the spec (GK4), log 17. -/
def counterBlock (iv : Bytes16) (j : Nat) : Bytes16 := toBytes16 (beBytes 16 ((beNat iv.toList + j) % 2 ^ 128))

/-- The keystream byte that enciphers byte `i` (41_key_cipher R132). -/
def keystreamByte (E : BlockCipher) (K : Bytes32) (iv : Bytes16) (i : Nat) : Byte :=
  (E K (counterBlock iv (i / 16))).toList.getD (i % 16) 0

/-- `ctrXor` on the bytes from index `i` on (41_key_cipher R132). -/
def ctrXorFrom (E : BlockCipher) (K : Bytes32) (iv : Bytes16) : Nat → List Byte → List Byte
  | _, [] => []
  | i, x :: xs => (x ^^^ keystreamByte E K iv i) :: ctrXorFrom E K iv (i + 1) xs

/-- `ctrXor(K, iv, X)` (41_key_cipher R132), for the block cipher `E`. -/
def ctrXor (E : BlockCipher) (K : Bytes32) (iv : Bytes16) (X : List Byte) : List Byte := ctrXorFrom E K iv 0 X

/-- `encrypt(key, plaintext) -> iv || ciphertext` (41_key_cipher R134, 30_encoding R102). -/
def encryptBytes (E : BlockCipher) (K : Bytes32) (iv : Bytes16) (P : List Byte) : List Byte :=
  iv.toList ++ ctrXor E K iv P

/-- `decrypt(key, ivAndCiphertext) -> plaintext` (41_key_cipher R136): the first 16 bytes are the IV. -/
def decryptBytes (E : BlockCipher) (K : Bytes32) (C : List Byte) : List Byte :=
  ctrXor E K (toBytes16 C) (C.drop 16)

/-- A successful write of `out` to the output area, with DST_LEN (10_state R33, R34). -/
def State.withOutput (s : State) (out : List Byte) : State :=
  { s with buf := s.buf.writeBytes s.dst.base out, dstLen := BitVec.ofNat 32 out.length }

/-- KDF's own writes (41_key_cipher R130), for the key derivation `F`. -/
def kdfBody (F : List Byte → Bytes32) (s : State) : Except Stop State := do
  require (s.inside s.src) .rangeError
  let pw ← s.buf.load s.src.base s.src.len
  return { s with key := F pw, keyw := 0xFF }

/-- ENCRYPT's own writes (41_key_cipher R134), for the block cipher `E` and the drawn `iv`. -/
def encryptBody (E : BlockCipher) (iv : Bytes16) (s : State) : Except Stop State := do
  require s.keyv .noKey
  require (s.regionsOk s.src s.dst) .rangeError
  require (decide (s.src.len + 16 ≤ s.dst.len)) .rangeError
  let P ← s.buf.load s.src.base s.src.len
  return s.drawn.withOutput (encryptBytes E s.key iv P)

/-- DECRYPT's own writes (41_key_cipher R136), for the block cipher `E`. -/
def decryptBody (E : BlockCipher) (s : State) : Except Stop State := do
  require s.keyv .noKey
  require (s.regionsOk s.src s.dst) .rangeError
  require (decide (16 ≤ s.src.len)) .shortInput
  require (decide (s.src.len - 16 ≤ s.dst.len)) .rangeError
  let C ← s.buf.load s.src.base s.src.len
  return s.withOutput (decryptBytes E s.key C)

/-- KDF (41_key_cipher R130). -/
def execKdf (s : State) : Host.Outcome State Fault Refusal := finish s (kdfBody Config.kdfFn s)

/-- ENCRYPT (41_key_cipher R134). An error comes before the draw, so a failing ENCRYPT draws no IV (R135). -/
def execEncrypt (s : State) : Host.Outcome State Fault Refusal :=
  finish s (encryptBody Config.blockCipher (Config.ivDraw s.draws) s)

/-- DECRYPT (41_key_cipher R136). -/
def execDecrypt (s : State) : Host.Outcome State Fault Refusal := finish s (decryptBody Config.blockCipher s)

end Sys2Proof.Machine
end

