-- ==== Sys2Proof/Machine/Hamming.lean ====
section
/-! DEFINITION. HENC and HDEC (spec 42_bits_hamming R155, R158). -/

namespace Sys2Proof.Machine

/-- The packed input bits of HENC, HDEC and LSBWR: the first `n` bits of the source bytes (R155). -/
def State.sourceBits (s : State) (n : Nat) : Except Stop (List Bool) := do
  let bytes ← s.buf.load s.src.base (ceilDiv n 8)
  return (bytesToBits bytes).take n

/-- The own writes of HENC and HDEC, which differ only in the code function `code` (R155, R158). -/
def codeBody (code : List Bool → List Bool) (s : State) : Except Stop State := do
  require (s.regionsOk s.src s.dst) .rangeError
  require (decide (s.bitCount.toNat ≤ 8 * s.src.len)) .rangeError
  let bits ← s.sourceBits s.bitCount.toNat
  let coded := code bits
  require (decide ((bitsToBytes coded).length ≤ s.dst.len)) .rangeError
  return { s.withOutput (bitsToBytes coded) with totalBits := BitVec.ofNat 32 coded.length }

/-- HENC (42_bits_hamming R155). -/
def execHenc (s : State) : Host.Outcome State Fault Refusal := finish s (codeBody hamEncode s)

/-- HDEC (42_bits_hamming R158). -/
def execHdec (s : State) : Host.Outcome State Fault Refusal := finish s (codeBody hamDecode s)

end Sys2Proof.Machine
end

