-- ==== Sys2Proof/Machine/EmbedExtract.lean ====
section
/-! DEFINITION. LSBWR, LSBRD, EMBED and EXTRACT (spec 43_embed_extract). -/

namespace Sys2Proof.Machine

/-! ### Sample LSBs (R171, 20_memory R65) -/

/-- `lsbAddr(c, i)`: the BUF address of the low byte of sample `i` of the data at carrier offset `dataOffset`. -/
def lsbAddr (wav dataOffset i : Nat) : Nat := wav + dataOffset + 2 * i

/-- A byte with its bit 0 replaced (20_memory R65). -/
def withLsb (x : Byte) (b : Bool) : Byte := (x &&& 0xFE#8) ||| (BitVec.ofBool b).setWidth 8

/-- `lsbBits`: bit 0 of the `n` sample low bytes from address `a` on, two bytes a sample (R171). -/
def readLsbs (m : Memory) : Nat → Nat → Except Stop (List Bool)
  | _, 0 => .ok []
  | a, n + 1 => do
    let x ← m.loadByte a
    let rest ← readLsbs m (a + 2) n
    return x.getLsbD 0 :: rest

/-- `lsbWrite` of successive bits into the sample low bytes from address `a` on (R171). -/
def writeLsbs (m : Memory) : Nat → List Bool → Except Stop Memory
  | _, [] => .ok m
  | a, b :: bs => do
    let x ← m.loadByte a
    writeLsbs (m.write a (withLsb x b)) (a + 2) bs

/-! ### LSBWR and LSBRD -/

/-- LSBWR's own writes (R172). DATA_OFFSET and SAMPLE_COUNT are the registers' (R171). -/
def lsbwrBody (s : State) : Except Stop State := do
  require s.parsed .notParsed
  require (s.regionsOk s.src s.wav) .rangeError
  require (decide (s.bitCount.toNat ≤ 8 * s.src.len)) .rangeError
  require (decide (s.bitStart.toNat + s.bitCount.toNat ≤ s.sampleCount.toNat)) .capacityError
  let bits ← s.sourceBits s.bitCount.toNat
  let m ← writeLsbs s.buf (lsbAddr s.wav.base s.dataOffset.toNat s.bitStart.toNat) bits
  return { s with buf := m }

/-- LSBRD's own writes (R174). -/
def lsbrdBody (s : State) : Except Stop State := do
  require s.parsed .notParsed
  require (s.regionsOk s.wav s.dst) .rangeError
  require (decide (s.bitStart.toNat + s.bitCount.toNat ≤ s.sampleCount.toNat)) .truncatedError
  require (decide (ceilDiv s.bitCount.toNat 8 ≤ s.dst.len)) .rangeError
  let bits ← readLsbs s.buf (lsbAddr s.wav.base s.dataOffset.toNat s.bitStart.toNat) s.bitCount.toNat
  return s.withOutput (bitsToBytes bits)

/-- LSBWR (43_embed_extract R172). -/
def execLsbwr (s : State) : Host.Outcome State Fault Refusal := finish s (lsbwrBody s)

/-- LSBRD (43_embed_extract R174). -/
def execLsbrd (s : State) : Host.Outcome State Fault Refusal := finish s (lsbrdBody s)

/-! ### The wire payload (R175 to R177, 30_encoding R98) -/

/-- `header(ecc, P)` (R175): the magic, the flag as 0 or 1, the length as four big-endian bytes. -/
def header (ecc : Bool) (P : Nat) : List Byte :=
  magicTag ++ [(BitVec.ofBool ecc).setWidth 8] ++ beBytes 4 P

/-- `body(ecc, Enc)` (R176): only the encrypted payload is Hamming-coded (90_conflicts C1). -/
def body (ecc : Bool) (enc : List Byte) : List Byte :=
  if ecc then bitsToBytes (hamEncode (bytesToBits enc)) else enc

/-- The wire buffer (R177). -/
def wireBytes (ecc : Bool) (enc : List Byte) : List Byte := header ecc enc.length ++ body ecc enc

/-! ### EMBED -/

/-- EMBED up to its parse (R180): the prerequisite, the regions, the container. No IV is drawn yet (41_key_cipher
R135). -/
def embedCarrier (s : State) : Except Stop Container := do
  require s.keyv .noKey
  require (s.regionsOk s.wav s.src) .rangeError
  s.parseCarrier

/-- EMBED from its encryption step on (R180), with the container `c`, the block cipher `E` and the drawn `iv`. -/
def embedPayload (E : BlockCipher) (iv : Bytes16) (c : Container) (s : State) : Except Stop State := do
  let P ← s.buf.load s.src.base s.src.len
  let enc := encryptBytes E s.key iv P
  let wire := wireBytes s.eccLatch enc
  require (decide (8 * wire.length ≤ c.sampleCount)) .capacityError
  let m ← writeLsbs s.buf (lsbAddr s.wav.base c.dataOffset 0) (bytesToBits wire)
  return { s.withContainer c with
    buf := m
    payloadLen := BitVec.ofNat 32 enc.length
    totalBits := BitVec.ofNat 32 (8 * wire.length)
    eccf := s.eccLatch }

/-- EMBED with the block cipher `E` and the drawn `iv` (R180). An IV drawn before a CapacityError is discarded unseen
(60_exceptions R203): the next draw is another one (log 16). -/
def embedWith (E : BlockCipher) (iv : Bytes16) (s : State) : Host.Outcome State Fault Refusal :=
  match embedCarrier s with
  | .error stop => finish s (.error stop)
  | .ok c => finish s.drawn (embedPayload E iv c s.drawn)

/-- EMBED (43_embed_extract R180). -/
def execEmbed (s : State) : Host.Outcome State Fault Refusal :=
  embedWith Config.blockCipher (Config.ivDraw s.draws) s

/-! ### EXTRACT -/

/-- `bodyBits` of a payload length (R185): 14P with ECC, 8P without, exact. -/
def bodyBits (ecc : Bool) (P : Nat) : Nat := if ecc then P * 8 * 7 / 4 else P * 8

/-- What EXTRACT reads from the header samples (R185). -/
structure WireHeader where
  ecc : Bool
  payloadLength : Nat
  deriving DecidableEq, Repr

/-- The header read from the sample LSBs of container `c` (R185, R186): the magic, then the flag and the length. A
non-zero flag means ECC on (92 D29). -/
def readHeader (m : Memory) (wav : Nat) (c : Container) : Except Stop WireHeader := do
  require (decide (32 ≤ c.sampleCount)) .notFoundError
  let magic ← readLsbs m (lsbAddr wav c.dataOffset 0) 32
  require (bitsToBytes magic == magicTag) .notFoundError
  require (decide (72 ≤ c.sampleCount)) .truncatedError
  let flag ← readLsbs m (lsbAddr wav c.dataOffset 32) 8
  let len ← readLsbs m (lsbAddr wav c.dataOffset 40) 32
  return { ecc := bitsToBytes flag != [0], payloadLength := beNat (bitsToBytes len) }

/-- The encrypted payload in the body samples (R185): decoded with ECC, cut to the payload length. -/
def readBody (m : Memory) (wav : Nat) (c : Container) (h : WireHeader) : Except Stop (List Byte) := do
  let bits ← readLsbs m (lsbAddr wav c.dataOffset 72) (bodyBits h.ecc h.payloadLength)
  return (bitsToBytes (if h.ecc then hamDecode bits else bits)).take h.payloadLength

/-- EXTRACT's own writes (R185), for the block cipher `E`. -/
def extractBody (E : BlockCipher) (s : State) : Except Stop State := do
  require s.keyv .noKey
  require (s.regionsOk s.wav s.dst) .rangeError
  let c ← s.parseCarrier
  let h ← readHeader s.buf s.wav.base c
  require (decide (72 + bodyBits h.ecc h.payloadLength ≤ c.sampleCount)) .truncatedError
  require (decide (16 ≤ h.payloadLength)) .shortInput
  require (decide (h.payloadLength - 16 ≤ s.dst.len)) .rangeError
  let enc ← readBody s.buf s.wav.base c h
  return { (s.withContainer c).withOutput (decryptBytes E s.key enc) with
    payloadLen := BitVec.ofNat 32 h.payloadLength
    totalBits := BitVec.ofNat 32 (72 + bodyBits h.ecc h.payloadLength)
    eccf := h.ecc }

/-- EXTRACT (43_embed_extract R185). -/
def execExtract (s : State) : Host.Outcome State Fault Refusal := finish s (extractBody Config.blockCipher s)

end Sys2Proof.Machine
end

