-- ==== Sys2Proof/Machine/Dispatch.lean ====
section
/-! DEFINITION. `exec`: one arm per command, each one call of its meaning. -/

namespace Sys2Proof.Machine

def exec (i : Instr) (s : State) : Host.Outcome State Fault Refusal :=
  match i with
  | .parse => Sys2Proof.Machine.execParse s
  | .kdf => Sys2Proof.Machine.execKdf s
  | .encrypt => Sys2Proof.Machine.execEncrypt s
  | .decrypt => Sys2Proof.Machine.execDecrypt s
  | .henc => Sys2Proof.Machine.execHenc s
  | .hdec => Sys2Proof.Machine.execHdec s
  | .lsbwr => Sys2Proof.Machine.execLsbwr s
  | .lsbrd => Sys2Proof.Machine.execLsbrd s
  | .embed => Sys2Proof.Machine.execEmbed s
  | .extract => Sys2Proof.Machine.execExtract s

end Sys2Proof.Machine
end

