-- ==== Sys2Proof/Machine/HostPort.lean ====
section
/-! DEFINITION. What each host access does (spec 10_state R22 to R43, 20_memory R61, R62, 70_reset_and_hazards R240): the
register map, register reads and writes, BUF accesses, and the model faults of a malformed or forbidden access. -/

namespace Sys2Proof.Machine

/-- The offset of a register from BASE (10_state R22). -/
def Reg.offset : Reg → Nat
  | .id => 0x000
  | .ctrl => 0x004
  | .cmd => 0x008
  | .status => 0x00C
  | .wavBase => 0x010
  | .wavLen => 0x014
  | .srcBase => 0x018
  | .srcLen => 0x01C
  | .dstBase => 0x020
  | .dstCap => 0x024
  | .dstLen => 0x028
  | .bitStart => 0x02C
  | .bitCount => 0x030
  | .dataOffset => 0x034
  | .dataSize => 0x038
  | .channels => 0x03C
  | .sampleCount => 0x040
  | .payloadLen => 0x044
  | .totalBits => 0x048
  | .key k => 0x050 + 4 * k.val

/-- The registers of the map in the order of their offsets (10_state R22). -/
def regMap : List Reg :=
  [.id, .ctrl, .cmd, .status, .wavBase, .wavLen, .srcBase, .srcLen, .dstBase, .dstCap, .dstLen, .bitStart, .bitCount,
    .dataOffset, .dataSize, .channels, .sampleCount, .payloadLen, .totalBits,
    .key 0, .key 1, .key 2, .key 3, .key 4, .key 5, .key 6, .key 7]

/-- The register at an offset, none for a reserved offset (10_state R22). -/
def regAt (offset : Nat) : Option Reg := regMap.find? fun r => r.offset == offset

/-- What a host read of a register returns (10_state R22): CMD and KEYk read 0 (R26, R41). -/
def State.regRead (s : State) : Reg → Word
  | .id => 0x53544731
  | .ctrl => s.ctrlWord
  | .cmd => 0
  | .status => s.statusWord
  | .wavBase => s.wavBase
  | .wavLen => s.wavLen
  | .srcBase => s.srcBase
  | .srcLen => s.srcLen
  | .dstBase => s.dstBase
  | .dstCap => s.dstCap
  | .dstLen => s.dstLen
  | .bitStart => s.bitStart
  | .bitCount => s.bitCount
  | .dataOffset => s.dataOffset
  | .dataSize => s.dataSize
  | .channels => s.channels
  | .sampleCount => s.sampleCount
  | .payloadLen => s.payloadLen
  | .totalBits => s.totalBits
  | .key _ => 0

/-- What a host read at a register offset returns: a reserved offset reads 0 (10_state R22). -/
def State.offsetRead (s : State) (offset : Nat) : Word :=
  match regAt offset with
  | some r => s.regRead r
  | none => 0

/-- A host write of `v` to CTRL (10_state R25): IE and ECC are stored, then KEYCLR acts (ignored with OVR while BUSY),
then SRST. -/
def State.ctrlWrite (s : State) (v : Word) : State :=
  let stored : State := { s with ie := v.getLsbD 0, ecc := v.getLsbD 1 }
  let cleared := if v.getLsbD 2 then (if s.busy then stored.overrun else stored.keyClear) else stored
  if v.getLsbD 31 then cleared.softReset else cleared

/-- A write that BUSY makes ignored, with OVR set (10_state R30); otherwise `t` is the state after it. -/
def State.unlessBusy (s t : State) : State := if s.busy then s.overrun else t

/-- A host write of `v` to a register (10_state R22 to R43). Read-only registers ignore it. -/
def State.regWrite (s : State) (r : Reg) (v : Word) : State :=
  match r with
  | .id => s
  | .ctrl => s.ctrlWrite v
  | .cmd => s.unlessBusy (s.accept v)
  | .status => s.statusClear v
  | .wavBase => s.unlessBusy { s with wavBase := v, parsed := false }
  | .wavLen => s.unlessBusy { s with wavLen := v, parsed := false }
  | .srcBase => s.unlessBusy { s with srcBase := v }
  | .srcLen => s.unlessBusy { s with srcLen := v }
  | .dstBase => s.unlessBusy { s with dstBase := v }
  | .dstCap => s.unlessBusy { s with dstCap := v }
  | .dstLen => s
  | .bitStart => s.unlessBusy { s with bitStart := v }
  | .bitCount => s.unlessBusy { s with bitCount := v }
  | .dataOffset => s
  | .dataSize => s
  | .channels => s
  | .sampleCount => s
  | .payloadLen => s
  | .totalBits => s
  | .key k => s.unlessBusy (s.keyWrite k v)

/-- A host write at a register offset: a reserved offset ignores it (10_state R22). -/
def State.offsetWrite (s : State) (offset : Nat) (v : Word) : State :=
  match regAt offset with
  | some r => s.regWrite r v
  | none => s

/-- A register access is 4 bytes wide at a multiple of 4 inside 0x000 to 0x0FF (20_memory R62, 93 U8, log 12). -/
def regAccessOk (addr width : Nat) : Bool := width == 4 && addr % 4 == 0 && decide (addr < 0x100)

/-- A BUF access is 1, 2 or 4 bytes wide, at a multiple of its width, wholly inside BUF (20_memory R61). -/
def bufAccessOk (bytes addr width : Nat) : Bool :=
  (width == 1 || width == 2 || width == 4) && addr % width == 0 && decide (addr + width ≤ bytes)

/-- The state after a host read that returned `v`. Reads have no side effect on STEGCORE (20_memory R69); the value goes
to the host (30_encoding R96, log 11). -/
def State.hostRead (s : State) (v : Word) : State := { s with hostReads := v :: s.hostReads }

/-- A host access to the register space (20_memory R62). -/
def hostReg (addr width : Nat) (op : HostOp) (s : State) : Host.Outcome State Fault Refusal :=
  if regAccessOk addr width then
    match op with
    | .read => .next (s.hostRead (s.offsetRead addr))
    | .write v => .next (s.offsetWrite addr v)
  else .fault .hostBadAccess

/-- A host access to BUF (20_memory R61, R64, R66; 70_reset_and_hazards R240). DESIGN CHOICE, log 10: where two of the
faults apply, HostBadAccess comes before HostBufWhileBusy, and both before UnwrittenRead. -/
def hostBuf (addr width : Nat) (op : HostOp) (s : State) : Host.Outcome State Fault Refusal :=
  if bufAccessOk s.bufBytes addr width then
    if s.busy then .fault .hostBufWhileBusy
    else
      match op with
      | .read =>
        match s.buf.readBytes addr width with
        | some bs => .next (s.hostRead (BitVec.ofNat 32 (leNat bs)))
        | none => .fault .unwrittenRead
      | .write v => .next { s with buf := s.buf.writeBytes addr (leBytes width v.toNat) }
  else .fault .hostBadAccess

/-- One host access, one host step (10_state R20, 20_memory R68). -/
def hostStep (a : HostAccess) (s : State) : Host.Outcome State Fault Refusal :=
  match a.space with
  | .reg => hostReg a.addr a.width a.op s
  | .buf => hostBuf a.addr a.width a.op s

/-- The host bus address of an access: the platform's windows (20_memory R70, log 8). -/
def HostAccess.busAddr (a : HostAccess) : Nat :=
  match a.space with
  | .reg => Config.base + a.addr
  | .buf => Config.bufWindow + a.addr

end Sys2Proof.Machine
end

