-- ==== Sys2Proof/Machine/Step.lean ====
section
/-! DEFINITION. One step of STEGCORE: the next turn of the agenda (spec 10_state R20), and the core's step (60_exceptions
R202). -/

namespace Sys2Proof.Machine

/-- The core's turn (60_exceptions R202): it performs the pending command in one atomic step. A word that decodes as
Illegal completes with IllegalCommand (30_encoding R92). With nothing pending the core takes no step (10_state R20). -/
def coreStep (s : State) : Host.Outcome State Fault Refusal :=
  match s.pending with
  | none => .next s
  | some w =>
    match decode w with
    | .ok i => exec i s
    | .error _ => .next (s.completeErr .illegalCommand)

/-- One step: the next turn of the agenda. When the agenda is empty the turn is the core's, so a pending command is
always performed in the end (60_exceptions R202, 70_reset_and_hazards R246; log 1, 2). -/
def step (s : State) : Host.Outcome State Fault Refusal :=
  match s.agenda with
  | [] => coreStep s
  | .core :: rest => coreStep (s.withAgenda rest)
  | .host a :: rest => hostStep a (s.withAgenda rest)
  | .powerOn :: rest => .next (s.withAgenda rest).powerOn

/-- `s` with the command word of the opcode table's bits accepted (10_state R27) and the next turn the core's, so that
the very next step performs exactly that command (log 3). -/
def State.withFetchWord (s : State) (nbits w : Nat) : State :=
  (s.accept (tableWord nbits w)).withAgenda (.core :: s.agenda)

end Sys2Proof.Machine
end

