-- ==== Sys2Proof/Machine/HostProgram.lean ====
section
/-! DEFINITION. The host program notation (spec 30_encoding R96, R97) as functions that build agendas, and the end of a
run (70_reset_and_hazards R247). Host-side control flow is the host's: STEGCORE sees only the accesses (log 21). -/

namespace Sys2Proof.Machine

/-- `WR <REG>, <v>` (30_encoding R96). -/
def hostWr (r : Reg) (v : Word) : Turn := .host { space := .reg, addr := r.offset, width := 4, op := .write v }

/-- `RD <REG> -> <var>` (30_encoding R96). -/
def hostRd (r : Reg) : Turn := .host { space := .reg, addr := r.offset, width := 4, op := .read }

/-- `BW <a>, <b0> <b1> ...`: byte writes at consecutive addresses (30_encoding R96). -/
def hostBw : Nat → List Byte → List Turn
  | _, [] => []
  | a, b :: bs => .host { space := .buf, addr := a, width := 1, op := .write (b.setWidth 32) } :: hostBw (a + 1) bs

/-- `BR <a>, <n> -> <var>`: byte reads at consecutive addresses (30_encoding R96). -/
def hostBr : Nat → Nat → List Turn
  | _, 0 => []
  | a, n + 1 => .host { space := .buf, addr := a, width := 1, op := .read } :: hostBr (a + 1) n

/-- `CMD <MNEM>` (30_encoding R97). -/
def hostCmd (i : Instr) : Turn := hostWr .cmd (encode i)

/-- `WAIT` (30_encoding R97) in the schedule where the host polls `k` times before the core's turn and once after it. -/
def hostWait (k : Nat) : List Turn := List.replicate k (hostRd .status) ++ [.core, hostRd .status]

/-- `RUN <MNEM>` (30_encoding R97), with `k` polls before the core's turn. -/
def hostRun (i : Instr) (k : Nat) : List Turn := hostCmd i :: hostWait k

/-- `WAVREG <base>, <len>` (30_encoding R97). -/
def hostWavreg (base len : Word) : List Turn := [hostWr .wavBase base, hostWr .wavLen len]

/-- `SRCREG <base>, <len>` (30_encoding R97). -/
def hostSrcreg (base len : Word) : List Turn := [hostWr .srcBase base, hostWr .srcLen len]

/-- `DSTREG <base>, <cap>` (30_encoding R97). -/
def hostDstreg (base cap : Word) : List Turn := [hostWr .dstBase base, hostWr .dstCap cap]

/-- `BITS <start>, <count>` (30_encoding R97). -/
def hostBits (start count : Word) : List Turn := [hostWr .bitStart start, hostWr .bitCount count]

/-- The word `KEYLOAD` writes to KEYk: LE32 of key bytes 4k to 4k + 3 (30_encoding R97). -/
def keyloadWord (key : List Byte) (k : Nat) : Word := BitVec.ofNat 32 (leNat ((key.drop (4 * k)).take 4))

/-- `KEYLOAD <k0 .. k31>` (30_encoding R97). -/
def hostKeyload (key : List Byte) : List Turn :=
  [hostWr (.key 0) (keyloadWord key 0), hostWr (.key 1) (keyloadWord key 1), hostWr (.key 2) (keyloadWord key 2),
    hostWr (.key 3) (keyloadWord key 3), hostWr (.key 4) (keyloadWord key 4), hostWr (.key 5) (keyloadWord key 5),
    hostWr (.key 6) (keyloadWord key 6), hostWr (.key 7) (keyloadWord key 7)]

/-- `KEYCLR` (30_encoding R97), where `c` is what the read of CTRL gives the host. -/
def hostKeyclr (c : Word) : List Turn := [hostRd .ctrl, hostWr .ctrl ((c &&& 3) ||| 4)]

/-- `ACK` (30_encoding R97). -/
def hostAck : Turn := hostWr .status 0x0000000E

/-- `SRESET` (30_encoding R97). -/
def hostSreset : Turn := hostWr .ctrl 0x80000000

/-- The end of a run: the last line executed and no command pending (70_reset_and_hazards R247). -/
def State.runEnded (s : State) : Bool := s.agenda.isEmpty && s.pending.isNone

end Sys2Proof.Machine
end

