-- ==== Sys2Proof/Safety.lean ====
section
/-! DEFINITION. The terms claims are stated in: what memory holds and leaves alone, which errors a command may raise, the
invariants of STEGCORE's state, and what counts as a safe run. -/

namespace Sys2Proof.Machine

/-! ### Memory -/

/-- BUF holds the bytes `bs` from address `a` on. -/
def Memory.holds (m : Memory) (a : Nat) (bs : List Byte) : Prop :=
  ∀ i (h : i < bs.length), m.read (a + i) = some bs[i]

/-- `m'` is `m` but for the `n` bytes from address `a`: the same size, and every byte outside reads as before. -/
def Memory.sameOutside (m m' : Memory) (a n : Nat) : Prop :=
  m'.top = m.top ∧ ∀ x, x < a ∨ a + n ≤ x → m'.read x = m.read x

/-- `m'` is `m` with the bits `bits` in the LSBs of the samples whose low bytes start at address `a`: bit 0 of those
bytes is replaced, and every other byte reads as before (20_memory R65). -/
def Memory.lsbsReplaced (m m' : Memory) (a : Nat) (bits : List Bool) : Prop :=
  m'.top = m.top ∧
  (∀ i (h : i < bits.length), ∃ x, m.read (a + 2 * i) = some x ∧
    m'.read (a + 2 * i) = some ((x &&& 0xFE#8) ||| (if bits[i] then 1#8 else 0#8))) ∧
  ∀ x, (∀ i, i < bits.length → x ≠ a + 2 * i) → m'.read x = m.read x

/-- Every byte of BUF holds a value. -/
def State.bufWritten (s : State) : Prop := ∀ a, a < s.bufBytes → (s.buf.read a).isSome

/-- A well-formed host access to BUF: 1, 2 or 4 bytes wide, at a multiple of its width, wholly inside BUF (20_memory
R61). -/
def State.bufAccessWellFormed (s : State) (addr width : Nat) : Prop :=
  (width = 1 ∨ width = 2 ∨ width = 4) ∧ addr % width = 0 ∧ addr + width ≤ s.bufBytes

/-! ### Carriers -/

/-- One chunk of a carrier before its `data` chunk, as the parser sees it (30_encoding R100, R101; 40_container R111): its
ID, its size field, and for a `fmt ` chunk its fields. -/
structure Chunk where
  id : List Byte
  size : Nat
  fields : FmtChunk
  deriving DecidableEq, Repr

/-- BUF holds the head of chunk `c` at carrier offset `cur`, inside the carrier of `len` bytes at `wav`, and a walk passes
it: its ID is not "data", and a "fmt " chunk has at least 16 bytes, its 24 first bytes inside the carrier, and its fields
at body offsets 0, 2 and 14 (40_container R111). -/
def Memory.chunkAt (m : Memory) (wav len cur : Nat) (c : Chunk) : Prop :=
  c.id.length = 4 ∧ c.id ≠ [0x64, 0x61, 0x74, 0x61] ∧ c.size < 2 ^ 32 ∧ cur + 8 ≤ len ∧
  m.holds (wav + cur) (c.id ++ leBytes 4 c.size) ∧
  (c.id = [0x66, 0x6D, 0x74, 0x20] → 16 ≤ c.size ∧ cur + 24 ≤ len ∧
    c.fields.format < 2 ^ 16 ∧ c.fields.channels < 2 ^ 16 ∧ c.fields.bits < 2 ^ 16 ∧
    m.holds (wav + cur + 8) (leBytes 2 c.fields.format ++ leBytes 2 c.fields.channels) ∧
    m.holds (wav + cur + 22) (leBytes 2 c.fields.bits))

/-- The chunks `cs` stand one after another from carrier offset `cur`, and the next one would start at `next`: a body of
odd size is followed by a pad byte (30_encoding R100). -/
def Memory.chunksFrom (m : Memory) (wav len : Nat) : Nat → List Chunk → Nat → Prop
  | cur, [], next => cur = next
  | cur, c :: cs, next =>
    m.chunkAt wav len cur c ∧ m.chunksFrom wav len (cur + 8 + c.size + c.size % 2) cs next

/-! ### Errors -/

/-- The errors each command may raise (60_exceptions R201, "raised by"; RangeError by every command). -/
def raisable : Instr → List CmdError
  | .parse => [.rangeError, .formatError]
  | .kdf => [.rangeError]
  | .encrypt => [.noKey, .rangeError]
  | .decrypt => [.noKey, .rangeError, .shortInput]
  | .henc => [.rangeError]
  | .hdec => [.rangeError]
  | .lsbwr => [.notParsed, .rangeError, .capacityError]
  | .lsbrd => [.notParsed, .rangeError, .truncatedError]
  | .embed => [.noKey, .rangeError, .formatError, .capacityError]
  | .extract => [.noKey, .rangeError, .formatError, .notFoundError, .truncatedError, .shortInput]

/-! ### Invariants -/

/-- BUF is in canonical form. -/
def State.canonicalBuf (s : State) : Prop := s.buf.wf = true

/-- ERRCODE reads 0 when ERR = 0, and otherwise is one of 1 to 9 (10_state R28, 60_exceptions R201). -/
def State.errorRegsLegal (s : State) : Prop :=
  (s.err = false → s.errcode = 0) ∧ (s.err = true → 1 ≤ s.errcode.toNat ∧ s.errcode.toNat ≤ 9)

/-- While a command is pending DONE, ERR and ERRCODE are clear (10_state R27, R44). -/
def State.busyQuiet (s : State) : Prop := s.busy = true → s.done = false ∧ s.err = false ∧ s.errcode = 0

/-- PARSED = 1 means that the container registers describe a container inside a carrier inside BUF (10_state R28, R36,
R39; 20_memory R67; 40_container R111, R116). -/
def State.parsedCarrier (s : State) : Prop :=
  s.parsed = true →
    s.wav.base + s.wav.len ≤ s.bufBytes ∧
    s.dataOffset.toNat + s.dataSize.toNat ≤ s.wav.len ∧
    44 ≤ s.dataOffset.toNat ∧ s.dataOffset.toNat % 2 = 0 ∧
    s.sampleCount.toNat = s.dataSize.toNat / 2 ∧
    s.channels.toNat < 2 ^ 16

/-- The bytes of a key word that nothing has written since the last clear are 0 (10_state R40, R41). -/
def State.unwrittenKeyZero (s : State) : Prop :=
  ∀ i : Fin 32, s.keyw.getLsbD (i.val / 4) = false → s.key[i] = 0

/-! ### Runs -/

/-- A run of `k` steps from `s` is safe when no model fault is recorded in it (60_exceptions R207). -/
def safeRun (k : Nat) (s : State) : Prop := ∀ f, Sys2Proof.core.run k s ≠ .fault f

end Sys2Proof.Machine
end

