-- ==== Sys2Proof/Certificates/Slice0/Obligations.lean ====
section
/-! DEFINITION. The statements about STEGCORE, each from the rules of the spec its docstring cites. -/

open Sys2Proof Sys2Proof.Machine

/-! ### Commands as words -/

/-- The ten words of the opcode map decode to their commands, and every command's encoding decodes to it (30_encoding
R91). -/
def Obligations.CommandWordsDecode : Prop :=
  decode 0x00000001#32 = .ok .parse ∧ decode 0x00000002#32 = .ok .kdf ∧ decode 0x00000003#32 = .ok .encrypt ∧
  decode 0x00000004#32 = .ok .decrypt ∧ decode 0x00000005#32 = .ok .henc ∧ decode 0x00000006#32 = .ok .hdec ∧
  decode 0x00000007#32 = .ok .lsbwr ∧ decode 0x00000008#32 = .ok .lsbrd ∧ decode 0x00000009#32 = .ok .embed ∧
  decode 0x0000000A#32 = .ok .extract ∧ ∀ i, decode (encode i) = .ok i

/-- Decoding is total: a word with bits 31:8 zero and an opcode of 0x01 to 0x0A is the one command with that opcode, every
other word is Illegal, and a pending Illegal word completes with IllegalCommand and changes nothing else (30_encoding
R92, R94). -/
def Obligations.DecodeAcceptsExactlyTheTenWords : Prop :=
  (∀ (w : Word) (i : Instr), decode w = .ok i ↔ w.extractLsb' 8 24 = 0#24 ∧ w.extractLsb' 0 8 = opcode i) ∧
  (∀ w : Word, (∃ e, decode w = .error e) ↔
    w.extractLsb' 8 24 ≠ 0#24 ∨ (w.extractLsb' 0 8).toNat = 0 ∨ 0x0B ≤ (w.extractLsb' 0 8).toNat) ∧
  ∀ (s : State) (w : Word) (e : Illegal), s.pending = some w → decode w = .error e →
    coreStep s = .next { s with err := true, errcode := 5, done := true, pending := none }

/-! ### Steps -/

/-- A step takes the next turn of the agenda. When it is the core's and the pending word decodes, the step is `exec` of
the command; with nothing pending the core's turn changes nothing; a host access is `hostStep` of it; a power-on reset
keeps only the size of BUF and the model's own fields. The turns are the model's form of 10_state R20 (log 1, 2, 24). -/
def Obligations.StepPerformsTheDecodedCommand : Prop :=
  (∀ (s : State) (w : Word) (i : Instr), s.pending = some w → decode w = .ok i →
    (s.agenda = [] → step s = exec i s) ∧
    ∀ rest, s.agenda = .core :: rest → step s = exec i { s with agenda := rest }) ∧
  (∀ s : State, s.pending = none →
    (s.agenda = [] → step s = .next s) ∧ ∀ rest, s.agenda = .core :: rest → step s = .next { s with agenda := rest }) ∧
  (∀ (s : State) (a : HostAccess) (rest : List Turn), s.agenda = .host a :: rest →
    step s = hostStep a { s with agenda := rest }) ∧
  ∀ (s : State) (rest : List Turn), s.agenda = .powerOn :: rest →
    step s = .next { State.reset with
      buf := { top := s.buf.top, cells := [] }, draws := s.draws, agenda := rest, hostReads := s.hostReads }

/-- Every completion, successful or not, leaves BUSY 0 and DONE 1, and no command changes CTRL, OVR, the operand
registers, ecc_latch or the size of BUF; only KDF changes the key store (60_exceptions R202, 10_state R27, R30). -/
def Obligations.EveryCompletionKeepsTheOperands : Prop :=
  ∀ (i : Instr) (s t : State), exec i s = .next t →
    t.busy = false ∧ t.done = true ∧ (t.err = false → t.errcode = 0) ∧
    t.ie = s.ie ∧ t.ecc = s.ecc ∧ t.ovr = s.ovr ∧
    t.wavBase = s.wavBase ∧ t.wavLen = s.wavLen ∧ t.srcBase = s.srcBase ∧ t.srcLen = s.srcLen ∧
    t.dstBase = s.dstBase ∧ t.dstCap = s.dstCap ∧ t.bitStart = s.bitStart ∧ t.bitCount = s.bitCount ∧
    t.eccLatch = s.eccLatch ∧ t.buf.top = s.buf.top ∧ t.agenda = s.agenda ∧ t.hostReads = s.hostReads ∧
    (i ≠ .kdf → t.key = s.key ∧ t.keyw = s.keyw)

/-- A command that raises an error changes STATUS and nothing else: ERR, ERRCODE, BUSY, DONE, and PARSED on a FormatError
(60_exceptions R203). The count of IVs drawn is the model's own (log 16). -/
def Obligations.FailingCommandChangesOnlyStatus : Prop :=
  ∀ (i : Instr) (s t : State), exec i s = .next t → t.err = true →
    ∃ e : CmdError, t = { s with
      err := true
      errcode := e.code
      pending := none
      done := true
      parsed := if e = .formatError then false else s.parsed
      draws := t.draws }

/-- A command raises only the errors listed for it, with the codes 1 to 9 of the table (60_exceptions R201). -/
def Obligations.CommandsRaiseOnlyTheirErrors : Prop :=
  (∀ (i : Instr) (s t : State), exec i s = .next t → t.err = true → ∃ e ∈ raisable i, t.errcode = e.code) ∧
  CmdError.formatError.code = 1 ∧ CmdError.capacityError.code = 2 ∧ CmdError.notFoundError.code = 3 ∧
  CmdError.truncatedError.code = 4 ∧ CmdError.illegalCommand.code = 5 ∧ CmdError.rangeError.code = 6 ∧
  CmdError.noKey.code = 7 ∧ CmdError.shortInput.code = 8 ∧ CmdError.notParsed.code = 9

/-- No command is refused, and the one way a command stops is a read of a BUF byte that holds no value (20_memory R66,
60_exceptions R207). -/
def Obligations.CommandsFaultOnlyOnUnwrittenBytes : Prop :=
  ∀ (i : Instr) (s : State), (∃ t, exec i s = .next t) ∨ exec i s = .fault .unwrittenRead

/-- With every BUF byte written, and PARSED describing a container inside BUF, every command completes (60_exceptions
R202: a pending command always completes). -/
def Obligations.CommandsCompleteOnWrittenBuf : Prop :=
  ∀ (i : Instr) (s : State), s.bufWritten → s.parsedCarrier → ∃ t, exec i s = .next t

/-- A host that waits by polling STATUS sees the completion: with every BUF byte written, and PARSED describing a container
inside BUF, k polls change nothing but what the host has read, the next turn is the core's and performs the pending
command (`coreStep`), and the last poll reads the completed STATUS, with BUSY = 0, and changes nothing else. The polls as
turns of an agenda are the model's form of `WAIT` (log 21); the values read are recorded newest first (log 11)
(70_reset_and_hazards R246, 60_exceptions R202, 30_encoding R97). -/
def Obligations.PollingHostSeesCompletion : Prop :=
  ∀ (s : State) (k : Nat), s.bufWritten → s.parsedCarrier → s.busy = true → s.agenda = hostWait k →
    s.statusWord.getLsbD 0 = true ∧
    (∀ j, j ≤ k → Sys2Proof.core.run j s = .next { s with
      agenda := hostWait (k - j), hostReads := List.replicate j s.statusWord ++ s.hostReads }) ∧
    ∃ u, coreStep { s with
          agenda := [hostRd .status], hostReads := List.replicate k s.statusWord ++ s.hostReads } = .next u ∧
      u.busy = false ∧ u.done = true ∧ u.statusWord.getLsbD 0 = false ∧
      u.hostReads = List.replicate k s.statusWord ++ s.hostReads ∧
      Sys2Proof.core.run (k + 2) s = .next { u with agenda := [], hostReads := u.statusWord :: u.hostReads }

/-! ### The commands, rule by rule -/

/-- PARSE (40_container R112): RangeError, FormatError, or the container registers of the parsed carrier. What the parser
answers (40_container R111, R114), for the carrier's RIFF and WAVE tags and any chunks `cs` that stand before carrier
offset `e`: FormatError where the tags are wrong, where no `data` chunk follows, where a `fmt ` chunk is too short, where
no `fmt ` chunk stands before the `data` chunk, where the last one is not PCM or not of 16 bits, and where the data runs
past the carrier; otherwise the container at `e`. Where the parser needs a byte that nothing has written it is
UnwrittenRead (20_memory R66). When it needs one is the model's inference from the order of the pseudocode, not a rule of
the spec (DEDUCED, log 14): a tag or a chunk head of which any byte is unwritten faults, a wrong RIFF tag is FormatError
whatever the WAVE tag's bytes hold, and the size check of a `fmt ` chunk comes before its fields are read. -/
def Obligations.ParseFollowsItsRule : Prop :=
  ∀ s : State,
    (s.inside s.wav = false → exec .parse s = .next (s.completeErr .rangeError)) ∧
    (s.inside s.wav = true → s.parseCarrier = .error (.raise .formatError) →
      exec .parse s = .next (s.completeErr .formatError)) ∧
    (∀ f, s.inside s.wav = true → s.parseCarrier = .error (.fault f) → exec .parse s = .fault f) ∧
    (∀ c : Container, s.inside s.wav = true → s.parseCarrier = .ok c →
      exec .parse s = .next { s with
        dataOffset := BitVec.ofNat 32 c.dataOffset
        dataSize := BitVec.ofNat 32 c.dataSize
        channels := BitVec.ofNat 32 c.channelCount
        sampleCount := BitVec.ofNat 32 (c.dataSize / 2)
        parsed := true, done := true, err := false, errcode := 0, pending := none }) ∧
    (s.wav.len < 12 → s.parseCarrier = .error (.raise .formatError)) ∧
    (12 ≤ s.wav.len →
      (s.buf.readBytes s.wav.base 4 = none → s.parseCarrier = .error (.fault .unwrittenRead)) ∧
      (∀ tag, s.buf.readBytes s.wav.base 4 = some tag → tag ≠ [0x52, 0x49, 0x46, 0x46] →
        s.parseCarrier = .error (.raise .formatError)) ∧
      (s.buf.holds s.wav.base [0x52, 0x49, 0x46, 0x46] →
        (s.buf.readBytes (s.wav.base + 8) 4 = none → s.parseCarrier = .error (.fault .unwrittenRead)) ∧
        (∀ tag, s.buf.readBytes (s.wav.base + 8) 4 = some tag → tag ≠ [0x57, 0x41, 0x56, 0x45] →
          s.parseCarrier = .error (.raise .formatError)) ∧
        (s.buf.holds (s.wav.base + 8) [0x57, 0x41, 0x56, 0x45] →
          ∀ (cs : List Chunk) (e : Nat), s.buf.chunksFrom s.wav.base s.wav.len 12 cs e →
            (s.wav.len < e + 8 → s.parseCarrier = .error (.raise .formatError)) ∧
            (e + 8 ≤ s.wav.len → s.buf.readBytes (s.wav.base + e) 8 = none →
              s.parseCarrier = .error (.fault .unwrittenRead)) ∧
            ∀ size, e + 8 ≤ s.wav.len → size < 2 ^ 32 →
              (s.buf.holds (s.wav.base + e) ([0x66, 0x6D, 0x74, 0x20] ++ leBytes 4 size) →
                (size < 16 ∨ s.wav.len < e + 24 → s.parseCarrier = .error (.raise .formatError)) ∧
                (16 ≤ size → e + 24 ≤ s.wav.len →
                  (∃ i ∈ [8, 9, 10, 11, 22, 23], s.buf.read (s.wav.base + e + i) = none) →
                  s.parseCarrier = .error (.fault .unwrittenRead))) ∧
              (s.buf.holds (s.wav.base + e) ([0x64, 0x61, 0x74, 0x61] ++ leBytes 4 size) →
                ((∀ c ∈ cs, c.id ≠ [0x66, 0x6D, 0x74, 0x20]) → s.parseCarrier = .error (.raise .formatError)) ∧
                ∀ (before after : List Chunk) (f : Chunk), cs = before ++ f :: after →
                  f.id = [0x66, 0x6D, 0x74, 0x20] → (∀ c ∈ after, c.id ≠ [0x66, 0x6D, 0x74, 0x20]) →
                  (f.fields.format ≠ 1 ∨ f.fields.bits ≠ 16 ∨ s.wav.len < e + 8 + size →
                    s.parseCarrier = .error (.raise .formatError)) ∧
                  (f.fields.format = 1 → f.fields.bits = 16 → e + 8 + size ≤ s.wav.len →
                    s.parseCarrier = .ok { dataOffset := e + 8, dataSize := size, channelCount := f.fields.channels })))))

/-- PARSE of a carrier with the 44-byte header of R112's example, whatever its RIFF size, sample rate, byte rate and block
align are (40_container R112, R113): it succeeds for every channel count and every data size the carrier holds. -/
def Obligations.CanonicalCarrierParses : Prop :=
  ∀ (s : State) (riffSize rate byteRate align : List Byte) (channels size : Nat),
    riffSize.length = 4 → rate.length = 4 → byteRate.length = 4 → align.length = 2 → channels < 2 ^ 16 →
    s.wav.base + s.wav.len ≤ s.bufBytes → 44 + size ≤ s.wav.len →
    s.buf.readBytes s.wav.base 44 = some (
      [0x52, 0x49, 0x46, 0x46] ++ riffSize ++ [0x57, 0x41, 0x56, 0x45] ++
      [0x66, 0x6D, 0x74, 0x20] ++ [0x10, 0x00, 0x00, 0x00] ++ [0x01, 0x00] ++ leBytes 2 channels ++ rate ++ byteRate ++
      align ++ [0x10, 0x00] ++ [0x64, 0x61, 0x74, 0x61] ++ leBytes 4 size) →
    ∃ t, exec .parse s = .next t ∧ t = { s with
      dataOffset := 44
      dataSize := BitVec.ofNat 32 size
      channels := BitVec.ofNat 32 channels
      sampleCount := BitVec.ofNat 32 (size / 2)
      parsed := true, done := true, err := false, errcode := 0, pending := none }

/-- KDF (41_key_cipher R130): RangeError, or the key derived from the SRC bytes with KEYV = 1. An unwritten SRC byte is
UnwrittenRead (20_memory R66). -/
def Obligations.KdfFollowsItsRule : Prop :=
  ∀ s : State,
    (s.inside s.src = false → exec .kdf s = .next (s.completeErr .rangeError)) ∧
    (s.inside s.src = true → s.buf.readBytes s.src.base s.src.len = none → exec .kdf s = .fault .unwrittenRead) ∧
    ∀ pw, s.inside s.src = true → s.buf.readBytes s.src.base s.src.len = some pw →
      ∃ t, exec .kdf s = .next t ∧ t.keyv = true ∧ t = { s with
        key := Config.kdfFn pw, keyw := 0xFF, done := true, err := false, errcode := 0, pending := none }

/-- ENCRYPT (41_key_cipher R134): NoKey, RangeError for the regions, RangeError for DST_CAP, or the drawn IV and the
ciphertext in the output area, with DST_LEN, and nothing else changed. An unwritten SRC byte is UnwrittenRead (20_memory
R66). The count of IVs drawn is the model's own. -/
def Obligations.EncryptFollowsItsRule : Prop :=
  ∀ s : State,
    (s.keyv = false → exec .encrypt s = .next (s.completeErr .noKey)) ∧
    (s.keyv = true → s.regionsOk s.src s.dst = false → exec .encrypt s = .next (s.completeErr .rangeError)) ∧
    (s.keyv = true → s.regionsOk s.src s.dst = true → s.dst.len < s.src.len + 16 →
      exec .encrypt s = .next (s.completeErr .rangeError)) ∧
    (s.keyv = true → s.regionsOk s.src s.dst = true → s.src.len + 16 ≤ s.dst.len →
      s.buf.readBytes s.src.base s.src.len = none → exec .encrypt s = .fault .unwrittenRead) ∧
    ∀ P, s.keyv = true → s.regionsOk s.src s.dst = true → s.src.len + 16 ≤ s.dst.len →
      s.buf.readBytes s.src.base s.src.len = some P →
      ∃ t, exec .encrypt s = .next t ∧
        t = { s with
          buf := t.buf, dstLen := BitVec.ofNat 32 (s.src.len + 16), draws := t.draws
          done := true, err := false, errcode := 0, pending := none } ∧
        t.buf.holds s.dst.base ((Config.ivDraw s.draws).toList ++
          ctrXor Config.blockCipher s.key (Config.ivDraw s.draws) P) ∧
        s.buf.sameOutside t.buf s.dst.base (s.src.len + 16)

/-- DECRYPT (41_key_cipher R136): NoKey, RangeError for the regions, ShortInput, RangeError for DST_CAP, or the plaintext
in the output area; never an error for a wrong key. An unwritten SRC byte is UnwrittenRead (20_memory R66). -/
def Obligations.DecryptFollowsItsRule : Prop :=
  ∀ s : State,
    (s.keyv = false → exec .decrypt s = .next (s.completeErr .noKey)) ∧
    (s.keyv = true → s.regionsOk s.src s.dst = false → exec .decrypt s = .next (s.completeErr .rangeError)) ∧
    (s.keyv = true → s.regionsOk s.src s.dst = true → s.src.len < 16 →
      exec .decrypt s = .next (s.completeErr .shortInput)) ∧
    (s.keyv = true → s.regionsOk s.src s.dst = true → 16 ≤ s.src.len → s.dst.len < s.src.len - 16 →
      exec .decrypt s = .next (s.completeErr .rangeError)) ∧
    (s.keyv = true → s.regionsOk s.src s.dst = true → 16 ≤ s.src.len → s.src.len - 16 ≤ s.dst.len →
      s.buf.readBytes s.src.base s.src.len = none → exec .decrypt s = .fault .unwrittenRead) ∧
    ∀ (iv : Bytes16) (C : List Byte), s.keyv = true → s.regionsOk s.src s.dst = true → 16 ≤ s.src.len →
      s.src.len - 16 ≤ s.dst.len → s.buf.readBytes s.src.base s.src.len = some (iv.toList ++ C) →
      ∃ t, exec .decrypt s = .next t ∧
        t = { s with
          buf := t.buf, dstLen := BitVec.ofNat 32 (s.src.len - 16)
          done := true, err := false, errcode := 0, pending := none } ∧
        t.buf.holds s.dst.base (ctrXor Config.blockCipher s.key iv C) ∧
        s.buf.sameOutside t.buf s.dst.base (s.src.len - 16)

/-- HENC (42_bits_hamming R155): RangeError for the regions, for BIT_COUNT and for DST_CAP, or the packed code of the first
BIT_COUNT source bits. An unwritten byte among the source bytes those bits lie in is UnwrittenRead (20_memory R66). -/
def Obligations.HencFollowsItsRule : Prop :=
  ∀ s : State,
    (s.regionsOk s.src s.dst = false → exec .henc s = .next (s.completeErr .rangeError)) ∧
    (s.regionsOk s.src s.dst = true → 8 * s.src.len < s.bitCount.toNat →
      exec .henc s = .next (s.completeErr .rangeError)) ∧
    (s.regionsOk s.src s.dst = true → s.bitCount.toNat ≤ 8 * s.src.len →
      s.buf.readBytes s.src.base (ceilDiv s.bitCount.toNat 8) = none → exec .henc s = .fault .unwrittenRead) ∧
    ∀ bytes, s.regionsOk s.src s.dst = true → s.bitCount.toNat ≤ 8 * s.src.len →
      s.buf.readBytes s.src.base (ceilDiv s.bitCount.toNat 8) = some bytes →
      (s.dst.len < ceilDiv (7 * ceilDiv s.bitCount.toNat 4) 8 → exec .henc s = .next (s.completeErr .rangeError)) ∧
      (ceilDiv (7 * ceilDiv s.bitCount.toNat 4) 8 ≤ s.dst.len →
        ∃ t, exec .henc s = .next t ∧
          t = { s with
            buf := t.buf
            dstLen := BitVec.ofNat 32 (ceilDiv (7 * ceilDiv s.bitCount.toNat 4) 8)
            totalBits := BitVec.ofNat 32 (7 * ceilDiv s.bitCount.toNat 4)
            done := true, err := false, errcode := 0, pending := none } ∧
          t.buf.holds s.dst.base (bitsToBytes (hamEncode ((bytesToBits bytes).take s.bitCount.toNat))) ∧
          s.buf.sameOutside t.buf s.dst.base (ceilDiv (7 * ceilDiv s.bitCount.toNat 4) 8))

/-- HDEC (42_bits_hamming R158): RangeError for the regions, for BIT_COUNT and for DST_CAP, or the packed data bits decoded
from the first BIT_COUNT source bits; no flag reports a correction. An unwritten byte among the source bytes those bits lie
in is UnwrittenRead (20_memory R66). -/
def Obligations.HdecFollowsItsRule : Prop :=
  ∀ s : State,
    (s.regionsOk s.src s.dst = false → exec .hdec s = .next (s.completeErr .rangeError)) ∧
    (s.regionsOk s.src s.dst = true → 8 * s.src.len < s.bitCount.toNat →
      exec .hdec s = .next (s.completeErr .rangeError)) ∧
    (s.regionsOk s.src s.dst = true → s.bitCount.toNat ≤ 8 * s.src.len →
      s.buf.readBytes s.src.base (ceilDiv s.bitCount.toNat 8) = none → exec .hdec s = .fault .unwrittenRead) ∧
    ∀ bytes, s.regionsOk s.src s.dst = true → s.bitCount.toNat ≤ 8 * s.src.len →
      s.buf.readBytes s.src.base (ceilDiv s.bitCount.toNat 8) = some bytes →
      (s.dst.len < ceilDiv (4 * (s.bitCount.toNat / 7)) 8 → exec .hdec s = .next (s.completeErr .rangeError)) ∧
      (ceilDiv (4 * (s.bitCount.toNat / 7)) 8 ≤ s.dst.len →
        ∃ t, exec .hdec s = .next t ∧
          t = { s with
            buf := t.buf
            dstLen := BitVec.ofNat 32 (ceilDiv (4 * (s.bitCount.toNat / 7)) 8)
            totalBits := BitVec.ofNat 32 (4 * (s.bitCount.toNat / 7))
            done := true, err := false, errcode := 0, pending := none } ∧
          t.buf.holds s.dst.base (bitsToBytes (hamDecode ((bytesToBits bytes).take s.bitCount.toNat))) ∧
          s.buf.sameOutside t.buf s.dst.base (ceilDiv (4 * (s.bitCount.toNat / 7)) 8))

/-- LSBWR (43_embed_extract R172): NotParsed, RangeError, CapacityError, or the first BIT_COUNT source bits in the LSBs of
the samples from BIT_START on, and nothing else changed. An unwritten source byte or sample low byte is UnwrittenRead
(20_memory R66). BUF in canonical form is the model's invariant. -/
def Obligations.LsbwrFollowsItsRule : Prop :=
  ∀ s : State,
    (s.parsed = false → exec .lsbwr s = .next (s.completeErr .notParsed)) ∧
    (s.parsed = true → s.regionsOk s.src s.wav = false → exec .lsbwr s = .next (s.completeErr .rangeError)) ∧
    (s.parsed = true → s.regionsOk s.src s.wav = true → 8 * s.src.len < s.bitCount.toNat →
      exec .lsbwr s = .next (s.completeErr .rangeError)) ∧
    (s.parsed = true → s.regionsOk s.src s.wav = true → s.bitCount.toNat ≤ 8 * s.src.len →
      s.sampleCount.toNat < s.bitStart.toNat + s.bitCount.toNat →
      exec .lsbwr s = .next (s.completeErr .capacityError)) ∧
    (s.parsed = true → s.regionsOk s.src s.wav = true → s.bitCount.toNat ≤ 8 * s.src.len →
      s.bitStart.toNat + s.bitCount.toNat ≤ s.sampleCount.toNat →
      (s.buf.readBytes s.src.base (ceilDiv s.bitCount.toNat 8) = none ∨
        ∃ i, i < s.bitCount.toNat ∧
          s.buf.read (lsbAddr s.wav.base s.dataOffset.toNat (s.bitStart.toNat + i)) = none) →
      exec .lsbwr s = .fault .unwrittenRead) ∧
    ∀ bytes, s.parsed = true → s.regionsOk s.src s.wav = true → s.bitCount.toNat ≤ 8 * s.src.len →
      s.bitStart.toNat + s.bitCount.toNat ≤ s.sampleCount.toNat → s.canonicalBuf →
      s.buf.readBytes s.src.base (ceilDiv s.bitCount.toNat 8) = some bytes →
      (∀ i, i < s.bitCount.toNat →
        (s.buf.read (lsbAddr s.wav.base s.dataOffset.toNat (s.bitStart.toNat + i))).isSome) →
      ∃ t, exec .lsbwr s = .next t ∧
        t = { s with buf := t.buf, done := true, err := false, errcode := 0, pending := none } ∧
        s.buf.lsbsReplaced t.buf (lsbAddr s.wav.base s.dataOffset.toNat s.bitStart.toNat)
          ((bytesToBits bytes).take s.bitCount.toNat)

/-- LSBRD (43_embed_extract R174): NotParsed, RangeError, TruncatedError, RangeError for DST_CAP, or the LSBs of BIT_COUNT
samples from BIT_START on, packed into the output area; the carrier is not written. An unwritten sample low byte is
UnwrittenRead (20_memory R66). -/
def Obligations.LsbrdFollowsItsRule : Prop :=
  ∀ s : State,
    (s.parsed = false → exec .lsbrd s = .next (s.completeErr .notParsed)) ∧
    (s.parsed = true → s.regionsOk s.wav s.dst = false → exec .lsbrd s = .next (s.completeErr .rangeError)) ∧
    (s.parsed = true → s.regionsOk s.wav s.dst = true →
      s.sampleCount.toNat < s.bitStart.toNat + s.bitCount.toNat →
      exec .lsbrd s = .next (s.completeErr .truncatedError)) ∧
    (s.parsed = true → s.regionsOk s.wav s.dst = true →
      s.bitStart.toNat + s.bitCount.toNat ≤ s.sampleCount.toNat → s.dst.len < ceilDiv s.bitCount.toNat 8 →
      exec .lsbrd s = .next (s.completeErr .rangeError)) ∧
    (s.parsed = true → s.regionsOk s.wav s.dst = true →
      s.bitStart.toNat + s.bitCount.toNat ≤ s.sampleCount.toNat → ceilDiv s.bitCount.toNat 8 ≤ s.dst.len →
      (∃ i, i < s.bitCount.toNat ∧
        s.buf.read (lsbAddr s.wav.base s.dataOffset.toNat (s.bitStart.toNat + i)) = none) →
      exec .lsbrd s = .fault .unwrittenRead) ∧
    ∀ low : List Byte, s.parsed = true → s.regionsOk s.wav s.dst = true →
      s.bitStart.toNat + s.bitCount.toNat ≤ s.sampleCount.toNat → ceilDiv s.bitCount.toNat 8 ≤ s.dst.len →
      low.length = s.bitCount.toNat →
      (∀ i (h : i < low.length),
        s.buf.read (lsbAddr s.wav.base s.dataOffset.toNat (s.bitStart.toNat + i)) = some low[i]) →
      ∃ t, exec .lsbrd s = .next t ∧
        t = { s with
          buf := t.buf, dstLen := BitVec.ofNat 32 (ceilDiv s.bitCount.toNat 8)
          done := true, err := false, errcode := 0, pending := none } ∧
        t.buf.holds s.dst.base (bitsToBytes (low.map fun x => x.getLsbD 0)) ∧
        s.buf.sameOutside t.buf s.dst.base (ceilDiv s.bitCount.toNat 8)

/-- EMBED (43_embed_extract R180): NoKey, RangeError, FormatError, CapacityError, or the wire buffer's bits in the LSBs of
the samples from 0 on, with the container and result registers, and nothing else changed. An unwritten payload byte or
sample low byte, or one the parser needs, is UnwrittenRead (20_memory R66). BUF in canonical form is the model's
invariant; the count of IVs drawn is the model's own (log 16). -/
def Obligations.EmbedFollowsItsRule : Prop :=
  ∀ s : State,
    (s.keyv = false → exec .embed s = .next (s.completeErr .noKey)) ∧
    (s.keyv = true → s.regionsOk s.wav s.src = false → exec .embed s = .next (s.completeErr .rangeError)) ∧
    (s.keyv = true → s.regionsOk s.wav s.src = true → s.parseCarrier = .error (.raise .formatError) →
      exec .embed s = .next (s.completeErr .formatError)) ∧
    (∀ f, s.keyv = true → s.regionsOk s.wav s.src = true → s.parseCarrier = .error (.fault f) →
      exec .embed s = .fault f) ∧
    (∀ c : Container, s.keyv = true → s.regionsOk s.wav s.src = true → s.parseCarrier = .ok c →
      s.buf.readBytes s.src.base s.src.len = none → exec .embed s = .fault .unwrittenRead) ∧
    ∀ (c : Container) (P wire : List Byte), s.keyv = true → s.regionsOk s.wav s.src = true → s.parseCarrier = .ok c →
      s.buf.readBytes s.src.base s.src.len = some P →
      wire = header s.eccLatch (s.src.len + 16) ++ body s.eccLatch ((Config.ivDraw s.draws).toList ++
        ctrXor Config.blockCipher s.key (Config.ivDraw s.draws) P) →
      (c.dataSize / 2 < 8 * wire.length →
        ∃ t, exec .embed s = .next t ∧ t = { s.completeErr .capacityError with draws := t.draws }) ∧
      (8 * wire.length ≤ c.dataSize / 2 →
        (∃ i, i < 8 * wire.length ∧ s.buf.read (lsbAddr s.wav.base c.dataOffset i) = none) →
        exec .embed s = .fault .unwrittenRead) ∧
      (8 * wire.length ≤ c.dataSize / 2 → s.canonicalBuf →
        (∀ i, i < 8 * wire.length → (s.buf.read (lsbAddr s.wav.base c.dataOffset i)).isSome) →
        ∃ t, exec .embed s = .next t ∧
          t = { s with
            buf := t.buf
            draws := t.draws
            dataOffset := BitVec.ofNat 32 c.dataOffset
            dataSize := BitVec.ofNat 32 c.dataSize
            channels := BitVec.ofNat 32 c.channelCount
            sampleCount := BitVec.ofNat 32 (c.dataSize / 2)
            payloadLen := BitVec.ofNat 32 (s.src.len + 16)
            totalBits := BitVec.ofNat 32 (8 * wire.length)
            eccf := s.eccLatch
            parsed := true, done := true, err := false, errcode := 0, pending := none } ∧
          s.buf.lsbsReplaced t.buf (lsbAddr s.wav.base c.dataOffset 0) (bytesToBits wire))

/-- EXTRACT (43_embed_extract R185): NoKey, RangeError, FormatError, NotFoundError, TruncatedError, ShortInput, RangeError
for DST_CAP, in this order, or the decrypted payload in the output area, with the container and result registers, and
nothing else changed. An unwritten sample low byte among those each part reads, or a byte the parser needs, is
UnwrittenRead (20_memory R66). -/
def Obligations.ExtractFollowsItsRule : Prop :=
  ∀ s : State,
    (s.keyv = false → exec .extract s = .next (s.completeErr .noKey)) ∧
    (s.keyv = true → s.regionsOk s.wav s.dst = false → exec .extract s = .next (s.completeErr .rangeError)) ∧
    (s.keyv = true → s.regionsOk s.wav s.dst = true → s.parseCarrier = .error (.raise .formatError) →
      exec .extract s = .next (s.completeErr .formatError)) ∧
    (∀ f, s.keyv = true → s.regionsOk s.wav s.dst = true → s.parseCarrier = .error (.fault f) →
      exec .extract s = .fault f) ∧
    ∀ c : Container, s.keyv = true → s.regionsOk s.wav s.dst = true → s.parseCarrier = .ok c →
      (c.dataSize / 2 < 32 → exec .extract s = .next (s.completeErr .notFoundError)) ∧
      (32 ≤ c.dataSize / 2 → (∃ i, i < 32 ∧ s.buf.read (lsbAddr s.wav.base c.dataOffset i) = none) →
        exec .extract s = .fault .unwrittenRead) ∧
      ∀ magic, 32 ≤ c.dataSize / 2 → readLsbs s.buf (lsbAddr s.wav.base c.dataOffset 0) 32 = .ok magic →
        (bitsToBytes magic ≠ [0x53, 0x54, 0x47, 0x31] → exec .extract s = .next (s.completeErr .notFoundError)) ∧
        (bitsToBytes magic = [0x53, 0x54, 0x47, 0x31] → c.dataSize / 2 < 72 →
          exec .extract s = .next (s.completeErr .truncatedError)) ∧
        (bitsToBytes magic = [0x53, 0x54, 0x47, 0x31] → 72 ≤ c.dataSize / 2 →
          (∃ i, 32 ≤ i ∧ i < 72 ∧ s.buf.read (lsbAddr s.wav.base c.dataOffset i) = none) →
          exec .extract s = .fault .unwrittenRead) ∧
        ∀ (flag : Byte) (flagBits lenBits : List Bool) (P nbits : Nat) (ecc : Bool),
          bitsToBytes magic = [0x53, 0x54, 0x47, 0x31] → 72 ≤ c.dataSize / 2 →
          readLsbs s.buf (lsbAddr s.wav.base c.dataOffset 32) 8 = .ok flagBits → bitsToBytes flagBits = [flag] →
          readLsbs s.buf (lsbAddr s.wav.base c.dataOffset 40) 32 = .ok lenBits → beNat (bitsToBytes lenBits) = P →
          ecc = decide (flag ≠ 0) → nbits = (if ecc then P * 8 * 7 / 4 else P * 8) →
          (c.dataSize / 2 < 72 + nbits → exec .extract s = .next (s.completeErr .truncatedError)) ∧
          (72 + nbits ≤ c.dataSize / 2 → P < 16 → exec .extract s = .next (s.completeErr .shortInput)) ∧
          (72 + nbits ≤ c.dataSize / 2 → 16 ≤ P → s.dst.len < P - 16 →
            exec .extract s = .next (s.completeErr .rangeError)) ∧
          (72 + nbits ≤ c.dataSize / 2 → 16 ≤ P → P - 16 ≤ s.dst.len →
            (∃ i, i < nbits ∧ s.buf.read (lsbAddr s.wav.base c.dataOffset (72 + i)) = none) →
            exec .extract s = .fault .unwrittenRead) ∧
          ∀ (bits : List Bool) (iv : Bytes16) (C : List Byte),
            72 + nbits ≤ c.dataSize / 2 → 16 ≤ P → P - 16 ≤ s.dst.len →
            readLsbs s.buf (lsbAddr s.wav.base c.dataOffset 72) nbits = .ok bits →
            (bitsToBytes (if ecc then hamDecode bits else bits)).take P = iv.toList ++ C →
            ∃ t, exec .extract s = .next t ∧
              t = { s with
                buf := t.buf
                dstLen := BitVec.ofNat 32 (P - 16)
                payloadLen := BitVec.ofNat 32 P
                totalBits := BitVec.ofNat 32 (72 + nbits)
                dataOffset := BitVec.ofNat 32 c.dataOffset
                dataSize := BitVec.ofNat 32 c.dataSize
                channels := BitVec.ofNat 32 c.channelCount
                sampleCount := BitVec.ofNat 32 (c.dataSize / 2)
                eccf := ecc
                parsed := true, done := true, err := false, errcode := 0, pending := none } ∧
              t.buf.holds s.dst.base (ctrXor Config.blockCipher s.key iv C) ∧
              s.buf.sameOutside t.buf s.dst.base (P - 16)

/-! ### Frames -/

/-- PARSE writes only the container registers and STATUS, KDF only the key store and STATUS; neither writes BUF
(40_container R112, 41_key_cipher R130). -/
def Obligations.FrameOfParseAndKdf : Prop :=
  (∀ s t : State, exec .parse s = .next t →
    t = { s with
      dataOffset := t.dataOffset, dataSize := t.dataSize, channels := t.channels, sampleCount := t.sampleCount
      parsed := t.parsed, done := t.done, err := t.err, errcode := t.errcode, pending := t.pending } ∧
    ∀ a, t.buf.read a = s.buf.read a) ∧
  ∀ s t : State, exec .kdf s = .next t →
    t = { s with
      key := t.key, keyw := t.keyw, done := t.done, err := t.err, errcode := t.errcode, pending := t.pending
      parsed := t.parsed } ∧
    t.parsed = s.parsed ∧ ∀ a, t.buf.read a = s.buf.read a

/-- The commands with an output area write, when they succeed, the DST_LEN bytes from DST_BASE and no other byte, and when
they fail no byte; beside STATUS they write only the result registers their rules name (41_key_cipher R134, R136;
42_bits_hamming R155, R158; 43_embed_extract R174, R185; 60_exceptions R203). -/
def Obligations.FrameOfOutputCommands : Prop :=
  (∀ (i : Instr) (s t : State),
    (i = .encrypt ∨ i = .decrypt ∨ i = .henc ∨ i = .hdec ∨ i = .lsbrd ∨ i = .extract) → exec i s = .next t →
    ∀ a, (t.err = true ∨ a < s.dst.base ∨ s.dst.base + t.dstLen.toNat ≤ a) → t.buf.read a = s.buf.read a) ∧
  (∀ s t : State, exec .encrypt s = .next t →
    t = { s with
      buf := t.buf, dstLen := t.dstLen, draws := t.draws
      done := t.done, err := t.err, errcode := t.errcode, pending := t.pending }) ∧
  (∀ (i : Instr) (s t : State), (i = .decrypt ∨ i = .lsbrd) → exec i s = .next t →
    t = { s with
      buf := t.buf, dstLen := t.dstLen, done := t.done, err := t.err, errcode := t.errcode, pending := t.pending }) ∧
  (∀ (i : Instr) (s t : State), (i = .henc ∨ i = .hdec) → exec i s = .next t →
    t = { s with
      buf := t.buf, dstLen := t.dstLen, totalBits := t.totalBits
      done := t.done, err := t.err, errcode := t.errcode, pending := t.pending }) ∧
  ∀ s t : State, exec .extract s = .next t →
    t = { s with
      buf := t.buf, dstLen := t.dstLen, payloadLen := t.payloadLen, totalBits := t.totalBits
      dataOffset := t.dataOffset, dataSize := t.dataSize, channels := t.channels, sampleCount := t.sampleCount
      parsed := t.parsed, eccf := t.eccf, done := t.done, err := t.err, errcode := t.errcode, pending := t.pending }

/-- The commands that write the carrier change, when they succeed, bit 0 of the low bytes of the samples they address and
nothing else of BUF, and when they fail no byte; beside STATUS LSBWR writes no register and EMBED only those its rule
names (43_embed_extract R170, R172, R180; 20_memory R65; 60_exceptions R203). -/
def Obligations.FrameOfCarrierCommands : Prop :=
  (∀ s t : State, exec .lsbwr s = .next t →
    t = { s with buf := t.buf, done := t.done, err := t.err, errcode := t.errcode, pending := t.pending } ∧
    ∀ a, (t.err = true ∨ ∀ i, i < s.bitCount.toNat →
        a ≠ lsbAddr s.wav.base s.dataOffset.toNat (s.bitStart.toNat + i)) →
      t.buf.read a = s.buf.read a) ∧
  (∀ s t : State, exec .embed s = .next t →
    t = { s with
      buf := t.buf, draws := t.draws, payloadLen := t.payloadLen, totalBits := t.totalBits
      dataOffset := t.dataOffset, dataSize := t.dataSize, channels := t.channels, sampleCount := t.sampleCount
      parsed := t.parsed, eccf := t.eccf, done := t.done, err := t.err, errcode := t.errcode, pending := t.pending } ∧
    ∀ a, (t.err = true ∨ ∀ i, i < t.totalBits.toNat → a ≠ lsbAddr s.wav.base t.dataOffset.toNat i) →
      t.buf.read a = s.buf.read a) ∧
  ∀ (i : Instr) (s t : State), (i = .lsbwr ∨ i = .embed) → exec i s = .next t →
    ∀ (a : Nat) (x : Byte), s.buf.read a = some x →
      ∃ y, t.buf.read a = some y ∧ ∀ j, 0 < j → j < 8 → y.getLsbD j = x.getLsbD j

/-! ### Bits and Hamming(7,4) -/

/-- `bytesToBits` takes bits most significant first, and `bitsToBytes` packs them so, the unused low bits of the last byte
0 (42_bits_hamming R150, R151). -/
def Obligations.BitsAreTakenMostSignificantFirst : Prop :=
  (∀ b : List Byte, (bytesToBits b).length = 8 * b.length ∧
    ∀ (k m : Nat) (hk : k < b.length), m < 8 → (bytesToBits b)[8 * k + m]? = some (b[k].getLsbD (7 - m))) ∧
  ∀ s : List Bool, (bitsToBytes s).length = (s.length + 7) / 8 ∧
    ∀ (k m : Nat) (hk : k < (bitsToBytes s).length), m < 8 →
      (bitsToBytes s)[k].getLsbD (7 - m) = s.getD (8 * k + m) false

/-- The inverse laws of the bit utilities (42_bits_hamming R152). -/
def Obligations.BitUtilityInverseLaws : Prop :=
  (∀ b : List Byte, bitsToBytes (bytesToBits b) = b) ∧
  ∀ s : List Bool, (bytesToBits (bitsToBytes s)).take s.length = s ∧
    (bytesToBits (bitsToBytes s)).drop s.length = List.replicate (8 * ((s.length + 7) / 8) - s.length) false

/-- Group g of the Hamming code is p1, p2, d1, p3, d2, d3, d4 of the data bits 4g to 4g + 3, absent ones 0, and the code is
7·ceil(N/4) bits long (42_bits_hamming R153, 30_encoding R99). -/
def Obligations.HammingCodeGroupByGroup : Prop :=
  ∀ s : List Bool, (hamEncode s).length = 7 * ((s.length + 3) / 4) ∧
    ∀ g, g < (s.length + 3) / 4 →
      ∀ d1 d2 d3 d4 : Bool, d1 = s.getD (4 * g) false → d2 = s.getD (4 * g + 1) false →
        d3 = s.getD (4 * g + 2) false → d4 = s.getD (4 * g + 3) false →
        ((hamEncode s).drop (7 * g)).take 7 =
          [Bool.xor (Bool.xor d1 d2) d4, Bool.xor (Bool.xor d1 d3) d4, d1, Bool.xor (Bool.xor d2 d3) d4, d2, d3, d4]

/-- The length and inverse laws of the Hamming functions (42_bits_hamming R157). -/
def Obligations.HammingDecodesItsOwnCode : Prop :=
  (∀ s : List Bool, (hamEncode s).length = 7 * ((s.length + 3) / 4)) ∧
  (∀ s : List Bool, hamDecode (hamEncode s) = s ++ List.replicate (4 * ((s.length + 3) / 4) - s.length) false) ∧
  ∀ enc : List Byte, (hamEncode (bytesToBits enc)).length = 14 * enc.length ∧
    hamDecode (hamEncode (bytesToBits enc)) = bytesToBits enc

/-- The correction guarantee of one group (42_bits_hamming R156): no flip gives syndrome 0, one flip gives its position,
and both decode to the data; two or more flips never do, and two flips never give syndrome 0. -/
def Obligations.HammingGroupCorrection : Prop :=
  ∀ (d1 d2 d3 d4 f1 f2 f3 f4 f5 f6 f7 : Bool) (sent received : List Bool) (flips : Nat),
    sent = hamEncode [d1, d2, d3, d4] → received = List.zipWith Bool.xor sent [f1, f2, f3, f4, f5, f6, f7] →
    flips = [f1, f2, f3, f4, f5, f6, f7].count true →
    (flips = 0 → syndrome received = 0 ∧ hamDecode received = [d1, d2, d3, d4]) ∧
    (flips = 1 → [f1, f2, f3, f4, f5, f6, f7][syndrome received - 1]? = some true ∧ 1 ≤ syndrome received ∧
      hamDecode received = [d1, d2, d3, d4]) ∧
    (2 ≤ flips → hamDecode received ≠ [d1, d2, d3, d4]) ∧
    (flips = 2 → syndrome received ≠ 0)

/-- Decoding a code of any length with at most one bit flipped in each group gives what decoding the code itself gives
(42_bits_hamming R156 on every group; 43_embed_extract R191). `p g` is the position, 0 to 6, that may differ in group
g. -/
def Obligations.HammingCorrectsOneFlipPerGroup : Prop :=
  ∀ (s received : List Bool) (p : Nat → Nat), received.length = (hamEncode s).length →
    (∀ i, received[i]? ≠ (hamEncode s)[i]? → i % 7 = p (i / 7)) →
    hamDecode received = s ++ List.replicate (4 * ((s.length + 3) / 4) - s.length) false

/-! ### The stream cipher -/

/-- `ctrXor` byte by byte, for every block cipher: byte i is X[i] XOR byte i mod 16 of the enciphered counter block, whose
big-endian value is the IV's plus i div 16 modulo 2^128 (41_key_cipher R132). -/
def Obligations.KeystreamIsCounterMode : Prop :=
  (∀ (iv : Bytes16) (j : Nat), beNat (counterBlock iv j).toList = (beNat iv.toList + j) % 2 ^ 128) ∧
  ∀ (E : BlockCipher) (K : Bytes32) (iv : Bytes16) (X : List Byte),
    (ctrXor E K iv X).length = X.length ∧
    ∀ (i : Nat) (h : i < X.length),
      (ctrXor E K iv X)[i]? = some (X[i] ^^^ (E K (counterBlock iv (i / 16)))[i % 16]'(Nat.mod_lt i (by decide)))

/-- `ctrXor` is its own inverse for every block cipher, so decrypting an encryption under the same key gives the plaintext,
whatever IV was drawn (41_key_cipher R138). -/
def Obligations.CtrXorIsItsOwnInverse : Prop :=
  ∀ (E : BlockCipher) (K : Bytes32) (iv : Bytes16) (X : List Byte),
    ctrXor E K iv (ctrXor E K iv X) = X ∧ decryptBytes E K (encryptBytes E K iv X) = X

/-- ENCRYPT and then DECRYPT of its output under the same key returns the plaintext, whatever the IV and the block cipher
(41_key_cipher R138, test vector D8). `u` is any state with ENCRYPT's BUF and key whose SRC names the bytes ENCRYPT
wrote. -/
def Obligations.DecryptUndoesEncrypt : Prop :=
  ∀ (E : BlockCipher) (iv : Bytes16) (s t u : State) (P : List Byte),
    finish s (encryptBody E iv s) = .next t → t.err = false →
    s.buf.readBytes s.src.base s.src.len = some P →
    u.buf = t.buf → u.key = s.key → u.keyv = true →
    u.src.base = s.dst.base → u.src.len = t.dstLen.toNat →
    u.regionsOk u.src u.dst = true → P.length ≤ u.dst.len →
    ∃ v, finish u (decryptBody E u) = .next v ∧ v.err = false ∧
      v.dstLen.toNat = P.length ∧ v.buf.readBytes u.dst.base P.length = some P

/-! ### Embedding and extracting -/

/-- The capacity arithmetic, and the boundary: once its earlier checks pass, EMBED raises CapacityError exactly when
totalBits exceeds sampleCount, and then changes no byte (43_embed_extract R177, R181). -/
def Obligations.EmbedCapacityBoundary : Prop :=
  (∀ (ecc : Bool) (enc : List Byte), 8 * (wireBytes ecc enc).length =
    if ecc then 72 + 14 * enc.length + 2 * (enc.length % 4) else 72 + 8 * enc.length) ∧
  ∀ (s t : State) (c : Container) (P : List Byte) (totalBits : Nat), s.keyv = true → s.regionsOk s.wav s.src = true →
    s.parseCarrier = .ok c → s.buf.readBytes s.src.base s.src.len = some P →
    totalBits = (if s.eccLatch then 72 + 14 * (P.length + 16) + 2 * ((P.length + 16) % 4) else 72 + 8 * (P.length + 16)) →
    exec .embed s = .next t →
    ((t.errcode = 2 ↔ c.sampleCount < totalBits) ∧ (t.errcode = 2 → t.buf = s.buf) ∧
      (t.errcode ≠ 2 → t.err = false ∧ t.totalBits.toNat = totalBits))

/-- After a successful EMBED the sample LSBs hold the wire format: sample 8j + m carries bit 7 − m of wire byte j, where the
wire is the magic, the flag as 0 or 1, the payload length as four big-endian bytes, and the body (30_encoding R98). BUF
in canonical form is the model's invariant. -/
def Obligations.EmbedLaysOutTheWireFormat : Prop :=
  ∀ (E : BlockCipher) (iv : Bytes16) (s t : State) (P enc wire : List Byte), s.canonicalBuf →
    embedWith E iv s = .next t → t.err = false → s.buf.readBytes s.src.base s.src.len = some P →
    enc = iv.toList ++ ctrXor E s.key iv P →
    wire = [0x53, 0x54, 0x47, 0x31] ++ [if s.eccLatch then 1 else 0] ++
      [BitVec.ofNat 8 (enc.length / 2 ^ 24), BitVec.ofNat 8 (enc.length / 2 ^ 16), BitVec.ofNat 8 (enc.length / 2 ^ 8),
        BitVec.ofNat 8 enc.length] ++
      (if s.eccLatch then bitsToBytes (hamEncode (bytesToBits enc)) else enc) →
    t.totalBits.toNat = 8 * wire.length ∧
    ∀ (j m : Nat) (h : j < wire.length), m < 8 →
      ∃ x, t.buf.read (t.wav.base + t.dataOffset.toNat + 2 * (8 * j + m)) = some x ∧
        x.getLsbD 0 = wire[j].getLsbD (7 - m)

/-- Round trip (43_embed_extract R190): for every block cipher and every IV, if EMBED succeeds on payload `m` and the host
then changes no byte of the carrier, nor the key, EXTRACT into an output area apart from the carrier and large enough
succeeds and writes exactly `m`. BUF in canonical form is the model's invariant. -/
def Obligations.EmbedExtractRoundTrip : Prop :=
  ∀ (E : BlockCipher) (iv : Bytes16) (s t u : State) (m : List Byte), s.canonicalBuf →
    s.buf.readBytes s.src.base s.src.len = some m →
    embedWith E iv s = .next t → t.err = false →
    u.buf.top = t.buf.top →
    (∀ a, s.wav.base ≤ a → a < s.wav.base + s.wav.len → u.buf.read a = t.buf.read a) →
    u.wav = s.wav → u.key = s.key → u.keyv = true →
    u.inside u.dst = true → overlap u.wav u.dst = false → m.length ≤ u.dst.len →
    ∃ v, finish u (extractBody E u) = .next v ∧ v.err = false ∧
      v.buf.readBytes u.dst.base m.length = some m ∧
      v.dstLen.toNat = m.length ∧ v.payloadLen.toNat = m.length + 16 ∧ v.eccf = s.eccLatch

/-- Error tolerance (43_embed_extract R191): after EMBED with ECC, if of each group of seven body samples at most one has
its LSB changed, and no other byte of the carrier changes, EXTRACT still returns the payload. `p g` is the position in
group g that may have changed. -/
def Obligations.ExtractToleratesOneFlipPerGroup : Prop :=
  ∀ (E : BlockCipher) (iv : Bytes16) (s t u : State) (m : List Byte) (p : Nat → Nat), s.canonicalBuf →
    s.eccLatch = true → s.buf.readBytes s.src.base s.src.len = some m →
    embedWith E iv s = .next t → t.err = false →
    u.buf.top = t.buf.top → (∀ g, p g < 7) →
    (∀ a, s.wav.base ≤ a → a < s.wav.base + s.wav.len →
      (∀ g, g < 2 * (m.length + 16) → a ≠ lsbAddr s.wav.base t.dataOffset.toNat (72 + 7 * g + p g)) →
      u.buf.read a = t.buf.read a) →
    (∀ g, g < 2 * (m.length + 16) → ∃ x y,
      t.buf.read (lsbAddr s.wav.base t.dataOffset.toNat (72 + 7 * g + p g)) = some x ∧
      u.buf.read (lsbAddr s.wav.base t.dataOffset.toNat (72 + 7 * g + p g)) = some y ∧ (y = x ∨ y = x ^^^ 1#8)) →
    u.wav = s.wav → u.key = s.key → u.keyv = true →
    u.inside u.dst = true → overlap u.wav u.dst = false → m.length ≤ u.dst.len →
    ∃ v, finish u (extractBody E u) = .next v ∧ v.err = false ∧ v.buf.readBytes u.dst.base m.length = some m

/-- No payload (43_embed_extract R192): a carrier with fewer than 32 samples, or with one of its first 32 sample LSBs
different from the magic's bit, raises NotFoundError, whatever the key and the output capacity. A carrier whose first 32
LSBs spell the magic never does. -/
def Obligations.ExtractFindsNoPayload : Prop :=
  ∀ (s : State) (c : Container), s.keyv = true → s.regionsOk s.wav s.dst = true → s.parseCarrier = .ok c →
    ((c.sampleCount < 32 ∨
        ((∀ i, i < 32 → (s.buf.read (lsbAddr s.wav.base c.dataOffset i)).isSome) ∧
          ∃ i x, i < 32 ∧ s.buf.read (lsbAddr s.wav.base c.dataOffset i) = some x ∧
            some (x.getLsbD 0) ≠ (bytesToBits [0x53, 0x54, 0x47, 0x31])[i]?)) →
      exec .extract s = .next (s.completeErr .notFoundError)) ∧
    (32 ≤ c.sampleCount →
      (∀ i, i < 32 → ∃ x, s.buf.read (lsbAddr s.wav.base c.dataOffset i) = some x ∧
        some (x.getLsbD 0) = (bytesToBits [0x53, 0x54, 0x47, 0x31])[i]?) →
      ∀ t, exec .extract s = .next t → t.errcode ≠ 3)

/-- The key plays no part in EXTRACT's errors: with another key loaded EXTRACT ends with the same STATUS and the same
result registers, and differs in the output bytes alone (43_embed_extract R186, R187; 41_key_cipher R137). -/
def Obligations.ExtractErrorsIgnoreTheKey : Prop :=
  ∀ (E : BlockCipher) (s t : State) (K : Bytes32), finish s (extractBody E s) = .next t →
    ∃ t', finish { s with key := K } (extractBody E { s with key := K }) = .next t' ∧
      t' = { t with key := K, buf := t'.buf } ∧ (t.err = true → t'.buf = t.buf) ∧
      ∀ a, (a < s.dst.base ∨ s.dst.base + t.dstLen.toNat ≤ a) → t'.buf.read a = t.buf.read a

/-- EMBED and EXTRACT read nothing an earlier command left but the key store: with other values in the result registers
and in every STATUS field but BUSY and KEYV they end with the same error or, on success, in the same state but for OVR and
the one result register EMBED does not write (43_embed_extract R193). -/
def Obligations.EmbedAndExtractAreStateless : Prop :=
  ∀ (i : Instr) (s r t : State), (i = .embed ∨ i = .extract) →
    r = { s with
      dataOffset := r.dataOffset, dataSize := r.dataSize, channels := r.channels, sampleCount := r.sampleCount
      dstLen := r.dstLen, payloadLen := r.payloadLen, totalBits := r.totalBits
      done := r.done, err := r.err, errcode := r.errcode, ovr := r.ovr, parsed := r.parsed, eccf := r.eccf } →
    exec i s = .next t →
    ∃ t', exec i r = .next t' ∧ t'.err = t.err ∧ t'.errcode = t.errcode ∧ t'.buf = t.buf ∧
      (t.err = false →
        t' = { t with dstLen := t'.dstLen, ovr := r.ovr } ∧ (i = .extract → t'.dstLen = t.dstLen))

/-! ### The parser -/

/-- The walk of the chunks ends within (L − 12) div 8 + 1 iterations: a larger bound changes nothing (40_container
R115). -/
def Obligations.ChunkWalkEnds : Prop :=
  ∀ (m : Memory) (wav len fuel : Nat), (len - 12) / 8 + 1 ≤ fuel →
    walkChunks m wav len fuel 12 none = walkChunks m wav len ((len - 12) / 8 + 1) 12 none

/-- A container the parser accepts starts at an even carrier offset past a `fmt ` chunk and lies inside the carrier
(40_container R111, 20_memory R67). -/
def Obligations.ParsedContainerInsideCarrier : Prop :=
  ∀ (m : Memory) (wav len : Nat) (c : Container), parseWav m wav len = .ok c →
    c.dataOffset % 2 = 0 ∧ 44 ≤ c.dataOffset ∧ c.dataOffset + c.dataSize ≤ len ∧
      c.dataOffset + 2 * c.sampleCount ≤ len ∧ c.channelCount < 2 ^ 16

/-! ### Invariants -/

/-- Every step keeps BUF in canonical form: addresses strictly rising and inside BUF (20_memory R60; the form is the
model's, log 7). -/
def Obligations.StepKeepsCanonicalBuf : Prop :=
  ∀ s t : State, s.canonicalBuf → step s = .next t → t.canonicalBuf

/-- Every step keeps ERRCODE 0 when ERR = 0 and one of 1 to 9 when ERR = 1 (10_state R28, 60_exceptions R201). -/
def Obligations.StepKeepsErrorRegisters : Prop :=
  ∀ s t : State, s.errorRegsLegal → step s = .next t → t.errorRegsLegal

/-- Every step keeps the meaning of PARSED: the container registers describe a container inside the carrier the registers
name, inside BUF (10_state R28, R36, R39). -/
def Obligations.StepKeepsParsedCarrier : Prop :=
  ∀ s t : State, s.parsedCarrier → step s = .next t → t.parsedCarrier

/-- Every step keeps DONE, ERR and ERRCODE clear while a command is pending (10_state R27, R44). -/
def Obligations.StepKeepsBusyQuiet : Prop :=
  ∀ s t : State, s.busyQuiet → step s = .next t → t.busyQuiet

/-- Every step keeps the bytes of key words not written since the last clear 0 (10_state R40, R41). -/
def Obligations.StepKeepsUnwrittenKeyZero : Prop :=
  ∀ s t : State, s.unwrittenKeyZero → step s = .next t → t.unwrittenKeyZero

/-- The state after power-on reset meets every invariant (70_reset_and_hazards R230). -/
def Obligations.ResetMeetsTheInvariants : Prop :=
  State.reset.canonicalBuf ∧ State.reset.errorRegsLegal ∧ State.reset.parsedCarrier ∧ State.reset.busyQuiet ∧
    State.reset.unwrittenKeyZero

/-! ### Reset, registers and the host -/

/-- Power-on reset (70_reset_and_hazards R230): ID reads its constant and every other register 0, the key store is clear,
nothing is pending, IRQ is low, and no BUF byte holds a value. -/
def Obligations.PowerOnResetValues : Prop :=
  State.reset.regRead .id = 0x53544731 ∧ (∀ r, r ≠ .id → State.reset.regRead r = 0) ∧
  State.reset.key = Vector.replicate 32 0 ∧ State.reset.keyw = 0 ∧ State.reset.pending = none ∧
  State.reset.eccLatch = false ∧ State.reset.irq = false ∧ ∀ a, State.reset.buf.read a = none

/-- Soft reset (70_reset_and_hazards R232): a CTRL write with bit 31 set, BUSY or not, sets every register, the key store,
pending and ecc_latch to their reset values in that step and keeps BUF; a command pending then never takes its core
step. Nothing is said of the model's own fields (log 24). -/
def Obligations.SoftResetKeepsOnlyBuf : Prop :=
  ∀ (s : State) (v : Word) (rest : List Turn), v.getLsbD 31 = true → s.agenda = hostWr .ctrl v :: rest →
    ∃ t, step s = .next t ∧
      t = { State.reset with buf := s.buf, draws := t.draws, agenda := t.agenda, hostReads := t.hostReads } ∧
      t.irq = false ∧ coreStep t = .next t

/-- Acceptance (10_state R27): a write of any word to CMD while BUSY = 0 sets BUSY, clears DONE, ERR and ERRCODE, and
latches the word and CTRL.ECC; OVR and everything else is unchanged. -/
def Obligations.AcceptanceLatchesTheCommand : Prop :=
  ∀ (s : State) (w : Word) (rest : List Turn), s.busy = false → s.agenda = hostWr .cmd w :: rest →
    ∃ t, step s = .next t ∧ t.busy = true ∧ t = { s with
      agenda := rest, done := false, err := false, errcode := 0, pending := some w, eccLatch := s.ecc }

/-- While BUSY = 1 a write to CMD, an operand register or a key word is ignored and sets OVR, and so is the KEYCLR of a CTRL
write. No other host access sets OVR: one that turns OVR from 0 to 1 was made while BUSY = 1 and is such a write. A soft
reset in the same CTRL write leaves OVR 0 (10_state R30, R25). -/
def Obligations.BusyWritesAreIgnored : Prop :=
  (∀ (s : State) (r : Reg) (v : Word), s.busy = true →
    (r ∈ [.cmd, .wavBase, .wavLen, .srcBase, .srcLen, .dstBase, .dstCap, .bitStart, .bitCount] ∨ ∃ k, r = .key k) →
    hostStep { space := .reg, addr := r.offset, width := 4, op := .write v } s = .next { s with ovr := true }) ∧
  (∀ (s : State) (v : Word), s.busy = true → v.getLsbD 2 = true → v.getLsbD 31 = false →
    hostStep { space := .reg, addr := Reg.ctrl.offset, width := 4, op := .write v } s =
      .next { s with ie := v.getLsbD 0, ecc := v.getLsbD 1, ovr := true }) ∧
  ∀ (a : HostAccess) (s t : State), hostStep a s = .next t → s.ovr = false → t.ovr = true →
    s.busy = true ∧ a.space = .reg ∧ a.width = 4 ∧ ∃ v, a.op = .write v ∧
      ((∃ r ∈ [Reg.cmd, .wavBase, .wavLen, .srcBase, .srcLen, .dstBase, .dstCap, .bitStart, .bitCount],
          a.addr = r.offset) ∨
        (∃ k, a.addr = (Reg.key k).offset) ∨
        (a.addr = Reg.ctrl.offset ∧ v.getLsbD 2 = true ∧ v.getLsbD 31 = false))

/-- A CTRL write (10_state R25): IE and ECC are stored, then KEYCLR acts, or while BUSY sets OVR, then SRST resets
everything but BUF. Of the model's own fields nothing is said after a reset (log 24). -/
def Obligations.CtrlWriteActsInOrder : Prop :=
  ∀ (s : State) (v : Word), ∃ t,
    hostStep { space := .reg, addr := 0x004, width := 4, op := .write v } s = .next t ∧
    t = (
      if v.getLsbD 31 then
        { State.reset with buf := s.buf, draws := t.draws, agenda := t.agenda, hostReads := t.hostReads }
      else if v.getLsbD 2 = true ∧ s.busy = true then
        { s with ie := v.getLsbD 0, ecc := v.getLsbD 1, ovr := true }
      else if v.getLsbD 2 then
        { s with ie := v.getLsbD 0, ecc := v.getLsbD 1, key := Vector.replicate 32 0, keyw := 0 }
      else { s with ie := v.getLsbD 0, ecc := v.getLsbD 1 })

/-- A STATUS write (10_state R29): bit 1 clears DONE, bit 2 clears ERR and ERRCODE, bit 3 clears OVR, every other bit is
ignored, BUSY or not. Reading STATUS changes nothing but what the host has read. -/
def Obligations.StatusWriteOneToClear : Prop :=
  ∀ (s : State) (v : Word),
    hostStep { space := .reg, addr := 0x00C, width := 4, op := .write v } s = .next { s with
      done := if v.getLsbD 1 then false else s.done
      err := if v.getLsbD 2 then false else s.err
      errcode := if v.getLsbD 2 then 0 else s.errcode
      ovr := if v.getLsbD 3 then false else s.ovr } ∧
    hostStep { space := .reg, addr := 0x00C, width := 4, op := .read } s =
      .next { s with hostReads := s.statusWord :: s.hostReads }

/-- The register map, by its offsets (10_state R22): what a host read of each register returns, and that it changes nothing
but what the host has read; what a write to each read-write register changes while BUSY = 0, and that it changes nothing
else; read-only registers and reserved offsets ignore writes, and reserved offsets read 0. The layouts of CTRL and STATUS
as the host reads them (10_state R24, R28). A register access of another width, at an offset that is no multiple of 4
(20_memory R62), or at an offset of 0x100 or more (93 U8, log 12) is HostBadAccess. -/
def Obligations.RegisterMapReadsAndWrites : Prop :=
  (∀ (s : State) (p : Nat × Word), p ∈ [(0x000, 0x53544731#32), (0x004, s.ctrlWord), (0x008, 0), (0x00C, s.statusWord),
      (0x010, s.wavBase), (0x014, s.wavLen), (0x018, s.srcBase), (0x01C, s.srcLen), (0x020, s.dstBase), (0x024, s.dstCap),
      (0x028, s.dstLen), (0x02C, s.bitStart), (0x030, s.bitCount), (0x034, s.dataOffset), (0x038, s.dataSize),
      (0x03C, s.channels), (0x040, s.sampleCount), (0x044, s.payloadLen), (0x048, s.totalBits),
      (0x050, 0), (0x054, 0), (0x058, 0), (0x05C, 0), (0x060, 0), (0x064, 0), (0x068, 0), (0x06C, 0)] →
    hostStep { space := .reg, addr := p.1, width := 4, op := .read } s = .next { s with hostReads := p.2 :: s.hostReads }) ∧
  (∀ (s : State) (v : Word) (p : Nat × State), s.busy = false →
    p ∈ [(0x010, { s with wavBase := v, parsed := false }), (0x014, { s with wavLen := v, parsed := false }),
      (0x018, { s with srcBase := v }), (0x01C, { s with srcLen := v }), (0x020, { s with dstBase := v }),
      (0x024, { s with dstCap := v }), (0x02C, { s with bitStart := v }), (0x030, { s with bitCount := v })] →
    hostStep { space := .reg, addr := p.1, width := 4, op := .write v } s = .next p.2) ∧
  (∀ (s : State) (v : Word), ∀ offset ∈ [0x000, 0x028, 0x034, 0x038, 0x03C, 0x040, 0x044, 0x048],
    hostStep { space := .reg, addr := offset, width := 4, op := .write v } s = .next s) ∧
  (∀ (s : State) (offset : Nat) (v : Word), (offset = 0x04C ∨ 0x070 ≤ offset) → offset % 4 = 0 → offset < 0x100 →
    hostStep { space := .reg, addr := offset, width := 4, op := .write v } s = .next s ∧
    hostStep { space := .reg, addr := offset, width := 4, op := .read } s =
      .next { s with hostReads := 0 :: s.hostReads }) ∧
  (∀ (s : State) (i : Nat), i < 32 →
    s.ctrlWord.getLsbD i = (if i = 0 then s.ie else if i = 1 then s.ecc else false) ∧
    s.statusWord.getLsbD i =
      (if i = 0 then s.busy else if i = 1 then s.done else if i = 2 then s.err else if i = 3 then s.ovr
      else if 8 ≤ i ∧ i ≤ 11 then s.errcode.getLsbD (i - 8)
      else if i = 16 then s.parsed else if i = 17 then s.keyv else if i = 18 then s.eccf else false)) ∧
  ∀ (s : State) (addr width : Nat) (op : HostOp), (width ≠ 4 ∨ addr % 4 ≠ 0 ∨ 0x100 ≤ addr) →
    hostStep { space := .reg, addr := addr, width := width, op := op } s = .fault .hostBadAccess

/-- Key words (10_state R41): a write of `v` to KEYk while BUSY = 0 makes bits 8j+7:8j of `v` key byte 4k + j, sets bit k
of keyw, and changes nothing else; a read of KEYk returns 0. -/
def Obligations.KeyWordWriteSetsFourBytes : Prop :=
  ∀ (s : State) (k : Fin 8) (v : Word),
    (s.busy = false →
      ∃ t, hostStep { space := .reg, addr := 0x050 + 4 * k.val, width := 4, op := .write v } s = .next t ∧
        t = { s with key := t.key, keyw := t.keyw } ∧
        (∀ (i : Nat) (h : i < 32), t.key[i] =
          if i / 4 = k.val then v.extractLsb' (8 * (i % 4)) 8 else s.key[i]) ∧
        ∀ b, b < 8 → t.keyw.getLsbD b = if b = k.val then true else s.keyw.getLsbD b) ∧
    hostStep { space := .reg, addr := 0x050 + 4 * k.val, width := 4, op := .read } s =
      .next { s with hostReads := 0 :: s.hostReads }

/-- Loading a key through KEY0 to KEY7 while BUSY = 0 (10_state R41, R42; 30_encoding R97 `KEYLOAD`): byte i of the 32
bytes becomes key byte i, whatever the key store held, and KEYV becomes 1; nothing else changes. -/
def Obligations.KeyWordsAssembleTheKey : Prop :=
  ∀ (s : State) (bytes : Bytes32) (rest : List Turn), s.busy = false →
    s.agenda = hostKeyload bytes.toList ++ rest →
    ∃ t, Sys2Proof.core.run 8 s = .next t ∧ t.keyv = true ∧
      t = { s with agenda := rest, key := bytes, keyw := 0xFF }

/-- Host access to BUF (20_memory R61, R64, R66; 70_reset_and_hazards R240): malformed accesses are HostBadAccess;
well-formed ones while BUSY are HostBufWhileBusy; otherwise a read returns the little-endian value of written bytes and is
UnwrittenRead on an unwritten one, and a write stores the value's low bytes and changes nothing else. Which fault comes
first where two apply is the model's choice (log 10). That a narrow write stores the low bytes of the 32-bit value and a
narrow read is zero above them is the model's inference from R64 (log 9). -/
def Obligations.HostBufAccess : Prop :=
  ∀ (s : State) (addr width : Nat),
    (∀ op, ¬ s.bufAccessWellFormed addr width →
      hostStep { space := .buf, addr := addr, width := width, op := op } s = .fault .hostBadAccess) ∧
    (∀ op, s.bufAccessWellFormed addr width → s.busy = true →
      hostStep { space := .buf, addr := addr, width := width, op := op } s = .fault .hostBufWhileBusy) ∧
    (s.bufAccessWellFormed addr width → s.busy = false → (∃ i, i < width ∧ s.buf.read (addr + i) = none) →
      hostStep { space := .buf, addr := addr, width := width, op := .read } s = .fault .unwrittenRead) ∧
    (∀ bs : List Byte, s.bufAccessWellFormed addr width → s.busy = false → bs.length = width → s.buf.holds addr bs →
      ∃ w : Word, hostStep { space := .buf, addr := addr, width := width, op := .read } s =
          .next { s with hostReads := w :: s.hostReads } ∧
        (∀ i (h : i < bs.length), w.extractLsb' (8 * i) 8 = bs[i]) ∧ w.toNat < 2 ^ (8 * width)) ∧
    (∀ v : Word, s.bufAccessWellFormed addr width → s.busy = false →
      ∃ t, hostStep { space := .buf, addr := addr, width := width, op := .write v } s = .next t ∧
        t = { s with buf := t.buf } ∧
        (∀ i, i < width → t.buf.read (addr + i) = some (v.extractLsb' (8 * i) 8)) ∧
        s.buf.sameOutside t.buf addr width)

/-- No host access but a soft reset changes a pending command or what it reads: unless the access is a CTRL write with bit
31 set, the command stays pending, and its operand registers, the key store, the latched ECC, the container and result
registers and BUF stay as they are (00_scope R13, 10_state R30, 70_reset_and_hazards R233, R241). -/
def Obligations.HostCannotChangePendingOperands : Prop :=
  ∀ (a : HostAccess) (s t : State), s.busy = true → hostStep a s = .next t →
    ¬ (a.space = .reg ∧ a.addr = 0x004 ∧ ∃ v, a.op = .write v ∧ v.getLsbD 31 = true) →
    t.busy = true ∧ t.pending = s.pending ∧
    t = { s with ie := t.ie, ecc := t.ecc, done := t.done, err := t.err, errcode := t.errcode, ovr := t.ovr,
                 hostReads := t.hostReads }

/-- Nothing a host access returns or does depends on the key bytes: with another key in the key store the access has the
same outcome, and the states differ in the key alone (10_state R41, 70_reset_and_hazards R236). -/
def Obligations.HostReadsNeverRevealTheKey : Prop :=
  ∀ (a : HostAccess) (s : State) (K : Bytes32),
    (∀ f, hostStep a s = .fault f → hostStep a { s with key := K } = .fault f) ∧
    ∀ t, hostStep a s = .next t → ∃ t', hostStep a { s with key := K } = .next t' ∧ t = { t' with key := t.key }

/-- IRQ = CTRL.IE AND STATUS.DONE (60_exceptions R210): after any completion it equals IE, and acceptance, a STATUS write
that clears DONE, and a CTRL write with IE = 0 drop it; reset leaves it low. A STATUS write before the core's turn does
not clear the DONE that turn sets (R211). -/
def Obligations.InterruptIsALevel : Prop :=
  (∀ s : State, s.irq = (s.ctrlWord.getLsbD 0 && s.statusWord.getLsbD 1)) ∧ State.reset.irq = false ∧
  (∀ (i : Instr) (s t : State), exec i s = .next t → t.irq = s.ie) ∧
  (∀ (s : State) (w : Word), (s.accept w).irq = false) ∧
  (∀ (s : State) (v : Word), v.getLsbD 1 = true → (s.regWrite .status v).irq = false) ∧
  (∀ (s : State) (v : Word), v.getLsbD 0 = false → (s.regWrite .ctrl v).irq = false) ∧
  (∀ (s : State) (v : Word), v.getLsbD 0 = true → v.getLsbD 31 = false → (s.regWrite .ctrl v).irq = s.done) ∧
  ∀ (i : Instr) (s t : State) (v : Word), exec i (s.regWrite .status v) = .next t → t.done = true
end

