-- ==== Sys2Proof/Laws/Bits.lean ====
section
/-! SUPPORT. Lengths of the byte and bit sequences the commands build (spec 42_bits_hamming, 41_key_cipher R132, 43
R175), and what the byte-order helpers and the one-byte bit functions give. -/

namespace Sys2Proof.Machine

@[simp] theorem length_byteBits (b : Byte) : (byteBits b).length = 8 := rfl

@[simp] theorem length_bytesToBits (bs : List Byte) : (bytesToBits bs).length = 8 * bs.length := by
  induction bs with
  | nil => rfl
  | cons b bs ih => simp [bytesToBits, ih]; omega

@[simp] theorem length_packBytes (n : Nat) (s : List Bool) : (packBytes n s).length = n := by
  induction n generalizing s with
  | zero => rfl
  | succ n ih => simp [packBytes, ih]

@[simp] theorem length_bitsToBytes (s : List Bool) : (bitsToBytes s).length = ceilDiv s.length 8 := length_packBytes _ _

@[simp] theorem length_hamGroup (a b c d : Bool) : (hamGroup a b c d).length = 7 := rfl

@[simp] theorem length_encodeGroups (n : Nat) (s : List Bool) : (encodeGroups n s).length = 7 * n := by
  induction n generalizing s with
  | zero => rfl
  | succ n ih => simp [encodeGroups, ih]; omega

@[simp] theorem length_decodeGroup (c : List Bool) : (decodeGroup c).length = 4 := rfl

@[simp] theorem length_decodeGroups (n : Nat) (s : List Bool) : (decodeGroups n s).length = 4 * n := by
  induction n generalizing s with
  | zero => rfl
  | succ n ih => simp [decodeGroups, ih]; omega

@[simp] theorem length_leBytes (n v : Nat) : (leBytes n v).length = n := by
  induction n generalizing v with
  | zero => rfl
  | succ n ih => simp [leBytes, ih]

@[simp] theorem length_beBytes (n v : Nat) : (beBytes n v).length = n := by simp [beBytes]

@[simp] theorem length_ctrXorFrom (E : BlockCipher) (K : Bytes32) (iv : Bytes16) (i : Nat) (X : List Byte) :
    (ctrXorFrom E K iv i X).length = X.length := by
  induction X generalizing i with
  | nil => rfl
  | cons x xs ih => simp [ctrXorFrom, ih]

@[simp] theorem length_ctrXor (E : BlockCipher) (K : Bytes32) (iv : Bytes16) (X : List Byte) :
    (ctrXor E K iv X).length = X.length := length_ctrXorFrom E K iv 0 X

@[simp] theorem length_encryptBytes (E : BlockCipher) (K : Bytes32) (iv : Bytes16) (P : List Byte) :
    (encryptBytes E K iv P).length = P.length + 16 := by simp [encryptBytes]; omega

@[simp] theorem length_decryptBytes (E : BlockCipher) (K : Bytes32) (C : List Byte) :
    (decryptBytes E K C).length = C.length - 16 := by simp [decryptBytes]

@[simp] theorem length_header (ecc : Bool) (P : Nat) : (header ecc P).length = 9 := by simp [header, magicTag]

/-! ### Byte order -/

theorem leNat_leBytes (n v : Nat) : leNat (leBytes n v) = v % 256 ^ n := by
  induction n generalizing v with
  | zero => simp [leBytes, leNat]; omega
  | succ n ih =>
    simp only [leBytes, leNat, ih, BitVec.toNat_ofNat]
    rw [show 256 ^ (n + 1) = 256 * 256 ^ n from by rw [Nat.pow_succ, Nat.mul_comm], Nat.mod_mul]

theorem beNat_beBytes (n v : Nat) : beNat (beBytes n v) = v % 256 ^ n := by
  simp [beNat, beBytes, leNat_leBytes]

theorem leNat_lt (bs : List Byte) : leNat bs < 256 ^ bs.length := by
  induction bs with
  | nil => simp [leNat]
  | cons b bs ih =>
    have := b.isLt
    have h : leNat bs + 1 ≤ 256 ^ bs.length := ih
    simp only [leNat, List.length_cons, Nat.pow_succ]
    omega

/-- An IV or block, taken from its own bytes followed by anything, is itself. -/
theorem toBytes16_toList (iv : Bytes16) (C : List Byte) : toBytes16 (iv.toList ++ C) = iv := by
  apply Vector.ext
  intro i hi
  simp [toBytes16, List.getElem?_append]

theorem toList_toBytes16 (bs : List Byte) (h : bs.length = 16) : (toBytes16 bs).toList = bs := by
  apply List.ext_getElem
  · simp [h]
  · intro i h1 h2
    simp [toBytes16, List.getElem?_eq_getElem h2]

/-! ### One byte of bits -/

theorem byteBits_getElem? (b : Byte) (m : Nat) (h : m < 8) : (byteBits b)[m]? = some (b.getLsbD (7 - m)) := by
  match m, h with
  | 0, _ | 1, _ | 2, _ | 3, _ | 4, _ | 5, _ | 6, _ | 7, _ => rfl

theorem bytesToBits_append (a b : List Byte) : bytesToBits (a ++ b) = bytesToBits a ++ bytesToBits b := by
  induction a with
  | nil => rfl
  | cons x xs ih => simp [bytesToBits, ih]

end Sys2Proof.Machine
end

