-- ==== Sys2Proof/Laws/Memory.lean ====
section
/-! SUPPORT. Laws of BUF and the key store: reading after writing, what a write leaves alone, the canonical form every
operation keeps, and sequences of bytes read and written. -/

namespace Sys2Proof.Machine

/-! ### Cell lists -/

theorem cellsRead_cellsWrite (cs : List Host.Cell) (a x : Nat) (v : Byte) :
    cellsRead (cellsWrite cs a v) x = if x = a then some v else cellsRead cs x := by
  induction cs with
  | nil => simp [cellsWrite, cellsRead]
  | cons c cs ih =>
    obtain ⟨k, w⟩ := c
    simp only [cellsWrite]
    split
    · simp [cellsRead]
    · split
      · next h => subst h; by_cases hx : x = a <;> simp [cellsRead, hx]
      · next h1 h2 =>
        by_cases hx : x = k
        · have : x ≠ a := by omega
          simp [cellsRead, hx]; omega
        · simp [cellsRead, hx, ih]

theorem cellsWf_cellsWrite (hi : Nat) (cs : List Host.Cell) (lo a : Nat) (v : Byte)
    (h : cellsWf hi lo cs = true) (hlo : lo ≤ a) (hhi : a < hi) : cellsWf hi lo (cellsWrite cs a v) = true := by
  induction cs generalizing lo with
  | nil => simp [cellsWrite, cellsWf, hlo, hhi]
  | cons c cs ih =>
    obtain ⟨k, w⟩ := c
    simp only [cellsWf, Bool.and_eq_true, decide_eq_true_eq] at h
    simp only [cellsWrite]
    split
    · simp only [cellsWf, Bool.and_eq_true, decide_eq_true_eq]
      refine ⟨⟨hlo, hhi⟩, ⟨by omega, h.1.2⟩, h.2⟩
    · split
      · next e => subst e; simp only [cellsWf, Bool.and_eq_true, decide_eq_true_eq]; exact ⟨⟨hlo, hhi⟩, h.2⟩
      · simp only [cellsWf, Bool.and_eq_true, decide_eq_true_eq]
        exact ⟨h.1, ih (k + 1) h.2 (by omega)⟩

theorem cellsRead_lt_of_wf (hi : Nat) (cs : List Host.Cell) (lo a : Nat) (v : Byte)
    (h : cellsWf hi lo cs = true) (hr : cellsRead cs a = some v) : a < hi := by
  induction cs generalizing lo with
  | nil => simp [cellsRead] at hr
  | cons c cs ih =>
    obtain ⟨k, w⟩ := c
    simp only [cellsWf, Bool.and_eq_true, decide_eq_true_eq] at h
    simp only [cellsRead] at hr
    split at hr
    · omega
    · exact ih (k + 1) h.2 hr

/-! ### One byte -/

@[simp] theorem Memory.write_bytes (m : Memory) (a : Nat) (v : Byte) : (m.write a v).bytes = m.bytes := by
  unfold Memory.write; split <;> rfl

@[simp] theorem Memory.write_top (m : Memory) (a : Nat) (v : Byte) : (m.write a v).top = m.top := by
  unfold Memory.write; split <;> rfl

/-- A read after a write: the byte written, and every other byte as before (20_memory R60). -/
theorem Memory.read_write (m : Memory) (a x : Nat) (v : Byte) (ha : a < m.bytes) :
    (m.write a v).read x = if x = a then some v else m.read x := by
  simp [Memory.write, Memory.read, ha, cellsRead_cellsWrite]

theorem Memory.read_write_ne (m : Memory) (a x : Nat) (v : Byte) (h : x ≠ a) : (m.write a v).read x = m.read x := by
  unfold Memory.write
  split
  · simp [Memory.read, cellsRead_cellsWrite, h]
  · rfl

/-- Every operation on BUF keeps the canonical form. -/
theorem Memory.write_wf (m : Memory) (a : Nat) (v : Byte) (h : m.wf = true) : (m.write a v).wf = true := by
  unfold Memory.write
  split
  · next ha => exact cellsWf_cellsWrite _ _ _ _ _ h (Nat.zero_le a) ha
  · exact h

/-- A byte that holds a value lies inside BUF. -/
theorem Memory.lt_bytes_of_read (m : Memory) (a : Nat) (v : Byte) (h : m.wf = true) (hr : m.read a = some v) :
    a < m.bytes := cellsRead_lt_of_wf _ _ _ _ _ h hr

/-! ### Byte sequences -/

@[simp] theorem Memory.writeBytes_bytes (m : Memory) (a : Nat) (bs : List Byte) :
    (m.writeBytes a bs).bytes = m.bytes := by
  induction bs generalizing m a with
  | nil => rfl
  | cons b bs ih => simp [Memory.writeBytes, ih]

@[simp] theorem Memory.writeBytes_top (m : Memory) (a : Nat) (bs : List Byte) : (m.writeBytes a bs).top = m.top := by
  induction bs generalizing m a with
  | nil => rfl
  | cons b bs ih => simp [Memory.writeBytes, ih]

theorem Memory.writeBytes_wf (m : Memory) (a : Nat) (bs : List Byte) (h : m.wf = true) :
    (m.writeBytes a bs).wf = true := by
  induction bs generalizing m a with
  | nil => exact h
  | cons b bs ih => exact ih _ _ (m.write_wf a b h)

/-- What a sequence of bytes written leaves alone (20_memory R65: exactly the bytes written change). -/
theorem Memory.read_writeBytes_outside (m : Memory) (a x : Nat) (bs : List Byte)
    (h : x < a ∨ a + bs.length ≤ x) : (m.writeBytes a bs).read x = m.read x := by
  induction bs generalizing m a with
  | nil => rfl
  | cons b bs ih =>
    simp only [List.length_cons] at h
    rw [Memory.writeBytes, ih _ _ (by omega), Memory.read_write_ne _ _ _ _ (by omega)]

/-- A sequence of bytes written inside BUF is there (00_scope R12). -/
theorem Memory.read_writeBytes_inside (m : Memory) (a i : Nat) (bs : List Byte) (h : a + bs.length ≤ m.bytes)
    (hi : i < bs.length) : (m.writeBytes a bs).read (a + i) = some bs[i] := by
  induction bs generalizing m a i with
  | nil => simp at hi
  | cons b bs ih =>
    simp only [List.length_cons] at h hi
    cases i with
    | zero =>
      rw [Memory.writeBytes, Memory.read_writeBytes_outside _ _ _ _ (by omega), Nat.add_zero,
        Memory.read_write _ _ _ _ (by omega)]
      simp
    | succ i =>
      have := ih (m.write a b) (a + 1) i (by rw [Memory.write_bytes]; omega) (by omega)
      simpa [Memory.writeBytes, Nat.add_assoc, Nat.add_comm 1 i] using this

/-- MemRead, byte by byte (00_scope R12). -/
theorem Memory.readBytes_eq_some (m : Memory) (a n : Nat) (bs : List Byte) :
    m.readBytes a n = some bs ↔ bs.length = n ∧ ∀ i (h : i < bs.length), m.read (a + i) = some bs[i] := by
  induction n generalizing a bs with
  | zero =>
    simp only [Memory.readBytes, Option.some.injEq]
    constructor
    · rintro rfl; simp
    · rintro ⟨h, -⟩; exact (List.length_eq_zero_iff.mp h).symm
  | succ n ih =>
    simp only [Memory.readBytes]
    constructor
    · intro h
      split at h
      · next b cs hb hcs =>
        obtain rfl := Option.some.inj h
        obtain ⟨hl, hr⟩ := (ih _ _).mp hcs
        refine ⟨by simp [hl], fun i hi => ?_⟩
        cases i with
        | zero => simpa using hb
        | succ i =>
          have := hr i (by simpa using hi)
          simpa [Nat.add_assoc, Nat.add_comm 1 i] using this
      · simp at h
    · rintro ⟨hl, hr⟩
      cases bs with
      | nil => simp at hl
      | cons b cs =>
        have hb : m.read a = some b := hr 0 (by simp)
        have hcs : m.readBytes (a + 1) n = some cs := by
          refine (ih _ _).mpr ⟨by simpa using hl, fun i hi => ?_⟩
          have := hr (i + 1) (by simpa using hi)
          simpa [Nat.add_assoc, Nat.add_comm 1 i] using this
        simp [hb, hcs]

theorem Memory.length_of_readBytes (m : Memory) (a n : Nat) (bs : List Byte) (h : m.readBytes a n = some bs) :
    bs.length = n := ((m.readBytes_eq_some a n bs).mp h).1

/-- Two memories that agree on a region read the same there. -/
theorem Memory.readBytes_congr (m m' : Memory) (a n : Nat) (h : ∀ x, a ≤ x → x < a + n → m'.read x = m.read x) :
    m'.readBytes a n = m.readBytes a n := by
  induction n generalizing a with
  | zero => rfl
  | succ n ih =>
    simp only [Memory.readBytes, h a (Nat.le_refl a) (by omega), ih (a + 1) fun x h1 h2 => h x (by omega) (by omega)]

/-- MemRead after MemWrite of the same region gives the bytes written. -/
theorem Memory.readBytes_writeBytes_same (m : Memory) (a : Nat) (bs : List Byte) (h : a + bs.length ≤ m.bytes) :
    (m.writeBytes a bs).readBytes a bs.length = some bs :=
  (Memory.readBytes_eq_some _ _ _ _).mpr ⟨rfl, fun i hi => Memory.read_writeBytes_inside m a i bs h hi⟩

/-- MemRead of a region apart from the bytes written is as before. -/
theorem Memory.readBytes_writeBytes_apart (m : Memory) (a b n : Nat) (bs : List Byte)
    (h : b + n ≤ a ∨ a + bs.length ≤ b) : (m.writeBytes a bs).readBytes b n = m.readBytes b n :=
  Memory.readBytes_congr _ _ _ _ fun x h1 h2 => Memory.read_writeBytes_outside m a x bs (by omega)

/-- A byte once written stays written. -/
theorem Memory.isSome_read_writeBytes (m : Memory) (a x : Nat) (bs : List Byte) (h : (m.read x).isSome) :
    ((m.writeBytes a bs).read x).isSome := by
  induction bs generalizing m a with
  | nil => exact h
  | cons b bs ih =>
    refine ih _ _ ?_
    unfold Memory.write
    split
    · simp only [Memory.read, cellsRead_cellsWrite]; split
      · rfl
      · exact h
    · exact h

/-! ### The key store -/

/-- BUF after power-on reset is in canonical form, and so it is after every later one. -/
theorem State.powerOn_buf_wf (s : State) : State.reset.buf.wf = true ∧ s.powerOn.buf.wf = true := ⟨rfl, rfl⟩

/-- Every byte of the key after a key word is written (10_state R41). -/
theorem keyWithWord_getElem (key : Bytes32) (k : Fin 8) (v : Word) (i : Nat) (h : i < 32) :
    (keyWithWord key k v)[i] = if i / 4 = k.val then v.extractLsb' (8 * (i % 4)) 8 else key[i] := by
  simp only [keyWithWord, Vector.getElem_set]
  split
  · next h3 => rw [if_pos (by omega), show i % 4 = 3 by omega]
  · split
    · next h2 => rw [if_pos (by omega), show i % 4 = 2 by omega]
    · split
      · next h1 => rw [if_pos (by omega), show i % 4 = 1 by omega]
      · split
        · next h0 => rw [if_pos (by omega), show i % 4 = 0 by omega]
        · rw [if_neg (by omega)]

end Sys2Proof.Machine
end

