-- ==== Sys2Proof/Laws/State.lean ====
section
/-! SUPPORT. One lemma per field of State per shared update, each true by unfolding the update, so that no later proof
unfolds a record update. -/

namespace Sys2Proof.Machine

/-! ### completeOk -/

@[simp] theorem State.completeOk_ie (s : State) : s.completeOk.ie = s.ie := rfl
@[simp] theorem State.completeOk_ecc (s : State) : s.completeOk.ecc = s.ecc := rfl
@[simp] theorem State.completeOk_done (s : State) : s.completeOk.done = true := rfl
@[simp] theorem State.completeOk_err (s : State) : s.completeOk.err = false := rfl
@[simp] theorem State.completeOk_ovr (s : State) : s.completeOk.ovr = s.ovr := rfl
@[simp] theorem State.completeOk_errcode (s : State) : s.completeOk.errcode = 0 := rfl
@[simp] theorem State.completeOk_parsed (s : State) : s.completeOk.parsed = s.parsed := rfl
@[simp] theorem State.completeOk_eccf (s : State) : s.completeOk.eccf = s.eccf := rfl
@[simp] theorem State.completeOk_wavBase (s : State) : s.completeOk.wavBase = s.wavBase := rfl
@[simp] theorem State.completeOk_wavLen (s : State) : s.completeOk.wavLen = s.wavLen := rfl
@[simp] theorem State.completeOk_srcBase (s : State) : s.completeOk.srcBase = s.srcBase := rfl
@[simp] theorem State.completeOk_srcLen (s : State) : s.completeOk.srcLen = s.srcLen := rfl
@[simp] theorem State.completeOk_dstBase (s : State) : s.completeOk.dstBase = s.dstBase := rfl
@[simp] theorem State.completeOk_dstCap (s : State) : s.completeOk.dstCap = s.dstCap := rfl
@[simp] theorem State.completeOk_dstLen (s : State) : s.completeOk.dstLen = s.dstLen := rfl
@[simp] theorem State.completeOk_bitStart (s : State) : s.completeOk.bitStart = s.bitStart := rfl
@[simp] theorem State.completeOk_bitCount (s : State) : s.completeOk.bitCount = s.bitCount := rfl
@[simp] theorem State.completeOk_dataOffset (s : State) : s.completeOk.dataOffset = s.dataOffset := rfl
@[simp] theorem State.completeOk_dataSize (s : State) : s.completeOk.dataSize = s.dataSize := rfl
@[simp] theorem State.completeOk_channels (s : State) : s.completeOk.channels = s.channels := rfl
@[simp] theorem State.completeOk_sampleCount (s : State) : s.completeOk.sampleCount = s.sampleCount := rfl
@[simp] theorem State.completeOk_payloadLen (s : State) : s.completeOk.payloadLen = s.payloadLen := rfl
@[simp] theorem State.completeOk_totalBits (s : State) : s.completeOk.totalBits = s.totalBits := rfl
@[simp] theorem State.completeOk_key (s : State) : s.completeOk.key = s.key := rfl
@[simp] theorem State.completeOk_keyw (s : State) : s.completeOk.keyw = s.keyw := rfl
@[simp] theorem State.completeOk_pending (s : State) : s.completeOk.pending = none := rfl
@[simp] theorem State.completeOk_eccLatch (s : State) : s.completeOk.eccLatch = s.eccLatch := rfl
@[simp] theorem State.completeOk_buf (s : State) : s.completeOk.buf = s.buf := rfl
@[simp] theorem State.completeOk_draws (s : State) : s.completeOk.draws = s.draws := rfl
@[simp] theorem State.completeOk_agenda (s : State) : s.completeOk.agenda = s.agenda := rfl
@[simp] theorem State.completeOk_hostReads (s : State) : s.completeOk.hostReads = s.hostReads := rfl

/-! ### completeErr -/

@[simp] theorem State.completeErr_ie (s : State) (e : CmdError) : (s.completeErr e).ie = s.ie := rfl
@[simp] theorem State.completeErr_ecc (s : State) (e : CmdError) : (s.completeErr e).ecc = s.ecc := rfl
@[simp] theorem State.completeErr_done (s : State) (e : CmdError) : (s.completeErr e).done = true := rfl
@[simp] theorem State.completeErr_err (s : State) (e : CmdError) : (s.completeErr e).err = true := rfl
@[simp] theorem State.completeErr_ovr (s : State) (e : CmdError) : (s.completeErr e).ovr = s.ovr := rfl
@[simp] theorem State.completeErr_errcode (s : State) (e : CmdError) : (s.completeErr e).errcode = e.code := rfl
@[simp] theorem State.completeErr_parsed (s : State) (e : CmdError) : (s.completeErr e).parsed = if e = .formatError then false else s.parsed := rfl
@[simp] theorem State.completeErr_eccf (s : State) (e : CmdError) : (s.completeErr e).eccf = s.eccf := rfl
@[simp] theorem State.completeErr_wavBase (s : State) (e : CmdError) : (s.completeErr e).wavBase = s.wavBase := rfl
@[simp] theorem State.completeErr_wavLen (s : State) (e : CmdError) : (s.completeErr e).wavLen = s.wavLen := rfl
@[simp] theorem State.completeErr_srcBase (s : State) (e : CmdError) : (s.completeErr e).srcBase = s.srcBase := rfl
@[simp] theorem State.completeErr_srcLen (s : State) (e : CmdError) : (s.completeErr e).srcLen = s.srcLen := rfl
@[simp] theorem State.completeErr_dstBase (s : State) (e : CmdError) : (s.completeErr e).dstBase = s.dstBase := rfl
@[simp] theorem State.completeErr_dstCap (s : State) (e : CmdError) : (s.completeErr e).dstCap = s.dstCap := rfl
@[simp] theorem State.completeErr_dstLen (s : State) (e : CmdError) : (s.completeErr e).dstLen = s.dstLen := rfl
@[simp] theorem State.completeErr_bitStart (s : State) (e : CmdError) : (s.completeErr e).bitStart = s.bitStart := rfl
@[simp] theorem State.completeErr_bitCount (s : State) (e : CmdError) : (s.completeErr e).bitCount = s.bitCount := rfl
@[simp] theorem State.completeErr_dataOffset (s : State) (e : CmdError) : (s.completeErr e).dataOffset = s.dataOffset := rfl
@[simp] theorem State.completeErr_dataSize (s : State) (e : CmdError) : (s.completeErr e).dataSize = s.dataSize := rfl
@[simp] theorem State.completeErr_channels (s : State) (e : CmdError) : (s.completeErr e).channels = s.channels := rfl
@[simp] theorem State.completeErr_sampleCount (s : State) (e : CmdError) : (s.completeErr e).sampleCount = s.sampleCount := rfl
@[simp] theorem State.completeErr_payloadLen (s : State) (e : CmdError) : (s.completeErr e).payloadLen = s.payloadLen := rfl
@[simp] theorem State.completeErr_totalBits (s : State) (e : CmdError) : (s.completeErr e).totalBits = s.totalBits := rfl
@[simp] theorem State.completeErr_key (s : State) (e : CmdError) : (s.completeErr e).key = s.key := rfl
@[simp] theorem State.completeErr_keyw (s : State) (e : CmdError) : (s.completeErr e).keyw = s.keyw := rfl
@[simp] theorem State.completeErr_pending (s : State) (e : CmdError) : (s.completeErr e).pending = none := rfl
@[simp] theorem State.completeErr_eccLatch (s : State) (e : CmdError) : (s.completeErr e).eccLatch = s.eccLatch := rfl
@[simp] theorem State.completeErr_buf (s : State) (e : CmdError) : (s.completeErr e).buf = s.buf := rfl
@[simp] theorem State.completeErr_draws (s : State) (e : CmdError) : (s.completeErr e).draws = s.draws := rfl
@[simp] theorem State.completeErr_agenda (s : State) (e : CmdError) : (s.completeErr e).agenda = s.agenda := rfl
@[simp] theorem State.completeErr_hostReads (s : State) (e : CmdError) : (s.completeErr e).hostReads = s.hostReads := rfl

/-! ### accept -/

@[simp] theorem State.accept_ie (s : State) (w : Word) : (s.accept w).ie = s.ie := rfl
@[simp] theorem State.accept_ecc (s : State) (w : Word) : (s.accept w).ecc = s.ecc := rfl
@[simp] theorem State.accept_done (s : State) (w : Word) : (s.accept w).done = false := rfl
@[simp] theorem State.accept_err (s : State) (w : Word) : (s.accept w).err = false := rfl
@[simp] theorem State.accept_ovr (s : State) (w : Word) : (s.accept w).ovr = s.ovr := rfl
@[simp] theorem State.accept_errcode (s : State) (w : Word) : (s.accept w).errcode = 0 := rfl
@[simp] theorem State.accept_parsed (s : State) (w : Word) : (s.accept w).parsed = s.parsed := rfl
@[simp] theorem State.accept_eccf (s : State) (w : Word) : (s.accept w).eccf = s.eccf := rfl
@[simp] theorem State.accept_wavBase (s : State) (w : Word) : (s.accept w).wavBase = s.wavBase := rfl
@[simp] theorem State.accept_wavLen (s : State) (w : Word) : (s.accept w).wavLen = s.wavLen := rfl
@[simp] theorem State.accept_srcBase (s : State) (w : Word) : (s.accept w).srcBase = s.srcBase := rfl
@[simp] theorem State.accept_srcLen (s : State) (w : Word) : (s.accept w).srcLen = s.srcLen := rfl
@[simp] theorem State.accept_dstBase (s : State) (w : Word) : (s.accept w).dstBase = s.dstBase := rfl
@[simp] theorem State.accept_dstCap (s : State) (w : Word) : (s.accept w).dstCap = s.dstCap := rfl
@[simp] theorem State.accept_dstLen (s : State) (w : Word) : (s.accept w).dstLen = s.dstLen := rfl
@[simp] theorem State.accept_bitStart (s : State) (w : Word) : (s.accept w).bitStart = s.bitStart := rfl
@[simp] theorem State.accept_bitCount (s : State) (w : Word) : (s.accept w).bitCount = s.bitCount := rfl
@[simp] theorem State.accept_dataOffset (s : State) (w : Word) : (s.accept w).dataOffset = s.dataOffset := rfl
@[simp] theorem State.accept_dataSize (s : State) (w : Word) : (s.accept w).dataSize = s.dataSize := rfl
@[simp] theorem State.accept_channels (s : State) (w : Word) : (s.accept w).channels = s.channels := rfl
@[simp] theorem State.accept_sampleCount (s : State) (w : Word) : (s.accept w).sampleCount = s.sampleCount := rfl
@[simp] theorem State.accept_payloadLen (s : State) (w : Word) : (s.accept w).payloadLen = s.payloadLen := rfl
@[simp] theorem State.accept_totalBits (s : State) (w : Word) : (s.accept w).totalBits = s.totalBits := rfl
@[simp] theorem State.accept_key (s : State) (w : Word) : (s.accept w).key = s.key := rfl
@[simp] theorem State.accept_keyw (s : State) (w : Word) : (s.accept w).keyw = s.keyw := rfl
@[simp] theorem State.accept_pending (s : State) (w : Word) : (s.accept w).pending = some w := rfl
@[simp] theorem State.accept_eccLatch (s : State) (w : Word) : (s.accept w).eccLatch = s.ecc := rfl
@[simp] theorem State.accept_buf (s : State) (w : Word) : (s.accept w).buf = s.buf := rfl
@[simp] theorem State.accept_draws (s : State) (w : Word) : (s.accept w).draws = s.draws := rfl
@[simp] theorem State.accept_agenda (s : State) (w : Word) : (s.accept w).agenda = s.agenda := rfl
@[simp] theorem State.accept_hostReads (s : State) (w : Word) : (s.accept w).hostReads = s.hostReads := rfl

/-! ### overrun -/

@[simp] theorem State.overrun_ie (s : State) : s.overrun.ie = s.ie := rfl
@[simp] theorem State.overrun_ecc (s : State) : s.overrun.ecc = s.ecc := rfl
@[simp] theorem State.overrun_done (s : State) : s.overrun.done = s.done := rfl
@[simp] theorem State.overrun_err (s : State) : s.overrun.err = s.err := rfl
@[simp] theorem State.overrun_ovr (s : State) : s.overrun.ovr = true := rfl
@[simp] theorem State.overrun_errcode (s : State) : s.overrun.errcode = s.errcode := rfl
@[simp] theorem State.overrun_parsed (s : State) : s.overrun.parsed = s.parsed := rfl
@[simp] theorem State.overrun_eccf (s : State) : s.overrun.eccf = s.eccf := rfl
@[simp] theorem State.overrun_wavBase (s : State) : s.overrun.wavBase = s.wavBase := rfl
@[simp] theorem State.overrun_wavLen (s : State) : s.overrun.wavLen = s.wavLen := rfl
@[simp] theorem State.overrun_srcBase (s : State) : s.overrun.srcBase = s.srcBase := rfl
@[simp] theorem State.overrun_srcLen (s : State) : s.overrun.srcLen = s.srcLen := rfl
@[simp] theorem State.overrun_dstBase (s : State) : s.overrun.dstBase = s.dstBase := rfl
@[simp] theorem State.overrun_dstCap (s : State) : s.overrun.dstCap = s.dstCap := rfl
@[simp] theorem State.overrun_dstLen (s : State) : s.overrun.dstLen = s.dstLen := rfl
@[simp] theorem State.overrun_bitStart (s : State) : s.overrun.bitStart = s.bitStart := rfl
@[simp] theorem State.overrun_bitCount (s : State) : s.overrun.bitCount = s.bitCount := rfl
@[simp] theorem State.overrun_dataOffset (s : State) : s.overrun.dataOffset = s.dataOffset := rfl
@[simp] theorem State.overrun_dataSize (s : State) : s.overrun.dataSize = s.dataSize := rfl
@[simp] theorem State.overrun_channels (s : State) : s.overrun.channels = s.channels := rfl
@[simp] theorem State.overrun_sampleCount (s : State) : s.overrun.sampleCount = s.sampleCount := rfl
@[simp] theorem State.overrun_payloadLen (s : State) : s.overrun.payloadLen = s.payloadLen := rfl
@[simp] theorem State.overrun_totalBits (s : State) : s.overrun.totalBits = s.totalBits := rfl
@[simp] theorem State.overrun_key (s : State) : s.overrun.key = s.key := rfl
@[simp] theorem State.overrun_keyw (s : State) : s.overrun.keyw = s.keyw := rfl
@[simp] theorem State.overrun_pending (s : State) : s.overrun.pending = s.pending := rfl
@[simp] theorem State.overrun_eccLatch (s : State) : s.overrun.eccLatch = s.eccLatch := rfl
@[simp] theorem State.overrun_buf (s : State) : s.overrun.buf = s.buf := rfl
@[simp] theorem State.overrun_draws (s : State) : s.overrun.draws = s.draws := rfl
@[simp] theorem State.overrun_agenda (s : State) : s.overrun.agenda = s.agenda := rfl
@[simp] theorem State.overrun_hostReads (s : State) : s.overrun.hostReads = s.hostReads := rfl

/-! ### keyClear -/

@[simp] theorem State.keyClear_ie (s : State) : s.keyClear.ie = s.ie := rfl
@[simp] theorem State.keyClear_ecc (s : State) : s.keyClear.ecc = s.ecc := rfl
@[simp] theorem State.keyClear_done (s : State) : s.keyClear.done = s.done := rfl
@[simp] theorem State.keyClear_err (s : State) : s.keyClear.err = s.err := rfl
@[simp] theorem State.keyClear_ovr (s : State) : s.keyClear.ovr = s.ovr := rfl
@[simp] theorem State.keyClear_errcode (s : State) : s.keyClear.errcode = s.errcode := rfl
@[simp] theorem State.keyClear_parsed (s : State) : s.keyClear.parsed = s.parsed := rfl
@[simp] theorem State.keyClear_eccf (s : State) : s.keyClear.eccf = s.eccf := rfl
@[simp] theorem State.keyClear_wavBase (s : State) : s.keyClear.wavBase = s.wavBase := rfl
@[simp] theorem State.keyClear_wavLen (s : State) : s.keyClear.wavLen = s.wavLen := rfl
@[simp] theorem State.keyClear_srcBase (s : State) : s.keyClear.srcBase = s.srcBase := rfl
@[simp] theorem State.keyClear_srcLen (s : State) : s.keyClear.srcLen = s.srcLen := rfl
@[simp] theorem State.keyClear_dstBase (s : State) : s.keyClear.dstBase = s.dstBase := rfl
@[simp] theorem State.keyClear_dstCap (s : State) : s.keyClear.dstCap = s.dstCap := rfl
@[simp] theorem State.keyClear_dstLen (s : State) : s.keyClear.dstLen = s.dstLen := rfl
@[simp] theorem State.keyClear_bitStart (s : State) : s.keyClear.bitStart = s.bitStart := rfl
@[simp] theorem State.keyClear_bitCount (s : State) : s.keyClear.bitCount = s.bitCount := rfl
@[simp] theorem State.keyClear_dataOffset (s : State) : s.keyClear.dataOffset = s.dataOffset := rfl
@[simp] theorem State.keyClear_dataSize (s : State) : s.keyClear.dataSize = s.dataSize := rfl
@[simp] theorem State.keyClear_channels (s : State) : s.keyClear.channels = s.channels := rfl
@[simp] theorem State.keyClear_sampleCount (s : State) : s.keyClear.sampleCount = s.sampleCount := rfl
@[simp] theorem State.keyClear_payloadLen (s : State) : s.keyClear.payloadLen = s.payloadLen := rfl
@[simp] theorem State.keyClear_totalBits (s : State) : s.keyClear.totalBits = s.totalBits := rfl
@[simp] theorem State.keyClear_key (s : State) : s.keyClear.key = Vector.replicate 32 0 := rfl
@[simp] theorem State.keyClear_keyw (s : State) : s.keyClear.keyw = 0 := rfl
@[simp] theorem State.keyClear_pending (s : State) : s.keyClear.pending = s.pending := rfl
@[simp] theorem State.keyClear_eccLatch (s : State) : s.keyClear.eccLatch = s.eccLatch := rfl
@[simp] theorem State.keyClear_buf (s : State) : s.keyClear.buf = s.buf := rfl
@[simp] theorem State.keyClear_draws (s : State) : s.keyClear.draws = s.draws := rfl
@[simp] theorem State.keyClear_agenda (s : State) : s.keyClear.agenda = s.agenda := rfl
@[simp] theorem State.keyClear_hostReads (s : State) : s.keyClear.hostReads = s.hostReads := rfl

/-! ### drawn -/

@[simp] theorem State.drawn_ie (s : State) : s.drawn.ie = s.ie := rfl
@[simp] theorem State.drawn_ecc (s : State) : s.drawn.ecc = s.ecc := rfl
@[simp] theorem State.drawn_done (s : State) : s.drawn.done = s.done := rfl
@[simp] theorem State.drawn_err (s : State) : s.drawn.err = s.err := rfl
@[simp] theorem State.drawn_ovr (s : State) : s.drawn.ovr = s.ovr := rfl
@[simp] theorem State.drawn_errcode (s : State) : s.drawn.errcode = s.errcode := rfl
@[simp] theorem State.drawn_parsed (s : State) : s.drawn.parsed = s.parsed := rfl
@[simp] theorem State.drawn_eccf (s : State) : s.drawn.eccf = s.eccf := rfl
@[simp] theorem State.drawn_wavBase (s : State) : s.drawn.wavBase = s.wavBase := rfl
@[simp] theorem State.drawn_wavLen (s : State) : s.drawn.wavLen = s.wavLen := rfl
@[simp] theorem State.drawn_srcBase (s : State) : s.drawn.srcBase = s.srcBase := rfl
@[simp] theorem State.drawn_srcLen (s : State) : s.drawn.srcLen = s.srcLen := rfl
@[simp] theorem State.drawn_dstBase (s : State) : s.drawn.dstBase = s.dstBase := rfl
@[simp] theorem State.drawn_dstCap (s : State) : s.drawn.dstCap = s.dstCap := rfl
@[simp] theorem State.drawn_dstLen (s : State) : s.drawn.dstLen = s.dstLen := rfl
@[simp] theorem State.drawn_bitStart (s : State) : s.drawn.bitStart = s.bitStart := rfl
@[simp] theorem State.drawn_bitCount (s : State) : s.drawn.bitCount = s.bitCount := rfl
@[simp] theorem State.drawn_dataOffset (s : State) : s.drawn.dataOffset = s.dataOffset := rfl
@[simp] theorem State.drawn_dataSize (s : State) : s.drawn.dataSize = s.dataSize := rfl
@[simp] theorem State.drawn_channels (s : State) : s.drawn.channels = s.channels := rfl
@[simp] theorem State.drawn_sampleCount (s : State) : s.drawn.sampleCount = s.sampleCount := rfl
@[simp] theorem State.drawn_payloadLen (s : State) : s.drawn.payloadLen = s.payloadLen := rfl
@[simp] theorem State.drawn_totalBits (s : State) : s.drawn.totalBits = s.totalBits := rfl
@[simp] theorem State.drawn_key (s : State) : s.drawn.key = s.key := rfl
@[simp] theorem State.drawn_keyw (s : State) : s.drawn.keyw = s.keyw := rfl
@[simp] theorem State.drawn_pending (s : State) : s.drawn.pending = s.pending := rfl
@[simp] theorem State.drawn_eccLatch (s : State) : s.drawn.eccLatch = s.eccLatch := rfl
@[simp] theorem State.drawn_buf (s : State) : s.drawn.buf = s.buf := rfl
@[simp] theorem State.drawn_draws (s : State) : s.drawn.draws = s.draws + 1 := rfl
@[simp] theorem State.drawn_agenda (s : State) : s.drawn.agenda = s.agenda := rfl
@[simp] theorem State.drawn_hostReads (s : State) : s.drawn.hostReads = s.hostReads := rfl

/-! ### withAgenda -/

@[simp] theorem State.withAgenda_ie (s : State) (turns : List Turn) : (s.withAgenda turns).ie = s.ie := rfl
@[simp] theorem State.withAgenda_ecc (s : State) (turns : List Turn) : (s.withAgenda turns).ecc = s.ecc := rfl
@[simp] theorem State.withAgenda_done (s : State) (turns : List Turn) : (s.withAgenda turns).done = s.done := rfl
@[simp] theorem State.withAgenda_err (s : State) (turns : List Turn) : (s.withAgenda turns).err = s.err := rfl
@[simp] theorem State.withAgenda_ovr (s : State) (turns : List Turn) : (s.withAgenda turns).ovr = s.ovr := rfl
@[simp] theorem State.withAgenda_errcode (s : State) (turns : List Turn) : (s.withAgenda turns).errcode = s.errcode := rfl
@[simp] theorem State.withAgenda_parsed (s : State) (turns : List Turn) : (s.withAgenda turns).parsed = s.parsed := rfl
@[simp] theorem State.withAgenda_eccf (s : State) (turns : List Turn) : (s.withAgenda turns).eccf = s.eccf := rfl
@[simp] theorem State.withAgenda_wavBase (s : State) (turns : List Turn) : (s.withAgenda turns).wavBase = s.wavBase := rfl
@[simp] theorem State.withAgenda_wavLen (s : State) (turns : List Turn) : (s.withAgenda turns).wavLen = s.wavLen := rfl
@[simp] theorem State.withAgenda_srcBase (s : State) (turns : List Turn) : (s.withAgenda turns).srcBase = s.srcBase := rfl
@[simp] theorem State.withAgenda_srcLen (s : State) (turns : List Turn) : (s.withAgenda turns).srcLen = s.srcLen := rfl
@[simp] theorem State.withAgenda_dstBase (s : State) (turns : List Turn) : (s.withAgenda turns).dstBase = s.dstBase := rfl
@[simp] theorem State.withAgenda_dstCap (s : State) (turns : List Turn) : (s.withAgenda turns).dstCap = s.dstCap := rfl
@[simp] theorem State.withAgenda_dstLen (s : State) (turns : List Turn) : (s.withAgenda turns).dstLen = s.dstLen := rfl
@[simp] theorem State.withAgenda_bitStart (s : State) (turns : List Turn) : (s.withAgenda turns).bitStart = s.bitStart := rfl
@[simp] theorem State.withAgenda_bitCount (s : State) (turns : List Turn) : (s.withAgenda turns).bitCount = s.bitCount := rfl
@[simp] theorem State.withAgenda_dataOffset (s : State) (turns : List Turn) : (s.withAgenda turns).dataOffset = s.dataOffset := rfl
@[simp] theorem State.withAgenda_dataSize (s : State) (turns : List Turn) : (s.withAgenda turns).dataSize = s.dataSize := rfl
@[simp] theorem State.withAgenda_channels (s : State) (turns : List Turn) : (s.withAgenda turns).channels = s.channels := rfl
@[simp] theorem State.withAgenda_sampleCount (s : State) (turns : List Turn) : (s.withAgenda turns).sampleCount = s.sampleCount := rfl
@[simp] theorem State.withAgenda_payloadLen (s : State) (turns : List Turn) : (s.withAgenda turns).payloadLen = s.payloadLen := rfl
@[simp] theorem State.withAgenda_totalBits (s : State) (turns : List Turn) : (s.withAgenda turns).totalBits = s.totalBits := rfl
@[simp] theorem State.withAgenda_key (s : State) (turns : List Turn) : (s.withAgenda turns).key = s.key := rfl
@[simp] theorem State.withAgenda_keyw (s : State) (turns : List Turn) : (s.withAgenda turns).keyw = s.keyw := rfl
@[simp] theorem State.withAgenda_pending (s : State) (turns : List Turn) : (s.withAgenda turns).pending = s.pending := rfl
@[simp] theorem State.withAgenda_eccLatch (s : State) (turns : List Turn) : (s.withAgenda turns).eccLatch = s.eccLatch := rfl
@[simp] theorem State.withAgenda_buf (s : State) (turns : List Turn) : (s.withAgenda turns).buf = s.buf := rfl
@[simp] theorem State.withAgenda_draws (s : State) (turns : List Turn) : (s.withAgenda turns).draws = s.draws := rfl
@[simp] theorem State.withAgenda_agenda (s : State) (turns : List Turn) : (s.withAgenda turns).agenda = turns := rfl
@[simp] theorem State.withAgenda_hostReads (s : State) (turns : List Turn) : (s.withAgenda turns).hostReads = s.hostReads := rfl

/-! ### hostRead -/

@[simp] theorem State.hostRead_ie (s : State) (v : Word) : (s.hostRead v).ie = s.ie := rfl
@[simp] theorem State.hostRead_ecc (s : State) (v : Word) : (s.hostRead v).ecc = s.ecc := rfl
@[simp] theorem State.hostRead_done (s : State) (v : Word) : (s.hostRead v).done = s.done := rfl
@[simp] theorem State.hostRead_err (s : State) (v : Word) : (s.hostRead v).err = s.err := rfl
@[simp] theorem State.hostRead_ovr (s : State) (v : Word) : (s.hostRead v).ovr = s.ovr := rfl
@[simp] theorem State.hostRead_errcode (s : State) (v : Word) : (s.hostRead v).errcode = s.errcode := rfl
@[simp] theorem State.hostRead_parsed (s : State) (v : Word) : (s.hostRead v).parsed = s.parsed := rfl
@[simp] theorem State.hostRead_eccf (s : State) (v : Word) : (s.hostRead v).eccf = s.eccf := rfl
@[simp] theorem State.hostRead_wavBase (s : State) (v : Word) : (s.hostRead v).wavBase = s.wavBase := rfl
@[simp] theorem State.hostRead_wavLen (s : State) (v : Word) : (s.hostRead v).wavLen = s.wavLen := rfl
@[simp] theorem State.hostRead_srcBase (s : State) (v : Word) : (s.hostRead v).srcBase = s.srcBase := rfl
@[simp] theorem State.hostRead_srcLen (s : State) (v : Word) : (s.hostRead v).srcLen = s.srcLen := rfl
@[simp] theorem State.hostRead_dstBase (s : State) (v : Word) : (s.hostRead v).dstBase = s.dstBase := rfl
@[simp] theorem State.hostRead_dstCap (s : State) (v : Word) : (s.hostRead v).dstCap = s.dstCap := rfl
@[simp] theorem State.hostRead_dstLen (s : State) (v : Word) : (s.hostRead v).dstLen = s.dstLen := rfl
@[simp] theorem State.hostRead_bitStart (s : State) (v : Word) : (s.hostRead v).bitStart = s.bitStart := rfl
@[simp] theorem State.hostRead_bitCount (s : State) (v : Word) : (s.hostRead v).bitCount = s.bitCount := rfl
@[simp] theorem State.hostRead_dataOffset (s : State) (v : Word) : (s.hostRead v).dataOffset = s.dataOffset := rfl
@[simp] theorem State.hostRead_dataSize (s : State) (v : Word) : (s.hostRead v).dataSize = s.dataSize := rfl
@[simp] theorem State.hostRead_channels (s : State) (v : Word) : (s.hostRead v).channels = s.channels := rfl
@[simp] theorem State.hostRead_sampleCount (s : State) (v : Word) : (s.hostRead v).sampleCount = s.sampleCount := rfl
@[simp] theorem State.hostRead_payloadLen (s : State) (v : Word) : (s.hostRead v).payloadLen = s.payloadLen := rfl
@[simp] theorem State.hostRead_totalBits (s : State) (v : Word) : (s.hostRead v).totalBits = s.totalBits := rfl
@[simp] theorem State.hostRead_key (s : State) (v : Word) : (s.hostRead v).key = s.key := rfl
@[simp] theorem State.hostRead_keyw (s : State) (v : Word) : (s.hostRead v).keyw = s.keyw := rfl
@[simp] theorem State.hostRead_pending (s : State) (v : Word) : (s.hostRead v).pending = s.pending := rfl
@[simp] theorem State.hostRead_eccLatch (s : State) (v : Word) : (s.hostRead v).eccLatch = s.eccLatch := rfl
@[simp] theorem State.hostRead_buf (s : State) (v : Word) : (s.hostRead v).buf = s.buf := rfl
@[simp] theorem State.hostRead_draws (s : State) (v : Word) : (s.hostRead v).draws = s.draws := rfl
@[simp] theorem State.hostRead_agenda (s : State) (v : Word) : (s.hostRead v).agenda = s.agenda := rfl
@[simp] theorem State.hostRead_hostReads (s : State) (v : Word) : (s.hostRead v).hostReads = v :: s.hostReads := rfl

/-! ### withContainer -/

@[simp] theorem State.withContainer_ie (s : State) (c : Container) : (s.withContainer c).ie = s.ie := rfl
@[simp] theorem State.withContainer_ecc (s : State) (c : Container) : (s.withContainer c).ecc = s.ecc := rfl
@[simp] theorem State.withContainer_done (s : State) (c : Container) : (s.withContainer c).done = s.done := rfl
@[simp] theorem State.withContainer_err (s : State) (c : Container) : (s.withContainer c).err = s.err := rfl
@[simp] theorem State.withContainer_ovr (s : State) (c : Container) : (s.withContainer c).ovr = s.ovr := rfl
@[simp] theorem State.withContainer_errcode (s : State) (c : Container) : (s.withContainer c).errcode = s.errcode := rfl
@[simp] theorem State.withContainer_parsed (s : State) (c : Container) : (s.withContainer c).parsed = true := rfl
@[simp] theorem State.withContainer_eccf (s : State) (c : Container) : (s.withContainer c).eccf = s.eccf := rfl
@[simp] theorem State.withContainer_wavBase (s : State) (c : Container) : (s.withContainer c).wavBase = s.wavBase := rfl
@[simp] theorem State.withContainer_wavLen (s : State) (c : Container) : (s.withContainer c).wavLen = s.wavLen := rfl
@[simp] theorem State.withContainer_srcBase (s : State) (c : Container) : (s.withContainer c).srcBase = s.srcBase := rfl
@[simp] theorem State.withContainer_srcLen (s : State) (c : Container) : (s.withContainer c).srcLen = s.srcLen := rfl
@[simp] theorem State.withContainer_dstBase (s : State) (c : Container) : (s.withContainer c).dstBase = s.dstBase := rfl
@[simp] theorem State.withContainer_dstCap (s : State) (c : Container) : (s.withContainer c).dstCap = s.dstCap := rfl
@[simp] theorem State.withContainer_dstLen (s : State) (c : Container) : (s.withContainer c).dstLen = s.dstLen := rfl
@[simp] theorem State.withContainer_bitStart (s : State) (c : Container) : (s.withContainer c).bitStart = s.bitStart := rfl
@[simp] theorem State.withContainer_bitCount (s : State) (c : Container) : (s.withContainer c).bitCount = s.bitCount := rfl
@[simp] theorem State.withContainer_dataOffset (s : State) (c : Container) : (s.withContainer c).dataOffset = BitVec.ofNat 32 c.dataOffset := rfl
@[simp] theorem State.withContainer_dataSize (s : State) (c : Container) : (s.withContainer c).dataSize = BitVec.ofNat 32 c.dataSize := rfl
@[simp] theorem State.withContainer_channels (s : State) (c : Container) : (s.withContainer c).channels = BitVec.ofNat 32 c.channelCount := rfl
@[simp] theorem State.withContainer_sampleCount (s : State) (c : Container) : (s.withContainer c).sampleCount = BitVec.ofNat 32 c.sampleCount := rfl
@[simp] theorem State.withContainer_payloadLen (s : State) (c : Container) : (s.withContainer c).payloadLen = s.payloadLen := rfl
@[simp] theorem State.withContainer_totalBits (s : State) (c : Container) : (s.withContainer c).totalBits = s.totalBits := rfl
@[simp] theorem State.withContainer_key (s : State) (c : Container) : (s.withContainer c).key = s.key := rfl
@[simp] theorem State.withContainer_keyw (s : State) (c : Container) : (s.withContainer c).keyw = s.keyw := rfl
@[simp] theorem State.withContainer_pending (s : State) (c : Container) : (s.withContainer c).pending = s.pending := rfl
@[simp] theorem State.withContainer_eccLatch (s : State) (c : Container) : (s.withContainer c).eccLatch = s.eccLatch := rfl
@[simp] theorem State.withContainer_buf (s : State) (c : Container) : (s.withContainer c).buf = s.buf := rfl
@[simp] theorem State.withContainer_draws (s : State) (c : Container) : (s.withContainer c).draws = s.draws := rfl
@[simp] theorem State.withContainer_agenda (s : State) (c : Container) : (s.withContainer c).agenda = s.agenda := rfl
@[simp] theorem State.withContainer_hostReads (s : State) (c : Container) : (s.withContainer c).hostReads = s.hostReads := rfl

/-! ### withOutput -/

@[simp] theorem State.withOutput_ie (s : State) (out : List Byte) : (s.withOutput out).ie = s.ie := rfl
@[simp] theorem State.withOutput_ecc (s : State) (out : List Byte) : (s.withOutput out).ecc = s.ecc := rfl
@[simp] theorem State.withOutput_done (s : State) (out : List Byte) : (s.withOutput out).done = s.done := rfl
@[simp] theorem State.withOutput_err (s : State) (out : List Byte) : (s.withOutput out).err = s.err := rfl
@[simp] theorem State.withOutput_ovr (s : State) (out : List Byte) : (s.withOutput out).ovr = s.ovr := rfl
@[simp] theorem State.withOutput_errcode (s : State) (out : List Byte) : (s.withOutput out).errcode = s.errcode := rfl
@[simp] theorem State.withOutput_parsed (s : State) (out : List Byte) : (s.withOutput out).parsed = s.parsed := rfl
@[simp] theorem State.withOutput_eccf (s : State) (out : List Byte) : (s.withOutput out).eccf = s.eccf := rfl
@[simp] theorem State.withOutput_wavBase (s : State) (out : List Byte) : (s.withOutput out).wavBase = s.wavBase := rfl
@[simp] theorem State.withOutput_wavLen (s : State) (out : List Byte) : (s.withOutput out).wavLen = s.wavLen := rfl
@[simp] theorem State.withOutput_srcBase (s : State) (out : List Byte) : (s.withOutput out).srcBase = s.srcBase := rfl
@[simp] theorem State.withOutput_srcLen (s : State) (out : List Byte) : (s.withOutput out).srcLen = s.srcLen := rfl
@[simp] theorem State.withOutput_dstBase (s : State) (out : List Byte) : (s.withOutput out).dstBase = s.dstBase := rfl
@[simp] theorem State.withOutput_dstCap (s : State) (out : List Byte) : (s.withOutput out).dstCap = s.dstCap := rfl
@[simp] theorem State.withOutput_dstLen (s : State) (out : List Byte) : (s.withOutput out).dstLen = BitVec.ofNat 32 out.length := rfl
@[simp] theorem State.withOutput_bitStart (s : State) (out : List Byte) : (s.withOutput out).bitStart = s.bitStart := rfl
@[simp] theorem State.withOutput_bitCount (s : State) (out : List Byte) : (s.withOutput out).bitCount = s.bitCount := rfl
@[simp] theorem State.withOutput_dataOffset (s : State) (out : List Byte) : (s.withOutput out).dataOffset = s.dataOffset := rfl
@[simp] theorem State.withOutput_dataSize (s : State) (out : List Byte) : (s.withOutput out).dataSize = s.dataSize := rfl
@[simp] theorem State.withOutput_channels (s : State) (out : List Byte) : (s.withOutput out).channels = s.channels := rfl
@[simp] theorem State.withOutput_sampleCount (s : State) (out : List Byte) : (s.withOutput out).sampleCount = s.sampleCount := rfl
@[simp] theorem State.withOutput_payloadLen (s : State) (out : List Byte) : (s.withOutput out).payloadLen = s.payloadLen := rfl
@[simp] theorem State.withOutput_totalBits (s : State) (out : List Byte) : (s.withOutput out).totalBits = s.totalBits := rfl
@[simp] theorem State.withOutput_key (s : State) (out : List Byte) : (s.withOutput out).key = s.key := rfl
@[simp] theorem State.withOutput_keyw (s : State) (out : List Byte) : (s.withOutput out).keyw = s.keyw := rfl
@[simp] theorem State.withOutput_pending (s : State) (out : List Byte) : (s.withOutput out).pending = s.pending := rfl
@[simp] theorem State.withOutput_eccLatch (s : State) (out : List Byte) : (s.withOutput out).eccLatch = s.eccLatch := rfl
@[simp] theorem State.withOutput_buf (s : State) (out : List Byte) : (s.withOutput out).buf = s.buf.writeBytes s.dst.base out := rfl
@[simp] theorem State.withOutput_draws (s : State) (out : List Byte) : (s.withOutput out).draws = s.draws := rfl
@[simp] theorem State.withOutput_agenda (s : State) (out : List Byte) : (s.withOutput out).agenda = s.agenda := rfl
@[simp] theorem State.withOutput_hostReads (s : State) (out : List Byte) : (s.withOutput out).hostReads = s.hostReads := rfl

/-! ### statusClear -/

@[simp] theorem State.statusClear_ie (s : State) (v : Word) : (s.statusClear v).ie = s.ie := rfl
@[simp] theorem State.statusClear_ecc (s : State) (v : Word) : (s.statusClear v).ecc = s.ecc := rfl
@[simp] theorem State.statusClear_done (s : State) (v : Word) : (s.statusClear v).done = (s.done && !v.getLsbD 1) := rfl
@[simp] theorem State.statusClear_err (s : State) (v : Word) : (s.statusClear v).err = (s.err && !v.getLsbD 2) := rfl
@[simp] theorem State.statusClear_ovr (s : State) (v : Word) : (s.statusClear v).ovr = (s.ovr && !v.getLsbD 3) := rfl
@[simp] theorem State.statusClear_errcode (s : State) (v : Word) : (s.statusClear v).errcode = if v.getLsbD 2 then 0 else s.errcode := rfl
@[simp] theorem State.statusClear_parsed (s : State) (v : Word) : (s.statusClear v).parsed = s.parsed := rfl
@[simp] theorem State.statusClear_eccf (s : State) (v : Word) : (s.statusClear v).eccf = s.eccf := rfl
@[simp] theorem State.statusClear_wavBase (s : State) (v : Word) : (s.statusClear v).wavBase = s.wavBase := rfl
@[simp] theorem State.statusClear_wavLen (s : State) (v : Word) : (s.statusClear v).wavLen = s.wavLen := rfl
@[simp] theorem State.statusClear_srcBase (s : State) (v : Word) : (s.statusClear v).srcBase = s.srcBase := rfl
@[simp] theorem State.statusClear_srcLen (s : State) (v : Word) : (s.statusClear v).srcLen = s.srcLen := rfl
@[simp] theorem State.statusClear_dstBase (s : State) (v : Word) : (s.statusClear v).dstBase = s.dstBase := rfl
@[simp] theorem State.statusClear_dstCap (s : State) (v : Word) : (s.statusClear v).dstCap = s.dstCap := rfl
@[simp] theorem State.statusClear_dstLen (s : State) (v : Word) : (s.statusClear v).dstLen = s.dstLen := rfl
@[simp] theorem State.statusClear_bitStart (s : State) (v : Word) : (s.statusClear v).bitStart = s.bitStart := rfl
@[simp] theorem State.statusClear_bitCount (s : State) (v : Word) : (s.statusClear v).bitCount = s.bitCount := rfl
@[simp] theorem State.statusClear_dataOffset (s : State) (v : Word) : (s.statusClear v).dataOffset = s.dataOffset := rfl
@[simp] theorem State.statusClear_dataSize (s : State) (v : Word) : (s.statusClear v).dataSize = s.dataSize := rfl
@[simp] theorem State.statusClear_channels (s : State) (v : Word) : (s.statusClear v).channels = s.channels := rfl
@[simp] theorem State.statusClear_sampleCount (s : State) (v : Word) : (s.statusClear v).sampleCount = s.sampleCount := rfl
@[simp] theorem State.statusClear_payloadLen (s : State) (v : Word) : (s.statusClear v).payloadLen = s.payloadLen := rfl
@[simp] theorem State.statusClear_totalBits (s : State) (v : Word) : (s.statusClear v).totalBits = s.totalBits := rfl
@[simp] theorem State.statusClear_key (s : State) (v : Word) : (s.statusClear v).key = s.key := rfl
@[simp] theorem State.statusClear_keyw (s : State) (v : Word) : (s.statusClear v).keyw = s.keyw := rfl
@[simp] theorem State.statusClear_pending (s : State) (v : Word) : (s.statusClear v).pending = s.pending := rfl
@[simp] theorem State.statusClear_eccLatch (s : State) (v : Word) : (s.statusClear v).eccLatch = s.eccLatch := rfl
@[simp] theorem State.statusClear_buf (s : State) (v : Word) : (s.statusClear v).buf = s.buf := rfl
@[simp] theorem State.statusClear_draws (s : State) (v : Word) : (s.statusClear v).draws = s.draws := rfl
@[simp] theorem State.statusClear_agenda (s : State) (v : Word) : (s.statusClear v).agenda = s.agenda := rfl
@[simp] theorem State.statusClear_hostReads (s : State) (v : Word) : (s.statusClear v).hostReads = s.hostReads := rfl

/-! ### keyWrite -/

@[simp] theorem State.keyWrite_ie (s : State) (k : Fin 8) (v : Word) : (s.keyWrite k v).ie = s.ie := rfl
@[simp] theorem State.keyWrite_ecc (s : State) (k : Fin 8) (v : Word) : (s.keyWrite k v).ecc = s.ecc := rfl
@[simp] theorem State.keyWrite_done (s : State) (k : Fin 8) (v : Word) : (s.keyWrite k v).done = s.done := rfl
@[simp] theorem State.keyWrite_err (s : State) (k : Fin 8) (v : Word) : (s.keyWrite k v).err = s.err := rfl
@[simp] theorem State.keyWrite_ovr (s : State) (k : Fin 8) (v : Word) : (s.keyWrite k v).ovr = s.ovr := rfl
@[simp] theorem State.keyWrite_errcode (s : State) (k : Fin 8) (v : Word) : (s.keyWrite k v).errcode = s.errcode := rfl
@[simp] theorem State.keyWrite_parsed (s : State) (k : Fin 8) (v : Word) : (s.keyWrite k v).parsed = s.parsed := rfl
@[simp] theorem State.keyWrite_eccf (s : State) (k : Fin 8) (v : Word) : (s.keyWrite k v).eccf = s.eccf := rfl
@[simp] theorem State.keyWrite_wavBase (s : State) (k : Fin 8) (v : Word) : (s.keyWrite k v).wavBase = s.wavBase := rfl
@[simp] theorem State.keyWrite_wavLen (s : State) (k : Fin 8) (v : Word) : (s.keyWrite k v).wavLen = s.wavLen := rfl
@[simp] theorem State.keyWrite_srcBase (s : State) (k : Fin 8) (v : Word) : (s.keyWrite k v).srcBase = s.srcBase := rfl
@[simp] theorem State.keyWrite_srcLen (s : State) (k : Fin 8) (v : Word) : (s.keyWrite k v).srcLen = s.srcLen := rfl
@[simp] theorem State.keyWrite_dstBase (s : State) (k : Fin 8) (v : Word) : (s.keyWrite k v).dstBase = s.dstBase := rfl
@[simp] theorem State.keyWrite_dstCap (s : State) (k : Fin 8) (v : Word) : (s.keyWrite k v).dstCap = s.dstCap := rfl
@[simp] theorem State.keyWrite_dstLen (s : State) (k : Fin 8) (v : Word) : (s.keyWrite k v).dstLen = s.dstLen := rfl
@[simp] theorem State.keyWrite_bitStart (s : State) (k : Fin 8) (v : Word) : (s.keyWrite k v).bitStart = s.bitStart := rfl
@[simp] theorem State.keyWrite_bitCount (s : State) (k : Fin 8) (v : Word) : (s.keyWrite k v).bitCount = s.bitCount := rfl
@[simp] theorem State.keyWrite_dataOffset (s : State) (k : Fin 8) (v : Word) : (s.keyWrite k v).dataOffset = s.dataOffset := rfl
@[simp] theorem State.keyWrite_dataSize (s : State) (k : Fin 8) (v : Word) : (s.keyWrite k v).dataSize = s.dataSize := rfl
@[simp] theorem State.keyWrite_channels (s : State) (k : Fin 8) (v : Word) : (s.keyWrite k v).channels = s.channels := rfl
@[simp] theorem State.keyWrite_sampleCount (s : State) (k : Fin 8) (v : Word) : (s.keyWrite k v).sampleCount = s.sampleCount := rfl
@[simp] theorem State.keyWrite_payloadLen (s : State) (k : Fin 8) (v : Word) : (s.keyWrite k v).payloadLen = s.payloadLen := rfl
@[simp] theorem State.keyWrite_totalBits (s : State) (k : Fin 8) (v : Word) : (s.keyWrite k v).totalBits = s.totalBits := rfl
@[simp] theorem State.keyWrite_key (s : State) (k : Fin 8) (v : Word) : (s.keyWrite k v).key = keyWithWord s.key k v := rfl
@[simp] theorem State.keyWrite_keyw (s : State) (k : Fin 8) (v : Word) : (s.keyWrite k v).keyw = s.keyw ||| (1#8 <<< k.val) := rfl
@[simp] theorem State.keyWrite_pending (s : State) (k : Fin 8) (v : Word) : (s.keyWrite k v).pending = s.pending := rfl
@[simp] theorem State.keyWrite_eccLatch (s : State) (k : Fin 8) (v : Word) : (s.keyWrite k v).eccLatch = s.eccLatch := rfl
@[simp] theorem State.keyWrite_buf (s : State) (k : Fin 8) (v : Word) : (s.keyWrite k v).buf = s.buf := rfl
@[simp] theorem State.keyWrite_draws (s : State) (k : Fin 8) (v : Word) : (s.keyWrite k v).draws = s.draws := rfl
@[simp] theorem State.keyWrite_agenda (s : State) (k : Fin 8) (v : Word) : (s.keyWrite k v).agenda = s.agenda := rfl
@[simp] theorem State.keyWrite_hostReads (s : State) (k : Fin 8) (v : Word) : (s.keyWrite k v).hostReads = s.hostReads := rfl

/-! ### softReset -/

@[simp] theorem State.softReset_ie (s : State) : s.softReset.ie = State.reset.ie := rfl
@[simp] theorem State.softReset_ecc (s : State) : s.softReset.ecc = State.reset.ecc := rfl
@[simp] theorem State.softReset_done (s : State) : s.softReset.done = State.reset.done := rfl
@[simp] theorem State.softReset_err (s : State) : s.softReset.err = State.reset.err := rfl
@[simp] theorem State.softReset_ovr (s : State) : s.softReset.ovr = State.reset.ovr := rfl
@[simp] theorem State.softReset_errcode (s : State) : s.softReset.errcode = State.reset.errcode := rfl
@[simp] theorem State.softReset_parsed (s : State) : s.softReset.parsed = State.reset.parsed := rfl
@[simp] theorem State.softReset_eccf (s : State) : s.softReset.eccf = State.reset.eccf := rfl
@[simp] theorem State.softReset_wavBase (s : State) : s.softReset.wavBase = State.reset.wavBase := rfl
@[simp] theorem State.softReset_wavLen (s : State) : s.softReset.wavLen = State.reset.wavLen := rfl
@[simp] theorem State.softReset_srcBase (s : State) : s.softReset.srcBase = State.reset.srcBase := rfl
@[simp] theorem State.softReset_srcLen (s : State) : s.softReset.srcLen = State.reset.srcLen := rfl
@[simp] theorem State.softReset_dstBase (s : State) : s.softReset.dstBase = State.reset.dstBase := rfl
@[simp] theorem State.softReset_dstCap (s : State) : s.softReset.dstCap = State.reset.dstCap := rfl
@[simp] theorem State.softReset_dstLen (s : State) : s.softReset.dstLen = State.reset.dstLen := rfl
@[simp] theorem State.softReset_bitStart (s : State) : s.softReset.bitStart = State.reset.bitStart := rfl
@[simp] theorem State.softReset_bitCount (s : State) : s.softReset.bitCount = State.reset.bitCount := rfl
@[simp] theorem State.softReset_dataOffset (s : State) : s.softReset.dataOffset = State.reset.dataOffset := rfl
@[simp] theorem State.softReset_dataSize (s : State) : s.softReset.dataSize = State.reset.dataSize := rfl
@[simp] theorem State.softReset_channels (s : State) : s.softReset.channels = State.reset.channels := rfl
@[simp] theorem State.softReset_sampleCount (s : State) : s.softReset.sampleCount = State.reset.sampleCount := rfl
@[simp] theorem State.softReset_payloadLen (s : State) : s.softReset.payloadLen = State.reset.payloadLen := rfl
@[simp] theorem State.softReset_totalBits (s : State) : s.softReset.totalBits = State.reset.totalBits := rfl
@[simp] theorem State.softReset_key (s : State) : s.softReset.key = State.reset.key := rfl
@[simp] theorem State.softReset_keyw (s : State) : s.softReset.keyw = State.reset.keyw := rfl
@[simp] theorem State.softReset_pending (s : State) : s.softReset.pending = State.reset.pending := rfl
@[simp] theorem State.softReset_eccLatch (s : State) : s.softReset.eccLatch = State.reset.eccLatch := rfl
@[simp] theorem State.softReset_buf (s : State) : s.softReset.buf = s.buf := rfl
@[simp] theorem State.softReset_draws (s : State) : s.softReset.draws = s.draws := rfl
@[simp] theorem State.softReset_agenda (s : State) : s.softReset.agenda = s.agenda := rfl
@[simp] theorem State.softReset_hostReads (s : State) : s.softReset.hostReads = s.hostReads := rfl

end Sys2Proof.Machine
end

