-- ==== Sys2Proof/Laws/Ops.lean ====
section
/-! SUPPORT. What the checks, the loads and the completion of a command can do, said once: later proofs cite these and
unfold none of them. -/

namespace Sys2Proof.Machine

/-! ### Sequencing -/

theorem bind_ok {α β : Type} (r : Except Stop α) (f : α → Except Stop β) (b : β) :
    (r >>= f) = .ok b ↔ ∃ a, r = .ok a ∧ f a = .ok b := by
  cases r <;> simp [bind, Except.bind]

theorem bind_error {α β : Type} (r : Except Stop α) (f : α → Except Stop β) (st : Stop) :
    (r >>= f) = .error st ↔ r = .error st ∨ ∃ a, r = .ok a ∧ f a = .error st := by
  cases r <;> simp [bind, Except.bind]

@[simp] theorem ok_bind {α β : Type} (a : α) (f : α → Except Stop β) : ((Except.ok a : Except Stop α) >>= f) = f a := rfl

@[simp] theorem error_bind {α β : Type} (st : Stop) (f : α → Except Stop β) :
    ((Except.error st : Except Stop α) >>= f) = .error st := rfl

@[simp] theorem pure_eq_ok {α : Type} (a : α) : (pure a : Except Stop α) = .ok a := rfl

/-! ### Checks and loads -/

@[simp] theorem require_ok (c : Bool) (e : CmdError) (u : Unit) : require c e = .ok u ↔ c = true := by
  unfold require; split <;> simp_all

@[simp] theorem require_error (c : Bool) (e : CmdError) (st : Stop) :
    require c e = .error st ↔ c = false ∧ st = .raise e := by
  unfold require; split <;> simp_all [eq_comm]

@[simp] theorem require_true (e : CmdError) : require true e = .ok () := rfl

@[simp] theorem require_false (e : CmdError) : require false e = .error (.raise e) := rfl

@[simp] theorem Memory.load_ok (m : Memory) (a n : Nat) (bs : List Byte) :
    m.load a n = .ok bs ↔ m.readBytes a n = some bs := by
  unfold Memory.load; split <;> simp_all

@[simp] theorem Memory.load_error (m : Memory) (a n : Nat) (st : Stop) :
    m.load a n = .error st ↔ m.readBytes a n = none ∧ st = .fault .unwrittenRead := by
  cases h : m.readBytes a n <;> simp [Memory.load, h, eq_comm (a := st)]

@[simp] theorem Memory.loadByte_ok (m : Memory) (a : Nat) (b : Byte) : m.loadByte a = .ok b ↔ m.read a = some b := by
  unfold Memory.loadByte; split <;> simp_all

@[simp] theorem Memory.loadByte_error (m : Memory) (a : Nat) (st : Stop) :
    m.loadByte a = .error st ↔ m.read a = none ∧ st = .fault .unwrittenRead := by
  cases h : m.read a <;> simp [Memory.loadByte, h, eq_comm (a := st)]

theorem State.sourceBits_ok (s : State) (n : Nat) (bits : List Bool) :
    s.sourceBits n = .ok bits ↔
      ∃ bytes, s.buf.readBytes s.src.base (ceilDiv n 8) = some bytes ∧ bits = (bytesToBits bytes).take n := by
  simp [State.sourceBits, bind_ok, eq_comm (a := bits)]

/-! ### Completion -/

/-- Everything `finish` can do (60_exceptions R202, R203): the command's own writes and a successful completion, or
nothing but a completion with an error, or a fault. -/
theorem finish_next (s t : State) (r : Except Stop State) :
    finish s r = .next t ↔ (∃ u, r = .ok u ∧ t = u.completeOk) ∨ (∃ e, r = .error (.raise e) ∧ t = s.completeErr e) := by
  unfold finish
  split <;> simp [eq_comm]

theorem finish_fault (s : State) (r : Except Stop State) (f : Fault) :
    finish s r = .fault f ↔ r = .error (.fault f) := by
  unfold finish
  split <;> simp [eq_comm]

theorem finish_not_refused (s : State) (r : Except Stop State) (x : Refusal) : finish s r ≠ .refused x := by
  unfold finish
  split <;> simp

@[simp] theorem finish_ok (s t : State) : finish s (.ok t) = .next t.completeOk := rfl

@[simp] theorem finish_raise (s : State) (e : CmdError) : finish s (.error (.raise e)) = .next (s.completeErr e) := rfl

@[simp] theorem finish_stop (s : State) (f : Fault) : finish s (.error (.fault f)) = .fault f := rfl

/-- Everything `embedWith` can do (43_embed_extract R180): as `finish`, with the IV drawn when the parse succeeded. -/
theorem embedWith_next (E : BlockCipher) (iv : Bytes16) (s t : State) :
    embedWith E iv s = .next t ↔
      (∃ e, embedCarrier s = .error (.raise e) ∧ t = s.completeErr e) ∨
      (∃ c, embedCarrier s = .ok c ∧
        ((∃ u, embedPayload E iv c s.drawn = .ok u ∧ t = u.completeOk) ∨
         (∃ e, embedPayload E iv c s.drawn = .error (.raise e) ∧ t = s.drawn.completeErr e))) := by
  unfold embedWith
  split
  · next st h => simp [h, finish_next]
  · next c h => simp [h, finish_next]

/-! ### What each command's own writes are, when it raises nothing -/

theorem parseBody_ok (s t : State) :
    parseBody s = .ok t ↔ s.inside s.wav = true ∧ ∃ c, s.parseCarrier = .ok c ∧ t = s.withContainer c := by
  simp [parseBody, bind_ok, eq_comm (a := t)]

theorem kdfBody_ok (F : List Byte → Bytes32) (s t : State) :
    kdfBody F s = .ok t ↔ s.inside s.src = true ∧
      ∃ pw, s.buf.readBytes s.src.base s.src.len = some pw ∧ t = { s with key := F pw, keyw := 0xFF } := by
  simp [kdfBody, bind_ok, eq_comm (a := t)]

theorem encryptBody_ok (E : BlockCipher) (iv : Bytes16) (s t : State) :
    encryptBody E iv s = .ok t ↔ s.keyv = true ∧ s.regionsOk s.src s.dst = true ∧ s.src.len + 16 ≤ s.dst.len ∧
      ∃ P, s.buf.readBytes s.src.base s.src.len = some P ∧ t = s.drawn.withOutput (encryptBytes E s.key iv P) := by
  simp [encryptBody, bind_ok, eq_comm (a := t)]

theorem decryptBody_ok (E : BlockCipher) (s t : State) :
    decryptBody E s = .ok t ↔ s.keyv = true ∧ s.regionsOk s.src s.dst = true ∧ 16 ≤ s.src.len ∧
      s.src.len - 16 ≤ s.dst.len ∧
      ∃ C, s.buf.readBytes s.src.base s.src.len = some C ∧ t = s.withOutput (decryptBytes E s.key C) := by
  simp [decryptBody, bind_ok, eq_comm (a := t)]

theorem codeBody_ok (code : List Bool → List Bool) (s t : State) :
    codeBody code s = .ok t ↔ s.regionsOk s.src s.dst = true ∧ s.bitCount.toNat ≤ 8 * s.src.len ∧
      ∃ bits, s.sourceBits s.bitCount.toNat = .ok bits ∧ (bitsToBytes (code bits)).length ≤ s.dst.len ∧
        t = { s.withOutput (bitsToBytes (code bits)) with totalBits := BitVec.ofNat 32 (code bits).length } := by
  simp [codeBody, bind_ok, eq_comm (a := t)]

theorem lsbwrBody_ok (s t : State) :
    lsbwrBody s = .ok t ↔ s.parsed = true ∧ s.regionsOk s.src s.wav = true ∧ s.bitCount.toNat ≤ 8 * s.src.len ∧
      s.bitStart.toNat + s.bitCount.toNat ≤ s.sampleCount.toNat ∧
      ∃ bits, s.sourceBits s.bitCount.toNat = .ok bits ∧
        ∃ m, writeLsbs s.buf (lsbAddr s.wav.base s.dataOffset.toNat s.bitStart.toNat) bits = .ok m ∧
          t = { s with buf := m } := by
  simp [lsbwrBody, bind_ok, eq_comm (a := t)]

theorem lsbrdBody_ok (s t : State) :
    lsbrdBody s = .ok t ↔ s.parsed = true ∧ s.regionsOk s.wav s.dst = true ∧
      s.bitStart.toNat + s.bitCount.toNat ≤ s.sampleCount.toNat ∧ ceilDiv s.bitCount.toNat 8 ≤ s.dst.len ∧
      ∃ bits, readLsbs s.buf (lsbAddr s.wav.base s.dataOffset.toNat s.bitStart.toNat) s.bitCount.toNat = .ok bits ∧
        t = s.withOutput (bitsToBytes bits) := by
  simp [lsbrdBody, bind_ok, eq_comm (a := t)]

theorem embedCarrier_ok (s : State) (c : Container) :
    embedCarrier s = .ok c ↔ s.keyv = true ∧ s.regionsOk s.wav s.src = true ∧ s.parseCarrier = .ok c := by
  simp [embedCarrier, bind_ok]

theorem embedPayload_ok (E : BlockCipher) (iv : Bytes16) (c : Container) (s t : State) :
    embedPayload E iv c s = .ok t ↔ ∃ P, s.buf.readBytes s.src.base s.src.len = some P ∧
      8 * (wireBytes s.eccLatch (encryptBytes E s.key iv P)).length ≤ c.sampleCount ∧
      ∃ m, writeLsbs s.buf (lsbAddr s.wav.base c.dataOffset 0)
          (bytesToBits (wireBytes s.eccLatch (encryptBytes E s.key iv P))) = .ok m ∧
        t = { s.withContainer c with
          buf := m
          payloadLen := BitVec.ofNat 32 (encryptBytes E s.key iv P).length
          totalBits := BitVec.ofNat 32 (8 * (wireBytes s.eccLatch (encryptBytes E s.key iv P)).length)
          eccf := s.eccLatch } := by
  simp [embedPayload, bind_ok, eq_comm (a := t)]

theorem readHeader_ok (m : Memory) (wav : Nat) (c : Container) (h : WireHeader) :
    readHeader m wav c = .ok h ↔ 32 ≤ c.sampleCount ∧
      (∃ magic, readLsbs m (lsbAddr wav c.dataOffset 0) 32 = .ok magic ∧ bitsToBytes magic = magicTag) ∧
      72 ≤ c.sampleCount ∧
      ∃ flag, readLsbs m (lsbAddr wav c.dataOffset 32) 8 = .ok flag ∧
        ∃ len, readLsbs m (lsbAddr wav c.dataOffset 40) 32 = .ok len ∧
          h = { ecc := bitsToBytes flag != [0], payloadLength := beNat (bitsToBytes len) } := by
  simp only [readHeader, bind_ok, require_ok, decide_eq_true_eq, exists_and_left, pure_eq_ok, Except.ok.injEq,
    beq_iff_eq, exists_const, eq_comm (a := h)]
  constructor
  · rintro ⟨h1, magic, h2, h3, h4, h5⟩
    exact ⟨h1, ⟨magic, h2, h3⟩, h4, h5⟩
  · rintro ⟨h1, ⟨magic, h2, h3⟩, h4, h5⟩
    exact ⟨h1, magic, h2, h3, h4, h5⟩

theorem extractBody_ok (E : BlockCipher) (s t : State) :
    extractBody E s = .ok t ↔ s.keyv = true ∧ s.regionsOk s.wav s.dst = true ∧
      ∃ c, s.parseCarrier = .ok c ∧ ∃ h, readHeader s.buf s.wav.base c = .ok h ∧
        72 + bodyBits h.ecc h.payloadLength ≤ c.sampleCount ∧ 16 ≤ h.payloadLength ∧
        h.payloadLength - 16 ≤ s.dst.len ∧
        ∃ enc, readBody s.buf s.wav.base c h = .ok enc ∧
          t = { (s.withContainer c).withOutput (decryptBytes E s.key enc) with
            payloadLen := BitVec.ofNat 32 h.payloadLength
            totalBits := BitVec.ofNat 32 (72 + bodyBits h.ecc h.payloadLength)
            eccf := h.ecc } := by
  simp [extractBody, bind_ok, eq_comm (a := t)]

end Sys2Proof.Machine
end

