-- ==== Sys2Proof/Laws/Lsb.lean ====
section
/-! SUPPORT. What reading and writing sample LSBs does (spec 43_embed_extract R171, 20_memory R65), said once. -/

namespace Sys2Proof.Machine

/-- A byte with its bit 0 replaced keeps bits 7:1 (20_memory R65). -/
theorem withLsb_getLsbD (x : Byte) (b : Bool) (i : Nat) (h : i < 8) :
    (withLsb x b).getLsbD i = if i = 0 then b else x.getLsbD i := by
  have : ∀ (x : BitVec 8) (b : Bool) (i : Fin 8),
      (withLsb x b).getLsbD i.val = if i.val = 0 then b else x.getLsbD i.val := by decide +kernel
  exact this x b ⟨i, h⟩

@[simp] theorem withLsb_bit0 (x : Byte) (b : Bool) : (withLsb x b).getLsbD 0 = b := by
  simpa using withLsb_getLsbD x b 0 (by omega)

/-- Reading LSBs: one bit a sample, in order; it succeeds exactly when every low byte holds a value. -/
theorem readLsbs_ok (m : Memory) (a n : Nat) (bits : List Bool) :
    readLsbs m a n = .ok bits ↔
      bits.length = n ∧ ∀ i (h : i < bits.length), ∃ x, m.read (a + 2 * i) = some x ∧ bits[i] = x.getLsbD 0 := by
  induction n generalizing a bits with
  | zero =>
    simp only [readLsbs, Except.ok.injEq]
    constructor
    · rintro rfl; simp
    · rintro ⟨h, -⟩; exact (List.length_eq_zero_iff.mp h).symm
  | succ n ih =>
    simp only [readLsbs, bind_ok, Memory.loadByte_ok, ih, pure_eq_ok, Except.ok.injEq]
    constructor
    · rintro ⟨x, hx, rest, ⟨hl, hr⟩, rfl⟩
      refine ⟨by simp [hl], fun i hi => ?_⟩
      cases i with
      | zero => exact ⟨x, hx, rfl⟩
      | succ i =>
        obtain ⟨y, hy, hb⟩ := hr i (by simpa using hi)
        refine ⟨y, ?_, by simpa using hb⟩
        rw [← hy]; congr 1; omega
    · rintro ⟨hl, hr⟩
      cases bits with
      | nil => simp at hl
      | cons b bits =>
        obtain ⟨x, hx, hb⟩ := hr 0 (by simp)
        refine ⟨x, hx, bits, ⟨by simpa using hl, fun i hi => ?_⟩, ?_⟩
        · obtain ⟨y, hy, hb⟩ := hr (i + 1) (by simpa using hi)
          refine ⟨y, ?_, by simpa using hb⟩
          rw [← hy]; congr 1; omega
        · simp only [List.getElem_cons_zero] at hb
          rw [hb]

theorem readLsbs_length (m : Memory) (a n : Nat) (bits : List Bool) (h : readLsbs m a n = .ok bits) :
    bits.length = n := ((readLsbs_ok m a n bits).mp h).1

/-- The only way reading LSBs stops is an unwritten byte. -/
theorem readLsbs_error (m : Memory) (a n : Nat) (st : Stop) (h : readLsbs m a n = .error st) :
    st = .fault .unwrittenRead := by
  induction n generalizing a with
  | zero => simp [readLsbs] at h
  | succ n ih =>
    simp only [readLsbs, bind_error, Memory.loadByte_error, pure_eq_ok, reduceCtorEq, and_false, exists_false,
      or_false] at h
    rcases h with h | ⟨x, -, h⟩
    · exact h.2
    · exact ih _ h

/-- Reading LSBs stops when a low byte holds no value (20_memory R66). -/
theorem readLsbs_fails (m : Memory) (a n : Nat) (h : ∃ i, i < n ∧ m.read (a + 2 * i) = none) :
    readLsbs m a n = .error (.fault .unwrittenRead) := by
  cases hr : readLsbs m a n with
  | error st => rw [readLsbs_error m a n st hr]
  | ok bits =>
    obtain ⟨i, hi, hn⟩ := h
    obtain ⟨hl, hb⟩ := (readLsbs_ok m a n bits).mp hr
    obtain ⟨x, hx, -⟩ := hb i (by omega)
    rw [hn] at hx
    cases hx

/-- Two memories with the same bytes at the samples give the same LSBs. -/
theorem readLsbs_congr (m m' : Memory) (a n : Nat) (h : ∀ i, i < n → m'.read (a + 2 * i) = m.read (a + 2 * i)) :
    readLsbs m' a n = readLsbs m a n := by
  induction n generalizing a with
  | zero => rfl
  | succ n ih =>
    have h0 : m'.loadByte a = m.loadByte a := by
      have := h 0 (by omega); simp only [Nat.mul_zero, Nat.add_zero] at this
      simp [Memory.loadByte, this]
    have hs : readLsbs m' (a + 2) n = readLsbs m (a + 2) n := ih (a + 2) fun i hi => by
      have := h (i + 1) (by omega)
      rwa [show a + 2 * (i + 1) = a + 2 + 2 * i by omega] at this
    simp only [readLsbs, h0, hs]

/-- The only way writing LSBs stops is an unwritten byte. -/
theorem writeLsbs_error (m : Memory) (a : Nat) (bits : List Bool) (st : Stop) (h : writeLsbs m a bits = .error st) :
    st = .fault .unwrittenRead := by
  induction bits generalizing m a with
  | nil => simp [writeLsbs] at h
  | cons b bits ih =>
    simp only [writeLsbs, bind_error, Memory.loadByte_error] at h
    rcases h with h | ⟨x, -, h⟩
    · exact h.2
    · exact ih _ _ h

/-- Writing LSBs stops when a low byte holds no value (20_memory R66). -/
theorem writeLsbs_fails (m : Memory) (a : Nat) (bits : List Bool)
    (h : ∃ i, i < bits.length ∧ m.read (a + 2 * i) = none) : writeLsbs m a bits = .error (.fault .unwrittenRead) := by
  obtain ⟨i, hi, hn⟩ := h
  induction bits generalizing m a i with
  | nil => simp at hi
  | cons b bits ih =>
    cases hx : m.loadByte a with
    | error st =>
      obtain ⟨-, rfl⟩ := (Memory.loadByte_error m a st).mp hx
      simp [writeLsbs, hx]
    | ok x =>
      cases i with
      | zero => simp [Memory.loadByte, show m.read a = none from hn] at hx
      | succ i =>
        simp only [writeLsbs, hx, ok_bind]
        refine ih _ _ i (by simpa using hi) ?_
        rw [Memory.read_write_ne _ _ _ _ (by omega), ← hn]
        congr 1
        omega

/-- Writing LSBs keeps the size of BUF and its canonical form, and leaves every byte that is no low byte of a sample
written as it was. -/
theorem writeLsbs_ok_frame (m m' : Memory) (a : Nat) (bits : List Bool) (h : writeLsbs m a bits = .ok m') :
    m'.top = m.top ∧ (m.wf = true → m'.wf = true) ∧
      ∀ x, (∀ i, i < bits.length → x ≠ a + 2 * i) → m'.read x = m.read x := by
  induction bits generalizing m a with
  | nil =>
    simp only [writeLsbs, Except.ok.injEq] at h
    subst h
    exact ⟨rfl, id, fun _ _ => rfl⟩
  | cons b bits ih =>
    simp only [writeLsbs, bind_ok] at h
    obtain ⟨y, -, h⟩ := h
    obtain ⟨ht, hw, hr⟩ := ih _ _ h
    refine ⟨by simpa using ht, fun w => hw (Memory.write_wf _ _ _ w), fun x hx => ?_⟩
    have hx0 := hx 0 (by simp)
    simp only [Nat.mul_zero, Nat.add_zero] at hx0
    rw [hr x fun i hi => ?_, Memory.read_write_ne _ _ _ _ hx0]
    have := hx (i + 1) (by simpa using hi)
    omega

/-- Writing LSBs into a canonical BUF changes bit 0 of each sample's low byte to the bit written, and nothing else of
it. -/
theorem writeLsbs_ok_read (m m' : Memory) (a : Nat) (bits : List Bool) (hm : m.wf = true)
    (h : writeLsbs m a bits = .ok m') (i : Nat) (hi : i < bits.length) :
    ∃ x, m.read (a + 2 * i) = some x ∧ m'.read (a + 2 * i) = some (withLsb x bits[i]) := by
  induction bits generalizing m a i with
  | nil => simp at hi
  | cons b bits ih =>
    simp only [writeLsbs, bind_ok, Memory.loadByte_ok] at h
    obtain ⟨y, hy, h⟩ := h
    cases i with
    | zero =>
      refine ⟨y, by simpa using hy, ?_⟩
      obtain ⟨-, -, hr⟩ := writeLsbs_ok_frame _ _ _ _ h
      rw [hr _ fun j _ => by omega]
      simpa using Memory.read_write m a a _ (m.lt_bytes_of_read a y hm hy)
    | succ i =>
      obtain ⟨x, hx, hx'⟩ := ih _ _ (Memory.write_wf _ _ _ hm) h i (by simpa using hi)
      rw [Memory.read_write_ne _ _ _ _ (by omega)] at hx
      rw [show a + 2 * (i + 1) = a + 2 + 2 * i by omega]
      exact ⟨x, hx, by simpa using hx'⟩

/-- Writing LSBs succeeds when every low byte holds a value. -/
theorem writeLsbs_succeeds (m : Memory) (a : Nat) (bits : List Bool)
    (h : ∀ i, i < bits.length → (m.read (a + 2 * i)).isSome) : ∃ m', writeLsbs m a bits = .ok m' := by
  induction bits generalizing m a with
  | nil => exact ⟨m, rfl⟩
  | cons b bits ih =>
    obtain ⟨x, hx⟩ := Option.isSome_iff_exists.mp (h 0 (by simp))
    simp only [Nat.mul_zero, Nat.add_zero] at hx
    obtain ⟨m', hm'⟩ := ih (m.write a (withLsb x b)) (a + 2) fun i hi => by
      rw [Memory.read_write_ne _ _ _ _ (by omega)]
      have := h (i + 1) (by simpa using hi)
      rwa [show a + 2 * (i + 1) = a + 2 + 2 * i by omega] at this
    exact ⟨m', by simp [writeLsbs, bind_ok, hx, hm']⟩

/-- Reading LSBs succeeds when every low byte holds a value. -/
theorem readLsbs_succeeds (m : Memory) (a n : Nat) (h : ∀ i, i < n → (m.read (a + 2 * i)).isSome) :
    ∃ bits, readLsbs m a n = .ok bits := by
  induction n generalizing a with
  | zero => exact ⟨[], rfl⟩
  | succ n ih =>
    obtain ⟨x, hx⟩ := Option.isSome_iff_exists.mp (h 0 (by omega))
    simp only [Nat.mul_zero, Nat.add_zero] at hx
    obtain ⟨rest, hr⟩ := ih (a + 2) fun i hi => by
      have := h (i + 1) (by omega)
      rwa [show a + 2 * (i + 1) = a + 2 + 2 * i by omega] at this
    exact ⟨x.getLsbD 0 :: rest, by simp [readLsbs, bind_ok, hx, hr]⟩

end Sys2Proof.Machine
end

