-- ==== Sys2Proof/Laws/Errors.lean ====
section
/-! SUPPORT. How the commands' own work can stop: for each function the errors it raises, and beside them only the fault
of an unwritten byte (spec 60_exceptions R201, R207). -/

namespace Sys2Proof.Machine

/-- `r` stops, if it stops, with the fault of an unwritten byte or by raising one of `es`. -/
def RaisesOnly {α : Type} (es : List CmdError) (r : Except Stop α) : Prop :=
  ∀ st, r = .error st → st = .fault .unwrittenRead ∨ ∃ e ∈ es, st = .raise e

theorem RaisesOnly.ok {α : Type} (es : List CmdError) (a : α) : RaisesOnly es (.ok a : Except Stop α) := by
  intro st h; cases h

theorem RaisesOnly.pure {α : Type} (es : List CmdError) (a : α) : RaisesOnly es (Pure.pure a : Except Stop α) :=
  RaisesOnly.ok es a

theorem RaisesOnly.bind {α β : Type} {es : List CmdError} {r : Except Stop α} {f : α → Except Stop β}
    (hr : RaisesOnly es r) (hf : ∀ a, r = .ok a → RaisesOnly es (f a)) : RaisesOnly es (r >>= f) := by
  intro st h
  rcases (bind_error _ _ _).mp h with h | ⟨a, ha, h⟩
  · exact hr st h
  · exact hf a ha st h

theorem RaisesOnly.require {es : List CmdError} (c : Bool) (e : CmdError) (he : e ∈ es) :
    RaisesOnly es (Machine.require c e) := by
  intro st h
  exact .inr ⟨e, he, ((require_error c e st).mp h).2⟩

theorem RaisesOnly.load {es : List CmdError} (m : Memory) (a n : Nat) : RaisesOnly es (m.load a n) := by
  intro st h
  exact .inl ((Memory.load_error m a n st).mp h).2

theorem RaisesOnly.readLsbs {es : List CmdError} (m : Memory) (a n : Nat) : RaisesOnly es (Machine.readLsbs m a n) := by
  intro st h
  exact .inl (readLsbs_error m a n st h)

theorem RaisesOnly.writeLsbs {es : List CmdError} (m : Memory) (a : Nat) (bits : List Bool) :
    RaisesOnly es (Machine.writeLsbs m a bits) := by
  intro st h
  exact .inl (writeLsbs_error m a bits st h)

theorem RaisesOnly.sourceBits {es : List CmdError} (s : State) (n : Nat) : RaisesOnly es (s.sourceBits n) :=
  .bind (.load _ _ _) fun _ _ => .pure _ _

theorem RaisesOnly.mono {α : Type} {es fs : List CmdError} {r : Except Stop α} (h : RaisesOnly es r)
    (hs : ∀ e ∈ es, e ∈ fs) : RaisesOnly fs r := by
  intro st hr
  rcases h st hr with h | ⟨e, he, h⟩
  · exact .inl h
  · exact .inr ⟨e, hs e he, h⟩

theorem loadFmt_raisesOnly {es : List CmdError} (m : Memory) (wav cur : Nat) : RaisesOnly es (loadFmt m wav cur) :=
  .bind (.load _ _ _) fun _ _ => .bind (.load _ _ _) fun _ _ => .bind (.load _ _ _) fun _ _ => .pure _ _

theorem walkChunks_raisesOnly (m : Memory) (wav len fuel cur : Nat) (fmt : Option FmtChunk) :
    RaisesOnly [.formatError] (walkChunks m wav len fuel cur fmt) := by
  induction fuel generalizing cur fmt with
  | zero => exact .ok _ _
  | succ fuel ih =>
    unfold walkChunks
    split
    · exact .ok _ _
    · split
      · exact .ok _ _
      · refine .bind (.load _ _ _) fun id _ => .bind (.load _ _ _) fun size _ => ?_
        dsimp only
        split
        · exact .bind (.require _ _ (by simp)) fun _ _ => .bind (loadFmt_raisesOnly _ _ _) fun _ _ => ih _ _
        · split
          · exact .pure _ _
          · exact ih _ _

/-- The parser's one error is FormatError (40_container R111). -/
theorem parseWav_raisesOnly (m : Memory) (wav len : Nat) : RaisesOnly [.formatError] (parseWav m wav len) := by
  refine .bind (.require _ _ (by simp)) fun _ _ => .bind (.load _ _ _) fun _ _ =>
    .bind (.require _ _ (by simp)) fun _ _ => .bind (.load _ _ _) fun _ _ => .bind (.require _ _ (by simp)) fun _ _ =>
    .bind (walkChunks_raisesOnly _ _ _ _ _ _) fun w _ => ?_
  unfold containerOf
  split
  · exact .bind (.require _ _ (by simp)) fun _ _ => .bind (.require _ _ (by simp)) fun _ _ => .pure _ _
  · intro st h; cases h; exact .inr ⟨_, by simp, rfl⟩

theorem parseCarrier_raisesOnly (s : State) : RaisesOnly [.formatError] s.parseCarrier := parseWav_raisesOnly _ _ _

theorem parseBody_raisesOnly (s : State) : RaisesOnly [.rangeError, .formatError] (parseBody s) :=
  .bind (.require _ _ (by simp)) fun _ _ => .bind ((parseCarrier_raisesOnly s).mono (by simp)) fun _ _ => .pure _ _

theorem kdfBody_raisesOnly (F : List Byte → Bytes32) (s : State) : RaisesOnly [.rangeError] (kdfBody F s) :=
  .bind (.require _ _ (by simp)) fun _ _ => .bind (.load _ _ _) fun _ _ => .pure _ _

theorem encryptBody_raisesOnly (E : BlockCipher) (iv : Bytes16) (s : State) :
    RaisesOnly [.noKey, .rangeError] (encryptBody E iv s) :=
  .bind (.require _ _ (by simp)) fun _ _ => .bind (.require _ _ (by simp)) fun _ _ =>
    .bind (.require _ _ (by simp)) fun _ _ => .bind (.load _ _ _) fun _ _ => .pure _ _

theorem decryptBody_raisesOnly (E : BlockCipher) (s : State) :
    RaisesOnly [.noKey, .rangeError, .shortInput] (decryptBody E s) :=
  .bind (.require _ _ (by simp)) fun _ _ => .bind (.require _ _ (by simp)) fun _ _ =>
    .bind (.require _ _ (by simp)) fun _ _ => .bind (.require _ _ (by simp)) fun _ _ =>
    .bind (.load _ _ _) fun _ _ => .pure _ _

theorem codeBody_raisesOnly (code : List Bool → List Bool) (s : State) : RaisesOnly [.rangeError] (codeBody code s) :=
  .bind (.require _ _ (by simp)) fun _ _ => .bind (.require _ _ (by simp)) fun _ _ =>
    .bind (.sourceBits _ _) fun _ _ => .bind (.require _ _ (by simp)) fun _ _ => .pure _ _

theorem lsbwrBody_raisesOnly (s : State) : RaisesOnly [.notParsed, .rangeError, .capacityError] (lsbwrBody s) :=
  .bind (.require _ _ (by simp)) fun _ _ => .bind (.require _ _ (by simp)) fun _ _ =>
    .bind (.require _ _ (by simp)) fun _ _ => .bind (.require _ _ (by simp)) fun _ _ =>
    .bind (.sourceBits _ _) fun _ _ => .bind (.writeLsbs _ _ _) fun _ _ => .pure _ _

theorem lsbrdBody_raisesOnly (s : State) : RaisesOnly [.notParsed, .rangeError, .truncatedError] (lsbrdBody s) :=
  .bind (.require _ _ (by simp)) fun _ _ => .bind (.require _ _ (by simp)) fun _ _ =>
    .bind (.require _ _ (by simp)) fun _ _ => .bind (.require _ _ (by simp)) fun _ _ =>
    .bind (.readLsbs _ _ _) fun _ _ => .pure _ _

theorem embedCarrier_raisesOnly (s : State) : RaisesOnly [.noKey, .rangeError, .formatError] (embedCarrier s) :=
  .bind (.require _ _ (by simp)) fun _ _ => .bind (.require _ _ (by simp)) fun _ _ =>
    (parseCarrier_raisesOnly s).mono (by simp)

theorem embedPayload_raisesOnly (E : BlockCipher) (iv : Bytes16) (c : Container) (s : State) :
    RaisesOnly [.capacityError] (embedPayload E iv c s) :=
  .bind (.load _ _ _) fun _ _ => .bind (.require _ _ (by simp)) fun _ _ => .bind (.writeLsbs _ _ _) fun _ _ => .pure _ _

theorem readHeader_raisesOnly (m : Memory) (wav : Nat) (c : Container) :
    RaisesOnly [.notFoundError, .truncatedError] (readHeader m wav c) :=
  .bind (.require _ _ (by simp)) fun _ _ => .bind (.readLsbs _ _ _) fun _ _ => .bind (.require _ _ (by simp)) fun _ _ =>
    .bind (.require _ _ (by simp)) fun _ _ => .bind (.readLsbs _ _ _) fun _ _ => .bind (.readLsbs _ _ _) fun _ _ =>
    .pure _ _

theorem readBody_raisesOnly {es : List CmdError} (m : Memory) (wav : Nat) (c : Container) (h : WireHeader) :
    RaisesOnly es (readBody m wav c h) := .bind (.readLsbs _ _ _) fun _ _ => .pure _ _

theorem extractBody_raisesOnly (E : BlockCipher) (s : State) :
    RaisesOnly [.noKey, .rangeError, .formatError, .notFoundError, .truncatedError, .shortInput] (extractBody E s) :=
  .bind (.require _ _ (by simp)) fun _ _ => .bind (.require _ _ (by simp)) fun _ _ =>
    .bind ((parseCarrier_raisesOnly s).mono (by simp)) fun _ _ =>
    .bind ((readHeader_raisesOnly _ _ _).mono (by simp)) fun _ _ => .bind (.require _ _ (by simp)) fun _ _ =>
    .bind (.require _ _ (by simp)) fun _ _ => .bind (.require _ _ (by simp)) fun _ _ =>
    .bind (readBody_raisesOnly _ _ _ _) fun _ _ => .pure _ _

end Sys2Proof.Machine
end

