-- ==== Sys2Proof/Laws/Exec.lean ====
section
/-! SUPPORT. Everything a command and a core step can do, said once: a completion with an error that changes only the
status, a successful completion of the command's own writes, or the fault of an unwritten byte (spec 60_exceptions R202,
R203). -/

namespace Sys2Proof.Machine

/-- `u` is the state after the command's own writes, before completion, when the command raises nothing in `s`. -/
def OwnWrites (i : Instr) (s u : State) : Prop :=
  match i with
  | .parse => parseBody s = .ok u
  | .kdf => kdfBody Config.kdfFn s = .ok u
  | .encrypt => encryptBody Config.blockCipher (Config.ivDraw s.draws) s = .ok u
  | .decrypt => decryptBody Config.blockCipher s = .ok u
  | .henc => codeBody hamEncode s = .ok u
  | .hdec => codeBody hamDecode s = .ok u
  | .lsbwr => lsbwrBody s = .ok u
  | .lsbrd => lsbrdBody s = .ok u
  | .embed => ∃ c, embedCarrier s = .ok c ∧
      embedPayload Config.blockCipher (Config.ivDraw s.draws) c s.drawn = .ok u
  | .extract => extractBody Config.blockCipher s = .ok u

theorem finish_cases {es : List CmdError} (s : State) (r : Except Stop State) (hr : RaisesOnly es r) :
    (∃ u, r = .ok u ∧ finish s r = .next u.completeOk) ∨
    (∃ e ∈ es, finish s r = .next (s.completeErr e)) ∨ finish s r = .fault .unwrittenRead := by
  cases r with
  | ok u => exact .inl ⟨u, rfl, rfl⟩
  | error st =>
    rcases hr st rfl with rfl | ⟨e, he, rfl⟩
    · exact .inr (.inr rfl)
    · exact .inr (.inl ⟨e, he, rfl⟩)

theorem embedWith_cases (E : BlockCipher) (iv : Bytes16) (s : State) :
    (∃ c u, embedCarrier s = .ok c ∧ embedPayload E iv c s.drawn = .ok u ∧ embedWith E iv s = .next u.completeOk) ∨
    (∃ e ∈ raisable .embed, ∃ d, embedWith E iv s = .next (State.completeErr { s with draws := d } e)) ∨
    embedWith E iv s = .fault .unwrittenRead := by
  unfold embedWith
  cases hc : embedCarrier s with
  | error st =>
    rcases embedCarrier_raisesOnly s st hc with rfl | ⟨e, he, rfl⟩
    · exact .inr (.inr rfl)
    · exact .inr (.inl ⟨e, by simp [raisable] at he ⊢; tauto, s.draws, rfl⟩)
  | ok c =>
    rcases finish_cases s.drawn _ (embedPayload_raisesOnly E iv c s.drawn) with ⟨u, hu, h⟩ | ⟨e, he, h⟩ | h
    · exact .inl ⟨c, u, rfl, hu, h⟩
    · exact .inr (.inl ⟨e, by simp [raisable] at he ⊢; tauto, s.draws + 1, h⟩)
    · exact .inr (.inr h)

/-- Everything a command can do. The number of IVs drawn is the model's own. -/
theorem exec_cases (i : Instr) (s : State) :
    (∃ u, OwnWrites i s u ∧ exec i s = .next u.completeOk) ∨
    (∃ e ∈ raisable i, ∃ d, exec i s = .next (State.completeErr { s with draws := d } e)) ∨
    exec i s = .fault .unwrittenRead := by
  have key : ∀ r : Except Stop State, (∀ u, r = .ok u → OwnWrites i s u) → exec i s = finish s r →
      RaisesOnly (raisable i) r →
      (∃ u, OwnWrites i s u ∧ exec i s = .next u.completeOk) ∨
      (∃ e ∈ raisable i, ∃ d, exec i s = .next (State.completeErr { s with draws := d } e)) ∨
      exec i s = .fault .unwrittenRead := by
    intro r hu he hr
    rcases finish_cases s r hr with ⟨u, h, h'⟩ | ⟨e, hm, h⟩ | h
    · exact .inl ⟨u, hu u h, he.trans h'⟩
    · exact .inr (.inl ⟨e, hm, s.draws, he.trans h⟩)
    · exact .inr (.inr (he.trans h))
  cases i with
  | parse => exact key _ (fun _ h => h) rfl (parseBody_raisesOnly s)
  | kdf => exact key _ (fun _ h => h) rfl (kdfBody_raisesOnly _ s)
  | encrypt => exact key _ (fun _ h => h) rfl (encryptBody_raisesOnly _ _ s)
  | decrypt => exact key _ (fun _ h => h) rfl (decryptBody_raisesOnly _ s)
  | henc => exact key _ (fun _ h => h) rfl (codeBody_raisesOnly _ s)
  | hdec => exact key _ (fun _ h => h) rfl (codeBody_raisesOnly _ s)
  | lsbwr => exact key _ (fun _ h => h) rfl (lsbwrBody_raisesOnly s)
  | lsbrd => exact key _ (fun _ h => h) rfl (lsbrdBody_raisesOnly s)
  | extract => exact key _ (fun _ h => h) rfl (extractBody_raisesOnly _ s)
  | embed =>
    rcases embedWith_cases Config.blockCipher (Config.ivDraw s.draws) s with ⟨c, u, hc, hu, h⟩ | h | h
    · exact .inl ⟨u, ⟨c, hc, hu⟩, h⟩
    · exact .inr (.inl h)
    · exact .inr (.inr h)

/-- What a next state of a command is. -/
theorem exec_next (i : Instr) (s t : State) (h : exec i s = .next t) :
    (∃ u, OwnWrites i s u ∧ t = u.completeOk) ∨
    ∃ e ∈ raisable i, ∃ d, t = State.completeErr { s with draws := d } e := by
  rcases exec_cases i s with ⟨u, hu, h'⟩ | ⟨e, he, d, h'⟩ | h'
  · exact .inl ⟨u, hu, by rw [h] at h'; exact Host.Outcome.next.inj h'⟩
  · exact .inr ⟨e, he, d, by rw [h] at h'; exact Host.Outcome.next.inj h'⟩
  · rw [h] at h'; cases h'

/-- What a command's own writes leave alone, whichever command it is (10_state R30, 60_exceptions R202). -/
theorem OwnWrites.keeps (i : Instr) (s u : State) (h : OwnWrites i s u) :
    u.ie = s.ie ∧ u.ecc = s.ecc ∧ u.ovr = s.ovr ∧ u.wavBase = s.wavBase ∧ u.wavLen = s.wavLen ∧
    u.srcBase = s.srcBase ∧ u.srcLen = s.srcLen ∧ u.dstBase = s.dstBase ∧ u.dstCap = s.dstCap ∧
    u.bitStart = s.bitStart ∧ u.bitCount = s.bitCount ∧ u.eccLatch = s.eccLatch ∧ u.buf.top = s.buf.top ∧
    u.agenda = s.agenda ∧ u.hostReads = s.hostReads ∧ (i ≠ .kdf → u.key = s.key ∧ u.keyw = s.keyw) := by
  cases i with
  | parse => obtain ⟨-, c, -, rfl⟩ := (parseBody_ok _ _).mp h; simp
  | kdf => obtain ⟨-, pw, -, rfl⟩ := (kdfBody_ok _ _ _).mp h; simp
  | encrypt => obtain ⟨-, -, -, P, -, rfl⟩ := (encryptBody_ok _ _ _ _).mp h; simp
  | decrypt => obtain ⟨-, -, -, -, C, -, rfl⟩ := (decryptBody_ok _ _ _).mp h; simp
  | henc => obtain ⟨-, -, bits, -, -, rfl⟩ := (codeBody_ok _ _ _).mp h; simp
  | hdec => obtain ⟨-, -, bits, -, -, rfl⟩ := (codeBody_ok _ _ _).mp h; simp
  | lsbwr =>
    obtain ⟨-, -, -, -, bits, -, m, hm, rfl⟩ := (lsbwrBody_ok _ _).mp h
    simpa using (writeLsbs_ok_frame _ _ _ _ hm).1
  | lsbrd => obtain ⟨-, -, -, -, bits, -, rfl⟩ := (lsbrdBody_ok _ _).mp h; simp
  | embed =>
    obtain ⟨c, -, h⟩ := h
    obtain ⟨P, -, -, m, hm, rfl⟩ := (embedPayload_ok _ _ _ _ _).mp h
    simpa using (writeLsbs_ok_frame _ _ _ _ hm).1
  | extract => obtain ⟨-, -, c, -, h, -, -, -, -, enc, -, rfl⟩ := (extractBody_ok _ _ _).mp h; simp

/-- Every command keeps BUF in canonical form. -/
theorem OwnWrites.wf (i : Instr) (s u : State) (h : OwnWrites i s u) (hs : s.buf.wf = true) : u.buf.wf = true := by
  cases i with
  | parse => obtain ⟨-, c, -, rfl⟩ := (parseBody_ok _ _).mp h; simpa using hs
  | kdf => obtain ⟨-, pw, -, rfl⟩ := (kdfBody_ok _ _ _).mp h; simpa using hs
  | encrypt =>
    obtain ⟨-, -, -, P, -, rfl⟩ := (encryptBody_ok _ _ _ _).mp h
    exact Memory.writeBytes_wf _ _ _ hs
  | decrypt =>
    obtain ⟨-, -, -, -, C, -, rfl⟩ := (decryptBody_ok _ _ _).mp h
    exact Memory.writeBytes_wf _ _ _ hs
  | henc => obtain ⟨-, -, bits, -, -, rfl⟩ := (codeBody_ok _ _ _).mp h; exact Memory.writeBytes_wf _ _ _ hs
  | hdec => obtain ⟨-, -, bits, -, -, rfl⟩ := (codeBody_ok _ _ _).mp h; exact Memory.writeBytes_wf _ _ _ hs
  | lsbwr =>
    obtain ⟨-, -, -, -, bits, -, m, hm, rfl⟩ := (lsbwrBody_ok _ _).mp h
    exact (writeLsbs_ok_frame _ _ _ _ hm).2.1 hs
  | lsbrd => obtain ⟨-, -, -, -, bits, -, rfl⟩ := (lsbrdBody_ok _ _).mp h; exact Memory.writeBytes_wf _ _ _ hs
  | embed =>
    obtain ⟨c, -, h⟩ := h
    obtain ⟨P, -, -, m, hm, rfl⟩ := (embedPayload_ok _ _ _ _ _).mp h
    exact (writeLsbs_ok_frame _ _ _ _ hm).2.1 hs
  | extract =>
    obtain ⟨-, -, c, -, h, -, -, -, -, enc, -, rfl⟩ := (extractBody_ok _ _ _).mp h
    exact Memory.writeBytes_wf _ _ _ hs

end Sys2Proof.Machine
end

