-- ==== Sys2Proof/Laws/Host.lean ====
section
/-! SUPPORT. Everything a register write, a host access and a step can do, said once (spec 10_state R22 to R43, 20_memory
R61, R62), and the rule that lifts an invariant to every step. -/

namespace Sys2Proof.Machine

theorem regAt_offset (r : Reg) : regAt r.offset = some r := by
  cases r with
  | key k => revert k; decide
  | _ => decide

theorem regAccessOk_offset (r : Reg) : regAccessOk r.offset 4 = true := by
  cases r with
  | key k => revert k; decide
  | _ => decide

/-- A host write to a register, whichever it is. -/
theorem hostStep_write (s : State) (r : Reg) (v : Word) :
    hostStep { space := .reg, addr := r.offset, width := 4, op := .write v } s = .next (s.regWrite r v) := by
  simp [hostStep, hostReg, regAccessOk_offset, State.offsetWrite, regAt_offset]

/-- A host read of a register, whichever it is. -/
theorem hostStep_read (s : State) (r : Reg) :
    hostStep { space := .reg, addr := r.offset, width := 4, op := .read } s = .next (s.hostRead (s.regRead r)) := by
  simp [hostStep, hostReg, regAccessOk_offset, State.offsetRead, regAt_offset]

/-- One step of a run. -/
theorem run_succ (k : Nat) (s t : State) (h : step s = .next t) :
    Sys2Proof.core.run (k + 1) s = Sys2Proof.core.run k t := by
  have : Sys2Proof.core.step s = .next t := h
  simp only [Host.Core.run, this]

/-- Everything a host write to a register can do. -/
theorem State.regWrite_cases (s : State) (r : Reg) (v : Word) :
    s.regWrite r v = s ∨ s.regWrite r v = s.overrun ∨
    (∃ ie ecc, s.regWrite r v = { s with ie := ie, ecc := ecc }) ∨
    (s.busy = true ∧ ∃ ie ecc, s.regWrite r v = { s with ie := ie, ecc := ecc, ovr := true }) ∨
    (s.busy = false ∧ ∃ ie ecc, s.regWrite r v = State.keyClear { s with ie := ie, ecc := ecc }) ∨
    s.regWrite r v = s.softReset ∨
    s.regWrite r v = s.statusClear v ∨
    (s.busy = false ∧ s.regWrite r v = s.accept v) ∨
    (s.busy = false ∧ ∃ base len, s.regWrite r v = { s with wavBase := base, wavLen := len, parsed := false }) ∨
    (s.busy = false ∧ ∃ sb sl db dc bs bc, s.regWrite r v =
      { s with srcBase := sb, srcLen := sl, dstBase := db, dstCap := dc, bitStart := bs, bitCount := bc }) ∨
    (s.busy = false ∧ ∃ k, s.regWrite r v = s.keyWrite k v) := by
  have operand : ∀ t : State, s.unlessBusy t = s.overrun ∨ (s.busy = false ∧ s.unlessBusy t = t) := by
    intro t
    unfold State.unlessBusy
    cases s.busy <;> simp
  cases r with
  | id | dstLen | dataOffset | dataSize | channels | sampleCount | payloadLen | totalBits => exact .inl rfl
  | status => exact .inr (.inr (.inr (.inr (.inr (.inr (.inl rfl))))))
  | ctrl =>
    simp only [State.regWrite, State.ctrlWrite]
    split
    · refine .inr (.inr (.inr (.inr (.inr (.inl ?_)))))
      split
      · split <;> rfl
      · rfl
    · split
      · cases hb : s.busy
        · exact .inr (.inr (.inr (.inr (.inl ⟨rfl, _, _, rfl⟩))))
        · exact .inr (.inr (.inr (.inl ⟨rfl, _, _, rfl⟩)))
      · exact .inr (.inr (.inl ⟨_, _, rfl⟩))
  | cmd =>
    rcases operand (s.accept v) with h | h
    · exact .inr (.inl h)
    · exact .inr (.inr (.inr (.inr (.inr (.inr (.inr (.inl h)))))))
  | wavBase | wavLen =>
    simp only [State.regWrite, State.unlessBusy]
    cases hb : s.busy
    · exact .inr (.inr (.inr (.inr (.inr (.inr (.inr (.inr (.inl ⟨rfl, _, _, rfl⟩))))))))
    · exact .inr (.inl rfl)
  | srcBase | srcLen | dstBase | dstCap | bitStart | bitCount =>
    simp only [State.regWrite, State.unlessBusy]
    cases hb : s.busy
    · exact .inr (.inr (.inr (.inr (.inr (.inr (.inr (.inr (.inr (.inl ⟨rfl, _, _, _, _, _, _, rfl⟩)))))))))
    · exact .inr (.inl rfl)
  | key k =>
    rcases operand (s.keyWrite k v) with h | ⟨hb, h⟩
    · exact .inr (.inl h)
    · exact .inr (.inr (.inr (.inr (.inr (.inr (.inr (.inr (.inr (.inr ⟨hb, k, h⟩)))))))))

/-- A register stands at its own offset. -/
theorem regAt_some (offset : Nat) (r : Reg) (h : regAt offset = some r) : r.offset = offset := by
  have := List.find?_some h
  simpa using this

/-- Everything a host access can do when it does not fault: a read returns a value and changes nothing else, a register
write is `regWrite` of the register at its offset or ignored, and a BUF write happens only while BUSY = 0. -/
theorem hostStep_next (a : HostAccess) (s t : State) (h : hostStep a s = .next t) :
    (∃ v, t = s.hostRead v) ∨ t = s ∨
    (∃ r v, a = { space := .reg, addr := r.offset, width := 4, op := .write v } ∧ t = s.regWrite r v) ∨
    (s.busy = false ∧ ∃ addr bs, t = { s with buf := s.buf.writeBytes addr bs }) := by
  obtain ⟨space, addr, width, op⟩ := a
  unfold hostStep at h
  split at h
  · next hs =>
    unfold hostReg at h
    split at h
    · next hok =>
      split at h
      · exact .inl ⟨_, (Host.Outcome.next.inj h).symm⟩
      · next v hop =>
        obtain rfl := Host.Outcome.next.inj h
        unfold State.offsetWrite
        split
        · next r hr =>
          have hw : width = 4 := by simp only [regAccessOk, Bool.and_eq_true, beq_iff_eq] at hok; exact hok.1.1
          subst hw
          obtain rfl : space = .reg := hs
          obtain rfl : op = .write v := hop
          obtain rfl : r.offset = addr := regAt_some _ _ hr
          exact .inr (.inr (.inl ⟨r, v, rfl, rfl⟩))
        · exact .inr (.inl rfl)
    · cases h
  · unfold hostBuf at h
    split at h
    · split at h
      · cases h
      · next hb =>
        split at h
        · split at h
          · exact .inl ⟨_, (Host.Outcome.next.inj h).symm⟩
          · cases h
        · exact .inr (.inr (.inr ⟨by simpa using hb, _, _, (Host.Outcome.next.inj h).symm⟩))
    · cases h

/-- Everything a step can do: a command or an Illegal word completes, a host access happens, the power comes on, or the
core has nothing to do. `u` is the state with the turn taken off the agenda. -/
theorem step_next (s t : State) (h : step s = .next t) :
    ∃ turns, ∃ u : State, u = s.withAgenda turns ∧
      (t = u ∨ (∃ i, exec i u = .next t) ∨ t = u.completeErr .illegalCommand ∨ (∃ a, hostStep a u = .next t) ∨
        t = u.powerOn) := by
  have core : ∀ u : State, coreStep u = .next t →
      t = u ∨ (∃ i, exec i u = .next t) ∨ t = u.completeErr .illegalCommand := by
    intro u hu
    unfold coreStep at hu
    split at hu
    · exact .inl (Host.Outcome.next.inj hu).symm
    · split at hu
      · exact .inr (.inl ⟨_, hu⟩)
      · exact .inr (.inr (Host.Outcome.next.inj hu).symm)
  unfold step at h
  split at h
  · next ha =>
    refine ⟨[], s, by simp [State.withAgenda, ← ha], ?_⟩
    rcases core s h with h | h | h
    · exact .inl h
    · exact .inr (.inl h)
    · exact .inr (.inr (.inl h))
  · next rest _ =>
    refine ⟨rest, _, rfl, ?_⟩
    rcases core _ h with h | h | h
    · exact .inl h
    · exact .inr (.inl h)
    · exact .inr (.inr (.inl h))
  · next a rest _ => exact ⟨rest, _, rfl, .inr (.inr (.inr (.inl ⟨a, h⟩)))⟩
  · next rest _ => exact ⟨rest, _, rfl, .inr (.inr (.inr (.inr (Host.Outcome.next.inj h).symm)))⟩

end Sys2Proof.Machine
end

