-- ==== Sys2Proof/Laws/PerInstr.lean ====
section
/-! SUPPORT. A statement about every command as syntax, one lemma per constructor: its command word is well-formed and
its value is the opcode (spec 30_encoding R90, R91). -/

namespace Sys2Proof.Laws.CommandWord

/-- The command is well-formed, so is its word, and the word's value is the opcode alone. -/
def Statement (i : Instr) : Prop :=
  i.wellFormed = true ∧ (CmdWord.ofWord (encode i)).wellFormed = true ∧ (encode i).toNat = (opcode i).toNat

theorem parse : Statement .parse := by unfold Statement; decide
theorem kdf : Statement .kdf := by unfold Statement; decide
theorem encrypt : Statement .encrypt := by unfold Statement; decide
theorem decrypt : Statement .decrypt := by unfold Statement; decide
theorem henc : Statement .henc := by unfold Statement; decide
theorem hdec : Statement .hdec := by unfold Statement; decide
theorem lsbwr : Statement .lsbwr := by unfold Statement; decide
theorem lsbrd : Statement .lsbrd := by unfold Statement; decide
theorem embed : Statement .embed := by unfold Statement; decide
theorem extract : Statement .extract := by unfold Statement; decide

end Sys2Proof.Laws.CommandWord
end

