-- ==== Sys2Proof/Tests/Slice0.lean ====
section
/-! SUPPORT. Tests: the WellFormed smoke tests, decoding, vectors of 95_test_vectors on one step each, and for every
statement with hypotheses a witness that meets them. Expected results are the spec's. -/

namespace Sys2Proof.Tests

-- One theorem at a time: many evaluations at once would each hold a thread and its memory.
set_option Elab.async false

open Sys2Proof Sys2Proof.Machine

/-! ### Building states -/

/-- The bytes `bs` as cells from address `a` on. -/
def cellsAt : Nat → List Byte → List Host.Cell
  | _, [] => []
  | a, b :: bs => (a, b) :: cellsAt (a + 1) bs

/-- The 44-byte header of 95_test_vectors section 0 with data size `size`. -/
def h44 (size : Nat) : List Byte :=
  [0x52, 0x49, 0x46, 0x46] ++ leBytes 4 (36 + size) ++ [0x57, 0x41, 0x56, 0x45, 0x66, 0x6D, 0x74, 0x20, 0x10, 0, 0, 0] ++
    [1, 0, 1, 0, 0x40, 0x1F, 0, 0, 0x80, 0x3E, 0, 0, 2, 0, 0x10, 0, 0x64, 0x61, 0x74, 0x61] ++ leBytes 4 size

/-- W1, 52 bytes. -/
def w1 : List Byte := h44 8 ++ [0x34, 0x12, 0x01, 0x00, 0xFF, 0xFF, 0x00, 0x80]

/-- A carrier of `bits.length + pad` samples whose LSBs are `bits` and then 0, every other data bit 0. -/
def carrier (bits : List Bool) (pad : Nat) : List Byte :=
  h44 (2 * (bits.length + pad)) ++ (bits.flatMap fun b => [if b then 1 else 0, 0]) ++ List.replicate (2 * pad) 0

/-- Power-on reset with BUF_BYTES = 65536 and these BUF bytes. -/
def atReset (cells : List Host.Cell) : State := { State.reset with buf := { top := 65535, cells := cells } }

/-- KA. -/
def ka : Bytes32 := #v[0x60, 0x3d, 0xeb, 0x10, 0x15, 0xca, 0x71, 0xbe, 0x2b, 0x73, 0xae, 0xf0, 0x85, 0x7d, 0x77, 0x81,
  0x1f, 0x35, 0x2c, 0x07, 0x3b, 0x61, 0x08, 0xd7, 0x2d, 0x98, 0x10, 0xa3, 0x09, 0x14, 0xdf, 0xf4]

/-- IVA. -/
def iva : Bytes16 := #v[0xf0, 0xf1, 0xf2, 0xf3, 0xf4, 0xf5, 0xf6, 0xf7, 0xf8, 0xf9, 0xfa, 0xfb, 0xfc, 0xfd, 0xfe, 0xff]

/-- The state with KA loaded. -/
def keyed (s : State) : State := { s with key := ka, keyw := 0xFF }

/-- Section 7's start: W1 at 0, SRC = [src] at 100, DST of `cap` bytes at 200, PARSE done. -/
def sLsb (src : Byte) (start count cap : Word) : State :=
  { atReset (cellsAt 0 w1 ++ cellsAt 100 [src]) with
    wavLen := 52, srcBase := 100, srcLen := 1, dstBase := 200, dstCap := cap, bitStart := start, bitCount := count
    dataOffset := 44, dataSize := 8, channels := 1, sampleCount := 4, parsed := true }

/-- A carrier at 0 of `len` bytes, before PARSE. -/
def sWav (bytes : List Byte) (len : Word) : State := { atReset (cellsAt 0 bytes) with wavLen := len }

/-- A carrier of `len` bytes at 0: the RIFF and WAVE tags, then `chunks`; what lies beyond them is unwritten. -/
def sTags (chunks : List Byte) (len : Word) : State := sWav (w1.take 12 ++ chunks) len

/-- A 24-byte `fmt ` chunk. -/
def fmt16 (format channels bits : Nat) : List Byte :=
  [0x66, 0x6D, 0x74, 0x20, 0x10, 0, 0, 0] ++ leBytes 2 format ++ leBytes 2 channels ++
    [0x40, 0x1F, 0, 0, 0x80, 0x3E, 0, 0, 2, 0] ++ leBytes 2 bits

/-- `fmt16` as a `Chunk`. -/
def cFmt (format channels bits : Nat) : Chunk :=
  { id := [0x66, 0x6D, 0x74, 0x20], size := 16, fields := { format := format, channels := channels, bits := bits } }

/-- W2's 12-byte LIST chunk, with its pad byte. -/
def list3 : List Byte := [0x4C, 0x49, 0x53, 0x54, 3, 0, 0, 0, 0x61, 0x62, 0x63, 0]

/-- `list3` as a `Chunk`. -/
def cList : Chunk := { id := [0x4C, 0x49, 0x53, 0x54], size := 3, fields := { format := 0, channels := 0, bits := 0 } }

/-- The head of a `data` chunk. -/
def dataHead (size : Nat) : List Byte := [0x64, 0x61, 0x74, 0x61] ++ leBytes 4 size

/-- SRC = `src` at 0x0000 and DST of `cap` bytes at 0x0100. -/
def sSrc (src : List Byte) (cap count : Word) : State :=
  { atReset (cellsAt 0 src) with srcLen := BitVec.ofNat 32 src.length, dstBase := 0x100, dstCap := cap, bitCount := count }

/-- Section 8's start: a carrier at 0, the key KA, the payload at 0x8000, DST of `cap` bytes at 0x9000. -/
def sCar (bytes m : List Byte) (ecc : Bool) (cap : Word) : State :=
  keyed { atReset (cellsAt 0 bytes ++ cellsAt 0x8000 m) with
    wavLen := BitVec.ofNat 32 bytes.length, srcBase := 0x8000, srcLen := BitVec.ofNat 32 m.length
    dstBase := 0x9000, dstCap := cap, eccLatch := ecc }

/-- What a next state shows, none at a fault or a refusal. -/
def shows {α : Type} (o : Host.Outcome State Fault Refusal) (f : State → α) : Option α :=
  match o with
  | .next t => some (f t)
  | .fault _ => none
  | .refused _ => none

theorem exists_of_shows {α : Type} {o : Host.Outcome State Fault Refusal} {f : State → α} {v : α}
    (h : shows o f = some v) : ∃ t, o = .next t ∧ f t = v := by
  cases o with
  | next t => exact ⟨t, rfl, by simpa [shows] using h⟩
  | fault r => cases h
  | refused r => cases h

/-- The block cipher with the value `y` at the block `x`, the value `z` at the block `w`, and 0 elsewhere. -/
def cipherAt (x y w z : Bytes16) : BlockCipher := fun _ b => if b = x then y else if b = w then z else Vector.replicate 16 0

/-! ### WellFormed -/

/-- RSV = 1 is refused (30_encoding R90). -/
theorem test_rsv_refused : ({ rsv := 1, opc := 3 } : CmdWord).wellFormed = false := by decide

/-- Opcode 0x00 is refused (30_encoding R94). -/
theorem test_opcode_zero_refused : ({ rsv := 0, opc := 0 } : CmdWord).wellFormed = false := by decide

/-- Opcode 0x0B is refused (30_encoding R94). -/
theorem test_opcode_eleven_refused : ({ rsv := 0, opc := 0x0B } : CmdWord).wellFormed = false := by decide

/-- The check accepts the first and the last command. -/
theorem test_commands_accepted : ({ rsv := 0, opc := 1 } : CmdWord).wellFormed = true ∧
    ({ rsv := 0, opc := 0x0A } : CmdWord).wellFormed = true := by decide

/-! ### Decoding: RSV ++ OPC written bit by bit from 30_encoding R90, R91 -/

theorem test_decode_parse : decode (0x000000#24 ++ 0b00000001#8) = .ok .parse := by rfl
theorem test_decode_kdf : decode (0x000000#24 ++ 0b00000010#8) = .ok .kdf := by rfl
theorem test_decode_encrypt : decode (0x000000#24 ++ 0b00000011#8) = .ok .encrypt := by rfl
theorem test_decode_decrypt : decode (0x000000#24 ++ 0b00000100#8) = .ok .decrypt := by rfl
theorem test_decode_henc : decode (0x000000#24 ++ 0b00000101#8) = .ok .henc := by rfl
theorem test_decode_hdec : decode (0x000000#24 ++ 0b00000110#8) = .ok .hdec := by rfl
theorem test_decode_lsbwr : decode (0x000000#24 ++ 0b00000111#8) = .ok .lsbwr := by rfl
theorem test_decode_lsbrd : decode (0x000000#24 ++ 0b00001000#8) = .ok .lsbrd := by rfl
theorem test_decode_embed : decode (0x000000#24 ++ 0b00001001#8) = .ok .embed := by rfl
theorem test_decode_extract : decode (0x000000#24 ++ 0b00001010#8) = .ok .extract := by rfl

/-- Vectors E3 to E8. -/
theorem test_decode_illegal : decode 0x00000000 = .error .reservedOpcode ∧ decode 0x0000000B = .error .reservedOpcode ∧
    decode 0x000000FF = .error .reservedOpcode ∧ decode 0x00000103 = .error .reservedBits ∧
    decode 0x80000009 = .error .reservedBits ∧ decode 0xFFFFFFFF = .error .reservedBits := by
  refine ⟨?_, ?_, ?_, ?_, ?_, ?_⟩ <;> rfl

/-- E6 after a key load: IllegalCommand, STATUS 0x20506. -/
theorem test_illegal_completes :
    shows (step ((keyed (atReset [])).withFetchWord 32 0x103)) State.statusWord = some 0x20506 := by decide +kernel

/-! ### PARSE -/

/-- W1. -/
theorem test_parse_w1 : shows (exec .parse (sWav w1 52))
    (fun t => (t.statusWord, t.dataOffset, t.dataSize, t.channels, t.sampleCount)) = some (0x10002, 44, 8, 1, 4) := by
  decide +kernel

/-- W2: an odd-sized LIST chunk before `data`. -/
theorem test_parse_w2 : shows (exec .parse (sWav
      (w1.take 36 ++ [0x4C, 0x49, 0x53, 0x54, 3, 0, 0, 0, 0x61, 0x62, 0x63, 0] ++ w1.drop 36) 64))
    (fun t => (t.statusWord, t.dataOffset)) = some (0x10002, 56) := by decide +kernel

/-! ### KDF -/

/-- K1: KEYV is set, and nothing more can be said of K. -/
theorem test_kdf_k1 : shows (exec .kdf (sSrc [0x63, 0x6F, 0x72, 0x72, 0x65, 0x63, 0x74] 0 0)) State.statusWord =
    some 0x20002 := by decide +kernel

/-- K3: the region is not inside BUF; no wrap at 2^32. -/
theorem test_kdf_k3 : shows (exec .kdf { atReset [] with srcBase := 0xFFFFFFF0, srcLen := 0x20 }) State.statusWord =
    some 0x00606 := by decide +kernel

/-! ### ENCRYPT and DECRYPT -/

/-- C3, with the keystream block of C1 as the block cipher's value at IVA. -/
theorem test_encrypt_c3 : shows (finish (keyed (sSrc [0x6b, 0xc1, 0xbe, 0xe2, 0x2e] 21 0)) (encryptBody
      (cipherAt iva #v[0x0b, 0xdf, 0x7d, 0xf1, 0x59, 0x17, 0x16, 0x33, 0x5e, 0x9a, 0x8b, 0x15, 0xc8, 0x60, 0xc5, 0x02] iva iva)
      iva (keyed (sSrc [0x6b, 0xc1, 0xbe, 0xe2, 0x2e] 21 0))))
    (fun t => (t.buf.readBytes 0x110 5, t.dstLen, t.statusWord)) =
    some (some [0x60, 0x1e, 0xc3, 0x13, 0x77], 21, 0x20002) := by decide +kernel

/-- C8 and C9: DST_CAP too small, and no key. -/
theorem test_encrypt_c8_c9 : shows (exec .encrypt (keyed (sSrc [0x6b] 16 0))) State.statusWord = some 0x20606 ∧
    shows (exec .encrypt (sSrc [0x6b] 16 0)) State.statusWord = some 0x00706 := by decide +kernel

/-- D7, with the keystream block of C1 as the block cipher's value at IVA. -/
theorem test_decrypt_d7 : shows (finish (keyed (sSrc (iva.toList ++ [0x60]) 1 0)) (decryptBody
      (cipherAt iva #v[0x0b, 0xdf, 0x7d, 0xf1, 0x59, 0x17, 0x16, 0x33, 0x5e, 0x9a, 0x8b, 0x15, 0xc8, 0x60, 0xc5, 0x02] iva iva)
      (keyed (sSrc (iva.toList ++ [0x60]) 1 0))))
    (fun t => (t.buf.readBytes 0x100 1, t.buf.read 0x101, t.dstLen)) = some (some [0x6b], none, 1) := by decide +kernel

/-- D2 and D3: an empty plaintext, and fewer than 16 bytes. -/
theorem test_decrypt_d2_d3 :
    shows (exec .decrypt (keyed (sSrc iva.toList 0 0))) (fun t => (t.statusWord, t.dstLen)) = some (0x20002, 0) ∧
    shows (exec .decrypt (keyed (sSrc (iva.toList.take 15) 16 0))) State.statusWord = some 0x20806 := by decide +kernel

/-- C4: the counter wraps modulo 2^128. The cipher's two values are those of C4's note. -/
theorem test_counter_c4 : ctrXor (cipherAt (Vector.replicate 16 0xFF)
      #v[0x3b, 0x3c, 0x29, 0x21, 0xc8, 0x5a, 0x24, 0xde, 0x9a, 0xc6, 0x06, 0xce, 0x6d, 0x1d, 0x60, 0xcc]
      (Vector.replicate 16 0)
      #v[0xe5, 0x68, 0xf6, 0x81, 0x94, 0xcf, 0x76, 0xd6, 0x17, 0x4d, 0x4c, 0xc0, 0x43, 0x10, 0xa8, 0x54])
    ka (Vector.replicate 16 0xFF) (List.replicate 32 0) =
    [0x3b, 0x3c, 0x29, 0x21, 0xc8, 0x5a, 0x24, 0xde, 0x9a, 0xc6, 0x06, 0xce, 0x6d, 0x1d, 0x60, 0xcc, 0xe5, 0x68, 0xf6,
      0x81, 0x94, 0xcf, 0x76, 0xd6, 0x17, 0x4d, 0x4c, 0xc0, 0x43, 0x10, 0xa8, 0x54] := by decide +kernel

/-- C6: the carry out of the low 32 bits. -/
theorem test_counter_c6 :
    counterBlock #v[0, 1, 2, 3, 4, 5, 6, 7, 8, 9, 0x0a, 0x0b, 0xff, 0xff, 0xff, 0xff] 1 =
      #v[0, 1, 2, 3, 4, 5, 6, 7, 8, 9, 0x0a, 0x0c, 0, 0, 0, 0] := by decide +kernel

/-! ### HENC and HDEC -/

/-- H22: a zero-padded last group. -/
theorem test_henc_h22 : shows (exec .henc (sSrc [0xB8] 4 5))
    (fun t => (t.statusWord, t.dstLen, t.totalBits, t.buf.readBytes 0x100 2)) =
    some (0x00002, 2, 14, some [0x67, 0xC0]) := by decide +kernel

/-- H25: two bytes of output do not fit. -/
theorem test_henc_h25 : shows (exec .henc (sSrc [0xA5] 1 8)) (fun t => (t.statusWord, t.buf.read 0x100)) =
    some (0x00606, none) := by decide +kernel

/-- H26: one group, two bits ignored. -/
theorem test_hdec_h26 : shows (exec .hdec (sSrc [0xB4, 0x94] 4 9))
    (fun t => (t.statusWord, t.dstLen, t.totalBits, t.buf.readBytes 0x100 1)) = some (0x00002, 1, 4, some [0xA0]) := by
  decide +kernel

/-- H19, position 3, and the double flip 1,2 of H20. -/
theorem test_hdec_flips :
    shows (exec .hdec (sSrc [0x94, 0x94] 4 14)) (fun t => t.buf.readBytes 0x100 1) = some (some [0xA5]) ∧
    shows (exec .hdec (sSrc [0xC0] 4 7)) (fun t => (t.statusWord, t.buf.readBytes 0x100 1)) =
      some (0x00002, some [0x80]) := by decide +kernel

/-! ### LSBWR and LSBRD -/

/-- L1. -/
theorem test_lsbwr_l1 : shows (exec .lsbwr (sLsb 0xA0 0 4 4)) (fun t => (t.statusWord, t.buf.readBytes 44 8)) =
    some (0x10002, some [0x35, 0x12, 0x00, 0x00, 0xFF, 0xFF, 0x00, 0x80]) := by decide +kernel

/-- L4 and L10: past the last sample, and no bits at SAMPLE_COUNT. -/
theorem test_lsbwr_l4_l10 : shows (exec .lsbwr (sLsb 0xFF 2 3 4)) State.statusWord = some 0x10206 ∧
    shows (exec .lsbwr (sLsb 0xA0 4 0 4)) State.statusWord = some 0x10002 := by decide +kernel

/-- The LSBs of W1's samples 0, 1, 2, 3 are 0, 1, 1, 0 (20_memory R63): three of them pack to 0x60 (42_bits_hamming
R151). -/
theorem test_lsbrd_w1 : shows (exec .lsbrd (sLsb 0 0 3 4))
    (fun t => (t.statusWord, t.dstLen, t.buf.readBytes 200 1)) = some (0x10002, 1, some [0x60]) := by decide +kernel

/-- L5: TruncatedError. -/
theorem test_lsbrd_l5 : shows (exec .lsbrd (sLsb 0 2 3 4)) State.statusWord = some 0x10406 := by decide +kernel

/-! ### EMBED and EXTRACT -/

/-- X1's wire buffer: 41 bytes, the header raw and the body coded. -/
theorem test_wire_x1 : wireBytes true (iva.toList ++ [0x63, 0xB6]) =
    [0x53, 0x54, 0x47, 0x31, 0x01, 0x00, 0x00, 0x00, 0x12,
      0xfe, 0x03, 0xfe, 0x9f, 0xea, 0xbf, 0xc3, 0xff, 0x33, 0xfa, 0x5f, 0xf9, 0xbf, 0x8f, 0xff, 0xc3,
      0xf9, 0x9f, 0xf6, 0xbf, 0xb3, 0xfe, 0xf3, 0xfd, 0x5f, 0xe5, 0xbf, 0xff, 0xcd, 0x0d, 0x9e, 0x60] := by
  decide +kernel

/-- X19: the key is checked before the regions. -/
theorem test_embed_x19 : shows (exec .embed { atReset [] with wavBase := 0xFFFFFF00, wavLen := 100 }) State.statusWord =
    some 0x00706 := by decide +kernel

/-- X18: the parse comes before the draw. -/
theorem test_embed_x18 : shows (exec .embed (sCar (0x52 :: 0x49 :: 0x46 :: 0x58 :: w1.drop 4) [] true 16))
    (fun t => (t.statusWord, t.draws)) = some (0x20106, 0) := by decide +kernel

/-- X8, without its PARSE: a header of payload length 0 is ShortInput, after the truncation check. -/
theorem test_extract_x8 : shows (exec .extract (sCar
      (carrier (bytesToBits [0x53, 0x54, 0x47, 0x31, 0, 0, 0, 0, 0]) 0) [] false 16)) State.statusWord =
    some 0x20806 := by decide +kernel

/-- X11: an empty plaintext. -/
theorem test_extract_x11 : shows (exec .extract (sCar
      (carrier (bytesToBits [0x53, 0x54, 0x47, 0x31, 0, 0, 0, 0, 16]) 128) [] false 16))
    (fun t => (t.statusWord, t.dstLen, t.totalBits, t.payloadLen)) = some (0x30002, 0, 200, 16) := by decide +kernel

/-! ### The host, reset and hazards -/

/-- K5: KEYV is 0 after seven key words and 1 after the eighth. -/
theorem test_key_words_k5 :
    shows (Sys2Proof.core.run 7 { atReset [] with agenda := hostKeyload ka.toList }) State.statusWord = some 0 ∧
    shows (Sys2Proof.core.run 8 { atReset [] with agenda := hostKeyload ka.toList })
      (fun t => (t.statusWord, t.key)) = some (0x20000, ka) := by decide +kernel

/-- K7: CTRL takes IE and ECC and clears the key store in one write. -/
theorem test_ctrl_k7 : shows (step { keyed (atReset []) with agenda := [hostWr .ctrl 7] })
    (fun t => (t.ctrlWord, t.keyv)) = some (3, false) := by decide +kernel

/-- V2: SRESET clears the key store and keeps BUF. -/
theorem test_soft_reset_v2 : shows (step { keyed (atReset [(0, 0x5A)]) with agenda := [hostSreset] })
    (fun t => (t.statusWord, t.buf.read 0)) = some (0, some 0x5A) := by decide +kernel

/-- V3 and V3b: IRQ follows DONE, and ACK drops it. -/
theorem test_irq_v3 :
    shows (Sys2Proof.core.run 3 { atReset [] with agenda := [hostWr .ctrl 1, hostCmd .parse, .core] })
      (fun t => (t.statusWord, t.irq)) = some (0x00106, true) ∧
    shows (Sys2Proof.core.run 4 { atReset [] with agenda := [hostWr .ctrl 1, hostCmd .parse, .core, hostAck] })
      (fun t => (t.statusWord, t.irq)) = some (0, false) := by decide +kernel

/-- V5: a reserved offset ignores the write, reads 0 and leaves OVR alone. -/
theorem test_reserved_v5 :
    shows (Sys2Proof.core.run 2 { atReset [] with agenda :=
        [.host { space := .reg, addr := 0x04C, width := 4, op := .write 0x12345678 },
          .host { space := .reg, addr := 0x04C, width := 4, op := .read }] })
      (fun t => (t.hostReads, t.ovr)) = some ([0], false) := by decide +kernel

/-- V6: KEYCLR while BUSY is ignored and sets OVR, and OVR outlives the command. -/
theorem test_keyclr_v6 :
    shows (Sys2Proof.core.run 2 { keyed (atReset []) with agenda := [hostWr .cmd 1, hostWr .ctrl 4, .core] })
      (fun t => (t.statusWord, t.key)) = some (0x20009, ka) ∧
    shows (Sys2Proof.core.run 3 { keyed (atReset []) with agenda := [hostWr .cmd 1, hostWr .ctrl 4, .core] })
      State.statusWord = some 0x2010E := by decide +kernel

/-- W21: any write to WAV_LEN clears PARSED. -/
theorem test_parsed_w21 : shows (step { sLsb 0 0 0 0 with agenda := [hostWr .wavLen 52], done := true })
    State.statusWord = some 0x00002 := by decide +kernel

/-- V11, V12 and V13: the three model faults. -/
theorem test_model_faults :
    step { atReset [] with agenda := hostBr 0 1 } = .fault .unwrittenRead ∧
    step { atReset [(1, 0), (2, 0)] with agenda :=
      [.host { space := .buf, addr := 1, width := 2, op := .read }] } = .fault .hostBadAccess ∧
    step { atReset [(0, 0)] with agenda := hostBr 0 1, pending := some 9 } = .fault .hostBufWhileBusy := by
  refine ⟨?_, ?_, ?_⟩ <;> rfl

/-! ### Witnesses

For each statement with hypotheses, states that meet them, each clause at the edge of its range. -/

/-- The cells of a byte list read back. -/
theorem cellsRead_cellsAt (bs : List Byte) (cs : List Host.Cell) (a i : Nat) (h : i < bs.length) :
    cellsRead (cellsAt a bs ++ cs) (a + i) = some bs[i] := by
  induction bs generalizing a i with
  | nil => simp at h
  | cons b bs ih =>
    cases i with
    | zero => simp [cellsAt, cellsRead]
    | succ i =>
      simp only [cellsAt, List.cons_append, cellsRead, if_neg (show ¬ a + (i + 1) = a by omega)]
      rw [show a + (i + 1) = a + 1 + i by omega]
      simpa using ih (a + 1) i (by simpa using h)

/-- The wire buffer of an empty payload without ECC: 25 bytes (95_test_vectors X3). -/
theorem wire_length_x3 (enc : List Byte) (h : enc.length = 16) : (wireBytes false enc).length = 25 := by
  simp [wireBytes, body, h]

/-- The wire buffer of a two-byte payload with ECC: 41 bytes (95_test_vectors X1). -/
theorem wire_length_x4 (enc : List Byte) (h : enc.length = 18) : (wireBytes true enc).length = 41 := by
  simp [wireBytes, body, hamEncode, ceilDiv, h]

/-- A carrier that holds the wire exactly: EMBED succeeds, and the carrier's bytes hold values before and after. -/
theorem embed_succeeds (E : BlockCipher) (iv : Bytes16) (s : State) (c : Container) (P : List Byte) (bytes : List Byte)
    (cs : List Host.Cell) (hc : embedCarrier s = .ok c) (hP : s.buf.readBytes s.src.base s.src.len = some P)
    (hw : 8 * (wireBytes s.eccLatch (encryptBytes E s.key iv P)).length ≤ c.sampleCount)
    (hb : s.buf.cells = cellsAt 0 bytes ++ cs)
    (hl : s.wav.base + c.dataOffset + 2 * c.sampleCount ≤ bytes.length) :
    (∀ a, a < bytes.length → (s.buf.read a).isSome) ∧
    ∃ t, embedWith E iv s = .next t ∧ t.err = false ∧ t.errcode = 0 ∧ t.dataOffset = BitVec.ofNat 32 c.dataOffset ∧
      t.buf.top = s.buf.top ∧ ∀ i, i < c.sampleCount → (t.buf.read (lsbAddr s.wav.base c.dataOffset i)).isSome := by
  have hr : ∀ a, a < bytes.length → (s.buf.read a).isSome := by
    intro a ha
    have := cellsRead_cellsAt bytes cs 0 a ha
    rw [Nat.zero_add] at this
    simp [Memory.read, hb, this]
  refine ⟨hr, ?_⟩
  have hlow : ∀ i, i < c.sampleCount → (s.buf.read (lsbAddr s.wav.base c.dataOffset i)).isSome := fun i hi =>
    hr _ (by unfold lsbAddr; omega)
  obtain ⟨m, hm⟩ := writeLsbs_succeeds s.buf (lsbAddr s.wav.base c.dataOffset 0)
    (bytesToBits (wireBytes s.eccLatch (encryptBytes E s.key iv P))) (fun i hi => by
      have := hlow i (by simpa using Nat.lt_of_lt_of_le hi (by simpa using hw))
      simpa [lsbAddr] using this)
  have hu := (embedPayload_ok E iv c s.drawn _).mpr ⟨P, hP, hw, m, hm, rfl⟩
  refine ⟨_, (embedWith_next _ _ _ _).mpr (.inr ⟨c, hc, .inl ⟨_, hu, rfl⟩⟩), rfl, rfl, rfl,
    (writeLsbs_ok_frame _ _ _ _ hm).1, fun i hi => ?_⟩
  by_cases hi' : i < (bytesToBits (wireBytes s.eccLatch (encryptBytes E s.key iv P))).length
  · have hx : ∀ (bits : List Bool) (m0 m' : Memory) (a : Nat), writeLsbs m0 a bits = .ok m' →
        ∀ x, (m0.read x).isSome → (m'.read x).isSome := by
      intro bits
      induction bits with
      | nil => intro m0 m' a h x hx; simp only [writeLsbs, Except.ok.injEq] at h; exact h ▸ hx
      | cons b bits ih =>
        intro m0 m' a h x hx
        simp only [writeLsbs, bind_ok] at h
        obtain ⟨y, -, h⟩ := h
        exact ih _ _ _ h x (Memory.isSome_read_writeBytes m0 a x [withLsb y b] hx)
    exact hx _ _ _ _ hm _ (hlow i hi)
  · show (m.read _).isSome = true
    rw [(writeLsbs_ok_frame _ _ _ _ hm).2.2 _ fun j hj => by unfold lsbAddr; omega]
    exact hlow i hi

/-- A state in which the command succeeds. -/
def okState : Instr → State
  | .parse => sWav w1 52
  | .kdf => sSrc [0x63, 0x6F] 0 0
  | .encrypt => keyed (sSrc [0x6b] 17 0)
  | .decrypt => keyed (sSrc (iva.toList ++ [0x60]) 1 0)
  | .henc => sSrc [0xB8] 2 5
  | .hdec => sSrc [0xB4, 0x94] 1 14
  | .lsbwr => sLsb 0xFF 1 3 4
  | .lsbrd => sLsb 0 1 3 1
  | .embed => sCar (carrier [] 200) [] false 0
  | .extract => sCar (carrier (bytesToBits [0x53, 0x54, 0x47, 0x31, 0, 0, 0, 0, 17, 0xFF]) 128) [] false 1

/-- A state in which the command raises an error. -/
def badState : Instr → State
  | .parse => sWav (0x52 :: 0x49 :: 0x46 :: 0x58 :: w1.drop 4) 52
  | .kdf => { atReset [] with srcBase := 65535, srcLen := 2 }
  | .encrypt => keyed (sSrc [0x6b] 16 0)
  | .decrypt => keyed (sSrc (iva.toList.take 15) 16 0)
  | .henc => sSrc [0xB8] 2 9
  | .hdec => sSrc [0xB4, 0x94] 0 14
  | .lsbwr => sLsb 0xFF 2 3 4
  | .lsbrd => sLsb 0 2 3 4
  | .embed => sCar (0x52 :: 0x49 :: 0x46 :: 0x58 :: w1.drop 4) [] true 16
  | .extract => sCar (carrier [] 31) [] false 1

theorem carrier_length (n : Nat) : (carrier [] n).length = 44 + 2 * n := by simp [carrier, h44]; omega

theorem parse_carrier_200 : embedCarrier (okState .embed) = .ok { dataOffset := 44, dataSize := 400, channelCount := 1 } := by
  decide +kernel

/-- EMBED into exactly as many samples as it needs (X3), whatever the block cipher and the IV. -/
theorem embed_ok_200 (E : BlockCipher) (iv : Bytes16) :
    (∀ a, a < 444 → ((okState .embed).buf.read a).isSome) ∧
    ∃ t, embedWith E iv (okState .embed) = .next t ∧ t.err = false ∧ t.errcode = 0 ∧ t.dataOffset = 44 ∧
      t.buf.top = 65535 := by
  obtain ⟨h, t, ht, he, hc, hd, htop, -⟩ := embed_succeeds E iv (okState .embed) _ [] (carrier [] 200) (cellsAt 0x8000 [])
    parse_carrier_200 rfl (by show 8 * (wireBytes false _).length ≤ 200; rw [wire_length_x3 _ (by simp)])
    rfl (by rw [carrier_length]; decide)
  exact ⟨fun a ha => h a (by rw [carrier_length]; exact ha), t, ht, he, hc, hd, htop⟩

/-- Every command can succeed: the hypotheses of `EveryCompletionKeepsTheOperands`, `FrameOfParseAndKdf`,
`FrameOfOutputCommands`, `FrameOfCarrierCommands` and `InterruptIsALevel`. -/
theorem witness_commands_succeed (i : Instr) : ∃ t, exec i (okState i) = .next t ∧ t.err = false := by
  cases i with
  | embed =>
    obtain ⟨-, t, ht, he, -⟩ := embed_ok_200 Config.blockCipher (Config.ivDraw (okState .embed).draws)
    exact ⟨t, ht, he⟩
  | encrypt => exact exists_of_shows (f := State.err) (by decide +kernel)
  | _ => exact exists_of_shows (f := State.err) (by decide +kernel)

/-- Every command can fail: the hypotheses of `FailingCommandChangesOnlyStatus`, `CommandsRaiseOnlyTheirErrors` and the
frames' failing clauses. -/
theorem witness_commands_fail (i : Instr) : ∃ t, exec i (badState i) = .next t ∧ t.err = true := by
  cases i <;> exact exists_of_shows (f := State.err) (by decide +kernel)

theorem witness_DecodeAcceptsExactlyTheTenWords :
    ({ atReset [] with pending := some 0x103 } : State).pending = some 0x103 ∧
    decode 0x103 = .error .reservedBits ∧ decode 0x00B = .error .reservedOpcode ∧ decode 0 = .error .reservedOpcode := by
  decide +kernel

theorem witness_StepPerformsTheDecodedCommand :
    (∃ s : State, s.pending = some 1 ∧ decode 1 = .ok .parse ∧ s.agenda = []) ∧
    (∃ s : State, s.pending = some 10 ∧ decode 10 = .ok .extract ∧ s.agenda = [.core, hostRd .status]) ∧
    (∃ s : State, s.pending = none ∧ s.agenda = []) ∧ (∃ s : State, s.pending = none ∧ s.agenda = [.core]) ∧
    (∃ s : State, s.agenda = [hostCmd .kdf]) ∧ ∃ s : State, s.agenda = [.powerOn, .core] :=
  ⟨⟨{ atReset [] with pending := some 1 }, rfl, rfl, rfl⟩,
    ⟨{ atReset [] with pending := some 10, agenda := [.core, hostRd .status] }, rfl, rfl, rfl⟩,
    ⟨atReset [], rfl, rfl⟩, ⟨{ atReset [] with agenda := [.core] }, rfl, rfl⟩,
    ⟨{ atReset [] with agenda := [hostCmd .kdf] }, rfl⟩, ⟨{ atReset [] with agenda := [.powerOn, .core] }, rfl⟩⟩

/-- A machine with a BUF of 52 bytes, all written, W1 parsed in it, LSBWR accepted and the host about to poll. -/
def sFull : State :=
  { atReset [] with
    buf := { top := 51, cells := cellsAt 0 w1 }, wavLen := 52, dataOffset := 44, dataSize := 8, channels := 1
    sampleCount := 4, parsed := true, pending := some 7, agenda := hostWait 2 }

theorem witness_CommandsCompleteOnWrittenBuf : sFull.bufWritten ∧ sFull.parsedCarrier ∧ sFull.parsed = true := by
  unfold State.bufWritten State.parsedCarrier
  decide +kernel

theorem witness_PollingHostSeesCompletion : sFull.bufWritten ∧ sFull.parsedCarrier ∧ sFull.busy = true ∧
    sFull.agenda = hostWait 2 :=
  ⟨witness_CommandsCompleteOnWrittenBuf.1, witness_CommandsCompleteOnWrittenBuf.2.1, rfl, rfl⟩

/-- PARSE: a region one byte past the end of BUF, a carrier that is not RIFF, one with an unwritten byte, W1 ending at
the last byte of BUF, and 11 bytes (W8). -/
theorem witness_ParseFollowsItsRule :
    (let s : State := { atReset [] with wavBase := 65485, wavLen := 52 }; s.inside s.wav = false) ∧
    ((badState .parse).inside (badState .parse).wav = true ∧
      (badState .parse).parseCarrier = .error (.raise .formatError)) ∧
    (let s := sTags [] 20; s.inside s.wav = true ∧ s.parseCarrier = .error (.fault .unwrittenRead)) ∧
    (let s : State := { atReset (cellsAt 65484 w1) with wavBase := 65484, wavLen := 52 }
     s.inside s.wav = true ∧ s.parseCarrier = .ok { dataOffset := 44, dataSize := 8, channelCount := 1 }) ∧
    ((sWav w1 11).inside (sWav w1 11).wav = true ∧ (sWav w1 11).wav.len < 12) := by
  decide +kernel

/-- The parser's tags, in 12 bytes: RIFF with its last byte unwritten, RIFX (W3), WAVE with its last byte unwritten, and
WAVF; then no chunk fits. -/
theorem witness_ParseFollowsItsRule_tags :
    (sWav (w1.take 3) 12).buf.readBytes 0 4 = none ∧
    ((sWav [0x52, 0x49, 0x46, 0x58] 12).buf.readBytes 0 4 = some [0x52, 0x49, 0x46, 0x58] ∧
      [0x52#8, 0x49#8, 0x46#8, 0x58#8] ≠ [0x52, 0x49, 0x46, 0x46]) ∧
    ((sWav (w1.take 11) 12).buf.holds 0 [0x52, 0x49, 0x46, 0x46] ∧ (sWav (w1.take 11) 12).buf.readBytes 8 4 = none) ∧
    (let s := sWav (w1.take 11 ++ [0x46]) 12
     s.buf.holds 0 [0x52, 0x49, 0x46, 0x46] ∧ s.buf.readBytes 8 4 = some [0x57, 0x41, 0x56, 0x46] ∧
      [0x57#8, 0x41#8, 0x56#8, 0x46#8] ≠ [0x57, 0x41, 0x56, 0x45]) ∧
    let s := sTags [] 12
    s.buf.holds 0 [0x52, 0x49, 0x46, 0x46] ∧ s.buf.holds 8 [0x57, 0x41, 0x56, 0x45] ∧
      s.buf.chunksFrom 0 s.wav.len 12 [] 12 ∧ s.wav.len < 12 + 8 := by
  simp only [Memory.holds, Memory.chunksFrom]
  and_intros <;> decide +kernel

/-- The parser's chunks that end in an error: a head that the carrier cuts off (W17), a head with its last byte unwritten,
`fmt ` of 14 bytes (W14), `fmt ` cut off in its last byte, and `fmt ` with that byte unwritten. -/
theorem witness_ParseFollowsItsRule_heads :
    (let s := sTags (fmt16 1 1 16) 43
     s.buf.chunksFrom 0 s.wav.len 12 [cFmt 1 1 16] 36 ∧ s.wav.len < 36 + 8) ∧
    (let s := sTags (fmt16 1 1 16 ++ (dataHead 8).take 7) 44
     s.buf.chunksFrom 0 s.wav.len 12 [cFmt 1 1 16] 36 ∧ 36 + 8 ≤ s.wav.len ∧ s.buf.readBytes 36 8 = none) ∧
    (let s := sTags ([0x66, 0x6D, 0x74, 0x20] ++ leBytes 4 14) 36
     s.buf.holds 12 ([0x66, 0x6D, 0x74, 0x20] ++ leBytes 4 14) ∧ 12 + 8 ≤ s.wav.len ∧ 14 < 16) ∧
    (let s := sTags (fmt16 1 1 16) 35
     s.buf.holds 12 ([0x66, 0x6D, 0x74, 0x20] ++ leBytes 4 16) ∧ 12 + 8 ≤ s.wav.len ∧ s.wav.len < 12 + 24) ∧
    let s := sTags ((fmt16 1 1 16).take 23) 36
    s.buf.holds 12 ([0x66, 0x6D, 0x74, 0x20] ++ leBytes 4 16) ∧ 16 ≤ 16 ∧ 12 + 24 ≤ s.wav.len ∧
      ∃ i ∈ [8, 9, 10, 11, 22, 23], s.buf.read (12 + i) = none := by
  simp only [Memory.holds, Memory.chunksFrom, Memory.chunkAt]
  and_intros <;> decide +kernel

/-- The parser at a `data` chunk: none before it is `fmt ` (W9); the last `fmt ` is not PCM (W4), not of 16 bits (W5), and
the data runs one byte past the carrier (W7). -/
theorem witness_ParseFollowsItsRule_data :
    (let s := sTags (list3 ++ dataHead 8) 60
     s.buf.chunksFrom 0 s.wav.len 12 [cList] 24 ∧ 24 + 8 ≤ s.wav.len ∧ s.buf.holds 24 ([0x64, 0x61, 0x74, 0x61] ++ leBytes 4 8) ∧
      ∀ c ∈ [cList], c.id ≠ [0x66, 0x6D, 0x74, 0x20]) ∧
    (let s := sTags (fmt16 3 1 16 ++ dataHead 8) 52
     s.buf.chunksFrom 0 s.wav.len 12 ([] ++ cFmt 3 1 16 :: []) 36 ∧
      s.buf.holds 36 ([0x64, 0x61, 0x74, 0x61] ++ leBytes 4 8) ∧ (cFmt 3 1 16).fields.format ≠ 1) ∧
    (let s := sTags (fmt16 1 1 8 ++ dataHead 8) 52
     s.buf.chunksFrom 0 s.wav.len 12 ([] ++ cFmt 1 1 8 :: []) 36 ∧
      s.buf.holds 36 ([0x64, 0x61, 0x74, 0x61] ++ leBytes 4 8) ∧ (cFmt 1 1 8).fields.bits ≠ 16) ∧
    let s := sTags (fmt16 1 1 16 ++ dataHead 9) 52
    s.buf.chunksFrom 0 s.wav.len 12 ([] ++ cFmt 1 1 16 :: []) 36 ∧
      s.buf.holds 36 ([0x64, 0x61, 0x74, 0x61] ++ leBytes 4 9) ∧ s.wav.len < 36 + 8 + 9 := by
  simp only [Memory.holds, Memory.chunksFrom, Memory.chunkAt, List.nil_append]
  and_intros <;> decide +kernel

/-- A container the parser accepts: W2's LIST chunk after `fmt `, the data ending at the carrier's last byte, and two
`fmt ` chunks of which the last one counts. -/
theorem witness_ParseFollowsItsRule_container :
    (let s := sTags (fmt16 1 1 16 ++ list3 ++ dataHead 8) 64
     s.buf.holds 0 [0x52, 0x49, 0x46, 0x46] ∧ s.buf.holds 8 [0x57, 0x41, 0x56, 0x45] ∧
      s.buf.chunksFrom 0 s.wav.len 12 ([] ++ cFmt 1 1 16 :: [cList]) 48 ∧
      s.buf.holds 48 ([0x64, 0x61, 0x74, 0x61] ++ leBytes 4 8) ∧ (∀ c ∈ [cList], c.id ≠ [0x66, 0x6D, 0x74, 0x20]) ∧
      (cFmt 1 1 16).fields.format = 1 ∧ (cFmt 1 1 16).fields.bits = 16 ∧ 48 + 8 + 8 ≤ s.wav.len) ∧
    let s := sTags (fmt16 3 1 8 ++ fmt16 1 2 16 ++ dataHead 0) 68
    s.buf.chunksFrom 0 s.wav.len 12 ([cFmt 3 1 8] ++ cFmt 1 2 16 :: []) 60 ∧
      s.buf.holds 60 ([0x64, 0x61, 0x74, 0x61] ++ leBytes 4 0) ∧ 60 + 8 + 0 ≤ s.wav.len := by
  simp only [Memory.holds, Memory.chunksFrom, Memory.chunkAt, List.nil_append, List.cons_append]
  and_intros <;> decide +kernel

theorem witness_CanonicalCarrierParses :
    (sWav w1 52).wav.base + (sWav w1 52).wav.len ≤ (sWav w1 52).bufBytes ∧ 44 + 8 ≤ (sWav w1 52).wav.len ∧
    (sWav w1 52).buf.readBytes (sWav w1 52).wav.base 44 = some (
      [0x52, 0x49, 0x46, 0x46] ++ [0x2C, 0, 0, 0] ++ [0x57, 0x41, 0x56, 0x45] ++ [0x66, 0x6D, 0x74, 0x20] ++
      [0x10, 0x00, 0x00, 0x00] ++ [0x01, 0x00] ++ leBytes 2 1 ++ [0x40, 0x1F, 0, 0] ++ [0x80, 0x3E, 0, 0] ++ [2, 0] ++
      [0x10, 0x00] ++ [0x64, 0x61, 0x74, 0x61] ++ leBytes 4 8) := by
  decide +kernel

theorem witness_KdfFollowsItsRule :
    ((badState .kdf).inside (badState .kdf).src = false) ∧
    (let s : State := { sSrc [1] 0 0 with srcLen := 2 }
     s.inside s.src = true ∧ s.buf.readBytes s.src.base s.src.len = none) ∧
    let s : State := { atReset [(65534, 1), (65535, 2)] with srcBase := 65534, srcLen := 2 }
    s.inside s.src = true ∧ s.buf.readBytes s.src.base s.src.len = some [1, 2] := by
  decide +kernel

theorem witness_EncryptFollowsItsRule :
    (sSrc [0x6b] 17 0).keyv = false ∧
    (let s : State := { keyed (sSrc [0x6b, 0x6c] 18 0) with dstBase := 1 }
     s.keyv = true ∧ s.regionsOk s.src s.dst = false) ∧
    ((keyed (sSrc [0x6b] 16 0)).keyv = true ∧
      (keyed (sSrc [0x6b] 16 0)).regionsOk (keyed (sSrc [0x6b] 16 0)).src (keyed (sSrc [0x6b] 16 0)).dst = true ∧
      (keyed (sSrc [0x6b] 16 0)).dst.len < (keyed (sSrc [0x6b] 16 0)).src.len + 16) ∧
    (let s : State := { keyed (sSrc [0x6b] 18 0) with srcLen := 2 }
     s.keyv = true ∧ s.regionsOk s.src s.dst = true ∧ s.src.len + 16 ≤ s.dst.len ∧
      s.buf.readBytes s.src.base s.src.len = none) ∧
    let s : State := { keyed (sSrc [0x6b] 17 0) with dstBase := 1 }
    s.keyv = true ∧ s.regionsOk s.src s.dst = true ∧ s.src.len + 16 ≤ s.dst.len ∧
      s.buf.readBytes s.src.base s.src.len = some [0x6b] := by
  decide +kernel

theorem witness_DecryptFollowsItsRule :
    (sSrc iva.toList 0 0).keyv = false ∧
    (let s : State := { keyed (sSrc iva.toList 16 0) with dstBase := 15 }
     s.keyv = true ∧ s.regionsOk s.src s.dst = false) ∧
    (let s := keyed (sSrc (iva.toList.take 15) 16 0)
     s.keyv = true ∧ s.regionsOk s.src s.dst = true ∧ s.src.len < 16) ∧
    (let s := keyed (sSrc (iva.toList ++ [0x60]) 0 0)
     s.keyv = true ∧ s.regionsOk s.src s.dst = true ∧ 16 ≤ s.src.len ∧ s.dst.len < s.src.len - 16) ∧
    (let s : State := { keyed (sSrc iva.toList 1 0) with srcLen := 17 }
     s.keyv = true ∧ s.regionsOk s.src s.dst = true ∧ 16 ≤ s.src.len ∧ s.src.len - 16 ≤ s.dst.len ∧
      s.buf.readBytes s.src.base s.src.len = none) ∧
    let s := keyed (sSrc (iva.toList ++ [0x60]) 1 0)
    s.keyv = true ∧ s.regionsOk s.src s.dst = true ∧ 16 ≤ s.src.len ∧ s.src.len - 16 ≤ s.dst.len ∧
      s.buf.readBytes s.src.base s.src.len = some (iva.toList ++ [0x60]) := by
  decide +kernel

theorem witness_HencFollowsItsRule :
    (let s : State := { sSrc [0xB8] 2 5 with dstBase := 65535 }; s.regionsOk s.src s.dst = false) ∧
    (let s := sSrc [0xB8] 4 9; s.regionsOk s.src s.dst = true ∧ 8 * s.src.len < s.bitCount.toNat) ∧
    (let s : State := { sSrc [0xB8] 4 9 with srcLen := 2 }
     s.regionsOk s.src s.dst = true ∧ s.bitCount.toNat ≤ 8 * s.src.len ∧
      s.buf.readBytes s.src.base (ceilDiv s.bitCount.toNat 8) = none) ∧
    (let s := sSrc [0xB8] 1 8
     s.regionsOk s.src s.dst = true ∧ s.bitCount.toNat ≤ 8 * s.src.len ∧
      s.buf.readBytes s.src.base (ceilDiv s.bitCount.toNat 8) = some [0xB8] ∧
      s.dst.len < ceilDiv (7 * ceilDiv s.bitCount.toNat 4) 8) ∧
    let s := sSrc [0xB8] 2 8
    s.regionsOk s.src s.dst = true ∧ s.bitCount.toNat ≤ 8 * s.src.len ∧
      s.buf.readBytes s.src.base (ceilDiv s.bitCount.toNat 8) = some [0xB8] ∧
      ceilDiv (7 * ceilDiv s.bitCount.toNat 4) 8 ≤ s.dst.len := by
  decide +kernel

theorem witness_HdecFollowsItsRule :
    (let s : State := { sSrc [0xB4, 0x94] 2 14 with dstBase := 1 }; s.regionsOk s.src s.dst = false) ∧
    (let s := sSrc [0xB4, 0x94] 4 17; s.regionsOk s.src s.dst = true ∧ 8 * s.src.len < s.bitCount.toNat) ∧
    (let s : State := { sSrc [0xB8] 4 9 with srcLen := 2 }
     s.regionsOk s.src s.dst = true ∧ s.bitCount.toNat ≤ 8 * s.src.len ∧
      s.buf.readBytes s.src.base (ceilDiv s.bitCount.toNat 8) = none) ∧
    (let s := sSrc [0xB4, 0x94] 0 16
     s.regionsOk s.src s.dst = true ∧ s.bitCount.toNat ≤ 8 * s.src.len ∧
      s.buf.readBytes s.src.base (ceilDiv s.bitCount.toNat 8) = some [0xB4, 0x94] ∧
      s.dst.len < ceilDiv (4 * (s.bitCount.toNat / 7)) 8) ∧
    let s := sSrc [0xB4, 0x94] 1 16
    s.regionsOk s.src s.dst = true ∧ s.bitCount.toNat ≤ 8 * s.src.len ∧
      s.buf.readBytes s.src.base (ceilDiv s.bitCount.toNat 8) = some [0xB4, 0x94] ∧
      ceilDiv (4 * (s.bitCount.toNat / 7)) 8 ≤ s.dst.len := by
  decide +kernel

/-- `sLsb` with the low byte of its last sample unwritten. -/
def sLsbCut : State := { sLsb 0xFF 1 3 4 with buf := { top := 65535, cells := cellsAt 0 (w1.take 50) ++ [(100, 0xFF)] } }

theorem witness_LsbwrFollowsItsRule :
    ({ sLsb 0xA0 0 4 4 with parsed := false } : State).parsed = false ∧
    (let s : State := { sLsb 0xA0 0 1 4 with srcBase := 51 }; s.parsed = true ∧ s.regionsOk s.src s.wav = false) ∧
    (let s := sLsb 0xA0 0 9 4; s.parsed = true ∧ s.regionsOk s.src s.wav = true ∧ 8 * s.src.len < s.bitCount.toNat) ∧
    (let s := sLsb 0xA0 2 3 4
     s.parsed = true ∧ s.regionsOk s.src s.wav = true ∧ s.bitCount.toNat ≤ 8 * s.src.len ∧
       s.sampleCount.toNat < s.bitStart.toNat + s.bitCount.toNat) ∧
    (let s : State := { sLsb 0xFF 1 3 4 with srcBase := 99 }
     s.parsed = true ∧ s.regionsOk s.src s.wav = true ∧ s.bitCount.toNat ≤ 8 * s.src.len ∧
      s.bitStart.toNat + s.bitCount.toNat ≤ s.sampleCount.toNat ∧
      s.buf.readBytes s.src.base (ceilDiv s.bitCount.toNat 8) = none) ∧
    (let s := sLsbCut
     s.parsed = true ∧ s.regionsOk s.src s.wav = true ∧ s.bitCount.toNat ≤ 8 * s.src.len ∧
      s.bitStart.toNat + s.bitCount.toNat ≤ s.sampleCount.toNat ∧
      ∃ i, i < s.bitCount.toNat ∧
        s.buf.read (lsbAddr s.wav.base s.dataOffset.toNat (s.bitStart.toNat + i)) = none) ∧
    let s := sLsb 0xFF 1 3 4
    s.parsed = true ∧ s.regionsOk s.src s.wav = true ∧ s.bitCount.toNat ≤ 8 * s.src.len ∧
      s.bitStart.toNat + s.bitCount.toNat ≤ s.sampleCount.toNat ∧ s.canonicalBuf ∧
      s.buf.readBytes s.src.base (ceilDiv s.bitCount.toNat 8) = some [0xFF] ∧
      ∀ i, i < s.bitCount.toNat →
        (s.buf.read (lsbAddr s.wav.base s.dataOffset.toNat (s.bitStart.toNat + i))).isSome := by
  unfold State.canonicalBuf
  decide +kernel

theorem witness_LsbrdFollowsItsRule :
    ({ sLsb 0 0 4 4 with parsed := false } : State).parsed = false ∧
    (let s : State := { sLsb 0 0 1 4 with dstBase := 51 }; s.parsed = true ∧ s.regionsOk s.wav s.dst = false) ∧
    (let s := sLsb 0 2 3 4
     s.parsed = true ∧ s.regionsOk s.wav s.dst = true ∧ s.sampleCount.toNat < s.bitStart.toNat + s.bitCount.toNat) ∧
    (let s := sLsb 0 1 3 0
     s.parsed = true ∧ s.regionsOk s.wav s.dst = true ∧
       s.bitStart.toNat + s.bitCount.toNat ≤ s.sampleCount.toNat ∧ s.dst.len < ceilDiv s.bitCount.toNat 8) ∧
    (let s := sLsbCut
     s.parsed = true ∧ s.regionsOk s.wav s.dst = true ∧ s.bitStart.toNat + s.bitCount.toNat ≤ s.sampleCount.toNat ∧
      ceilDiv s.bitCount.toNat 8 ≤ s.dst.len ∧
      ∃ i, i < s.bitCount.toNat ∧
        s.buf.read (lsbAddr s.wav.base s.dataOffset.toNat (s.bitStart.toNat + i)) = none) ∧
    let s := sLsb 0 1 3 1
    s.parsed = true ∧ s.regionsOk s.wav s.dst = true ∧ s.bitStart.toNat + s.bitCount.toNat ≤ s.sampleCount.toNat ∧
      ceilDiv s.bitCount.toNat 8 ≤ s.dst.len ∧ [0x01#8, 0xFF#8, 0x00#8].length = s.bitCount.toNat ∧
      ∀ i : Fin 3, s.buf.read (lsbAddr s.wav.base s.dataOffset.toNat (s.bitStart.toNat + i)) =
        some [0x01#8, 0xFF#8, 0x00#8][i] := by
  decide +kernel

/-- A carrier of `n` samples reads back whole. -/
theorem carrier_reads (n : Nat) (m : List Byte) (ecc : Bool) (cap : Word) (i : Nat) (hi : i < n) :
    ((sCar (carrier [] n) m ecc cap).buf.read (lsbAddr (sCar (carrier [] n) m ecc cap).wav.base 44 i)).isSome := by
  have hl := carrier_length n
  have := cellsRead_cellsAt (carrier [] n) (cellsAt 0x8000 m) 0 (44 + 2 * i) (by omega)
  have e : lsbAddr (sCar (carrier [] n) m ecc cap).wav.base 44 i = 0 + (44 + 2 * i) := by
    show 0 + 44 + 2 * i = _; omega
  rw [e]
  show (cellsRead _ _).isSome = true
  rw [show (sCar (carrier [] n) m ecc cap).buf.cells = cellsAt 0 (carrier [] n) ++ cellsAt 0x8000 m from rfl, this]
  rfl

theorem witness_EmbedFollowsItsRule :
    (okState .parse).keyv = false ∧
    (let s : State := { okState .embed with srcBase := 65536, srcLen := 1 }
     s.keyv = true ∧ s.regionsOk s.wav s.src = false) ∧
    ((badState .embed).keyv = true ∧ (badState .embed).regionsOk (badState .embed).wav (badState .embed).src = true ∧
      (badState .embed).parseCarrier = .error (.raise .formatError)) ∧
    ∀ n ∈ [199, 200], let s := sCar (carrier [] n) [] false 0
      (s.keyv = true ∧ s.regionsOk s.wav s.src = true) ∧
      s.parseCarrier = .ok { dataOffset := 44, dataSize := 2 * n, channelCount := 1 } ∧
      s.buf.readBytes s.src.base s.src.len = some [] ∧ s.canonicalBuf ∧
      (∀ i, i < n → (s.buf.read (lsbAddr s.wav.base 44 i)).isSome) ∧
      ∀ enc : List Byte, enc.length = 16 → (2 * n / 2 < 8 * (header false (0 + 16) ++ body false enc).length ↔ n = 199) := by
  refine ⟨by decide +kernel, by decide +kernel, by decide +kernel, ?_⟩
  intro n hn
  have hl : ∀ enc : List Byte, enc.length = 16 → (header false (0 + 16) ++ body false enc).length = 25 := by
    intro enc h; simp [body, h]
  simp only [List.mem_cons, List.not_mem_nil, or_false] at hn
  unfold State.canonicalBuf
  rcases hn with rfl | rfl
  · exact ⟨by decide +kernel, by decide +kernel, rfl, by decide +kernel, carrier_reads _ _ _ _,
      fun enc h => by rw [hl enc h]; decide⟩
  · exact ⟨by decide +kernel, by decide +kernel, rfl, by decide +kernel, carrier_reads _ _ _ _,
      fun enc h => by rw [hl enc h]; decide⟩

/-- A carrier with the LSBs of `wire` and `pad` further samples, the low byte of its last sample unwritten; EMBED's payload
is empty, and DST has one byte. -/
def sCarCut (wire : List Byte) (pad : Nat) : State :=
  let bytes := carrier (bytesToBits wire) pad
  { sCar (bytes.take (bytes.length - 2)) [] false 1 with wavLen := BitVec.ofNat 32 bytes.length }

/-- EMBED with an unwritten byte that the parser needs, an unwritten payload byte, and an unwritten sample among the 200 it
needs. -/
theorem witness_EmbedFollowsItsRule_unwritten :
    (let s := sCarCut [] 0
     s.keyv = true ∧ s.regionsOk s.wav s.src = true ∧ s.parseCarrier = .error (.fault .unwrittenRead)) ∧
    (let s : State := { okState .embed with srcLen := 1 }
     s.keyv = true ∧ s.regionsOk s.wav s.src = true ∧
      s.parseCarrier = .ok { dataOffset := 44, dataSize := 400, channelCount := 1 } ∧
      s.buf.readBytes s.src.base s.src.len = none) ∧
    (let s := sCarCut [] 200
     s.keyv = true ∧ s.regionsOk s.wav s.src = true ∧
      s.parseCarrier = .ok { dataOffset := 44, dataSize := 400, channelCount := 1 } ∧
      s.buf.readBytes s.src.base s.src.len = some [] ∧ s.buf.read (lsbAddr s.wav.base 44 199) = none) ∧
    ∀ enc : List Byte, enc.length = 16 →
      8 * (header false (0 + 16) ++ body false enc).length ≤ 400 / 2 ∧
        199 < 8 * (header false (0 + 16) ++ body false enc).length := by
  refine ⟨by decide +kernel, by decide +kernel, by decide +kernel, fun enc h => ?_⟩
  have : (header false (0 + 16) ++ body false enc).length = 25 := by simp [body, h]
  omega

/-- EXTRACT's input with the LSBs of `wire` and `pad` further samples, and DST of `cap` bytes. -/
def sGet (wire : List Byte) (pad : Nat) (cap : Word) : State := sCar (carrier (bytesToBits wire) pad) [] false cap

/-- The clauses up to the magic: no key, a region past BUF, no RIFF, 31 samples, a wrong magic, and the magic in 71
samples. -/
theorem witness_ExtractFollowsItsRule_header :
    (sWav w1 52).keyv = false ∧
    (let s : State := { sGet [] 31 1 with dstBase := 65536 }; s.keyv = true ∧ s.regionsOk s.wav s.dst = false) ∧
    (let s := badState .embed
     s.keyv = true ∧ s.regionsOk s.wav s.dst = true ∧ s.parseCarrier = .error (.raise .formatError)) ∧
    (let s := sGet [] 31 1
     s.keyv = true ∧ s.regionsOk s.wav s.dst = true ∧
      s.parseCarrier = .ok { dataOffset := 44, dataSize := 62, channelCount := 1 } ∧ 62 / 2 < 32) ∧
    (let s := sGet [] 32 1
     s.parseCarrier = .ok { dataOffset := 44, dataSize := 64, channelCount := 1 } ∧
      readLsbs s.buf (lsbAddr s.wav.base 44 0) 32 = .ok (List.replicate 32 false) ∧
      bitsToBytes (List.replicate 32 false) ≠ [0x53, 0x54, 0x47, 0x31]) ∧
    let s := sGet [0x53, 0x54, 0x47, 0x31] 39 1
    s.keyv = true ∧ s.regionsOk s.wav s.dst = true ∧
      s.parseCarrier = .ok { dataOffset := 44, dataSize := 142, channelCount := 1 } ∧
      readLsbs s.buf (lsbAddr s.wav.base 44 0) 32 = .ok (bytesToBits [0x53, 0x54, 0x47, 0x31]) ∧ 142 / 2 < 72 := by
  decide +kernel

/-- The clauses after the header: one sample short of the body, 15 bytes of payload, an output area one byte short. -/
theorem witness_ExtractFollowsItsRule_errors :
    (let s := sGet [0x53, 0x54, 0x47, 0x31, 0, 0, 0, 0, 1] 7 1
     s.parseCarrier = .ok { dataOffset := 44, dataSize := 158, channelCount := 1 } ∧
      readLsbs s.buf (lsbAddr s.wav.base 44 0) 32 = .ok (bytesToBits [0x53, 0x54, 0x47, 0x31]) ∧
      readLsbs s.buf (lsbAddr s.wav.base 44 32) 8 = .ok (bytesToBits [0]) ∧
      readLsbs s.buf (lsbAddr s.wav.base 44 40) 32 = .ok (bytesToBits [0, 0, 0, 1]) ∧ 158 / 2 < 72 + 1 * 8) ∧
    (let s := sGet [0x53, 0x54, 0x47, 0x31, 0, 0, 0, 0, 15] 120 1
     s.parseCarrier = .ok { dataOffset := 44, dataSize := 384, channelCount := 1 } ∧
      readLsbs s.buf (lsbAddr s.wav.base 44 40) 32 = .ok (bytesToBits [0, 0, 0, 15]) ∧ 72 + 15 * 8 ≤ 384 / 2) ∧
    let s := sGet [0x53, 0x54, 0x47, 0x31, 0, 0, 0, 0, 17] 136 0
    s.parseCarrier = .ok { dataOffset := 44, dataSize := 416, channelCount := 1 } ∧
      readLsbs s.buf (lsbAddr s.wav.base 44 40) 32 = .ok (bytesToBits [0, 0, 0, 17]) ∧ 72 + 17 * 8 ≤ 416 / 2 ∧
      s.dst.len < 17 - 16 := by
  decide +kernel

/-- EXTRACT with an unwritten byte that the parser needs, and with the last sample unwritten of the magic, of the header,
and of the body. -/
theorem witness_ExtractFollowsItsRule_unwritten :
    (let s := sCarCut [] 0
     s.keyv = true ∧ s.regionsOk s.wav s.dst = true ∧ s.parseCarrier = .error (.fault .unwrittenRead)) ∧
    (let s := sCarCut [] 32
     s.keyv = true ∧ s.regionsOk s.wav s.dst = true ∧
      s.parseCarrier = .ok { dataOffset := 44, dataSize := 64, channelCount := 1 } ∧ 32 ≤ 64 / 2 ∧
      s.buf.read (lsbAddr s.wav.base 44 31) = none) ∧
    (let s := sCarCut [0x53, 0x54, 0x47, 0x31] 40
     s.keyv = true ∧ s.regionsOk s.wav s.dst = true ∧
      s.parseCarrier = .ok { dataOffset := 44, dataSize := 144, channelCount := 1 } ∧
      readLsbs s.buf (lsbAddr s.wav.base 44 0) 32 = .ok (bytesToBits [0x53, 0x54, 0x47, 0x31]) ∧ 72 ≤ 144 / 2 ∧
      s.buf.read (lsbAddr s.wav.base 44 71) = none) ∧
    let s := sCarCut [0x53, 0x54, 0x47, 0x31, 0, 0, 0, 0, 17] 136
    s.keyv = true ∧ s.regionsOk s.wav s.dst = true ∧
      s.parseCarrier = .ok { dataOffset := 44, dataSize := 416, channelCount := 1 } ∧
      readLsbs s.buf (lsbAddr s.wav.base 44 0) 32 = .ok (bytesToBits [0x53, 0x54, 0x47, 0x31]) ∧
      readLsbs s.buf (lsbAddr s.wav.base 44 32) 8 = .ok (bytesToBits [0]) ∧
      readLsbs s.buf (lsbAddr s.wav.base 44 40) 32 = .ok (bytesToBits [0, 0, 0, 17]) ∧
      72 + 17 * 8 ≤ 416 / 2 ∧ 17 - 16 ≤ s.dst.len ∧ s.buf.read (lsbAddr s.wav.base 44 (72 + 135)) = none := by
  decide +kernel

/-- The successful clause, without ECC. -/
theorem witness_ExtractFollowsItsRule_plain :
    let s := sGet [0x53, 0x54, 0x47, 0x31, 0, 0, 0, 0, 17, 0xFF] 128 1
    s.keyv = true ∧ s.regionsOk s.wav s.dst = true ∧
      s.parseCarrier = .ok { dataOffset := 44, dataSize := 416, channelCount := 1 } ∧
      readLsbs s.buf (lsbAddr s.wav.base 44 0) 32 = .ok (bytesToBits [0x53, 0x54, 0x47, 0x31]) ∧
      readLsbs s.buf (lsbAddr s.wav.base 44 32) 8 = .ok (bytesToBits [0]) ∧
      readLsbs s.buf (lsbAddr s.wav.base 44 40) 32 = .ok (bytesToBits [0, 0, 0, 17]) ∧
      beNat (bitsToBytes (bytesToBits [0, 0, 0, 17])) = 17 ∧ 72 + 17 * 8 ≤ 416 / 2 ∧ 17 - 16 ≤ s.dst.len ∧
      readLsbs s.buf (lsbAddr s.wav.base 44 72) (17 * 8) = .ok (bytesToBits (0xFF :: List.replicate 16 0)) ∧
      (bitsToBytes (bytesToBits (0xFF :: List.replicate 16 0))).take 17 =
        (#v[0xFF, 0, 0, 0, 0, 0, 0, 0, 0, 0, 0, 0, 0, 0, 0, 0] : Bytes16).toList ++ [0] := by
  decide +kernel

/-- The successful clause with flag 2 (X12): 224 body bits, and an empty plaintext. -/
theorem witness_ExtractFollowsItsRule_ecc :
    let s := sGet [0x53, 0x54, 0x47, 0x31, 2, 0, 0, 0, 16] 224 0
    s.keyv = true ∧ s.regionsOk s.wav s.dst = true ∧
      s.parseCarrier = .ok { dataOffset := 44, dataSize := 592, channelCount := 1 } ∧
      readLsbs s.buf (lsbAddr s.wav.base 44 32) 8 = .ok (bytesToBits [2]) ∧
      readLsbs s.buf (lsbAddr s.wav.base 44 40) 32 = .ok (bytesToBits [0, 0, 0, 16]) ∧ 16 * 8 * 7 / 4 = 224 ∧
      72 + 224 ≤ 592 / 2 ∧ 16 - 16 ≤ s.dst.len ∧
      readLsbs s.buf (lsbAddr s.wav.base 44 72) 224 = .ok (List.replicate 224 false) ∧
      (bitsToBytes (hamDecode (List.replicate 224 false))).take 16 = (Vector.replicate 16 0 : Bytes16).toList ++ [] := by
  decide +kernel

theorem witness_ExtractFindsNoPayload :
    (let s := sGet [] 31 1
     s.keyv = true ∧ s.regionsOk s.wav s.dst = true ∧
      s.parseCarrier = .ok { dataOffset := 44, dataSize := 62, channelCount := 1 }) ∧
    (let s := sGet [0x53, 0x54, 0x47, 0x30] 0 1
     s.keyv = true ∧ s.regionsOk s.wav s.dst = true ∧
      s.parseCarrier = .ok { dataOffset := 44, dataSize := 64, channelCount := 1 } ∧
      (∀ i, i < 32 → (s.buf.read (lsbAddr s.wav.base 44 i)).isSome) ∧
      s.buf.read (lsbAddr s.wav.base 44 31) = some 0 ∧
      some ((0 : Byte).getLsbD 0) ≠ (bytesToBits [0x53, 0x54, 0x47, 0x31])[31]?) ∧
    let s := sGet [0x53, 0x54, 0x47, 0x31] 0 1
    (s.keyv = true ∧ s.regionsOk s.wav s.dst = true ∧
      s.parseCarrier = .ok { dataOffset := 44, dataSize := 64, channelCount := 1 }) ∧
    (∀ i : Fin 32, (s.buf.read (lsbAddr s.wav.base 44 i.val)).map (fun x => x.getLsbD 0) =
      (bytesToBits [0x53, 0x54, 0x47, 0x31])[i.val]?) ∧
    shows (exec .extract s) State.errcode = some 4 := by
  decide +kernel

/-! The bit functions. -/

theorem witness_HammingGroupCorrection :
    [false, false, false, false, false, false, false].count true = 0 ∧
    [false, false, false, false, false, false, true].count true = 1 ∧
    [true, true, false, false, false, false, false].count true = 2 ∧
    [true, true, true, true, true, true, true].count true = 7 := by decide

/-- The code of 1011 with its last position flipped. -/
theorem witness_HammingCorrectsOneFlipPerGroup :
    [false, true, true, false, false, true, false].length = (hamEncode [true, false, true, true]).length ∧
    ∀ i : Fin 7, [false, true, true, false, false, true, false][i.val]? ≠ (hamEncode [true, false, true, true])[i.val]? →
      i.val % 7 = (fun _ => 6) (i.val / 7) := by decide +kernel

theorem witness_HammingCodeGroupByGroup : 1 < ([true, true, true, true, true].length + 3) / 4 ∧
    [true, true, true, true, true].getD 4 false = true ∧ [true, true, true, true, true].getD 5 false = false := by decide

theorem witness_BitsAreTakenMostSignificantFirst : 1 < [0xA5#8, 0x00#8].length ∧
    1 < (bitsToBytes (List.replicate 9 true)).length := by decide +kernel

theorem witness_KeystreamIsCounterMode : 16 < (List.replicate 17 (0 : Byte)).length := by decide

/-! The cipher and the wire, with the block cipher that returns its block. -/

/-- The block cipher that returns its input block. -/
def idCipher : BlockCipher := fun _ b => b

/-- The state after an ENCRYPT with SRC set to its 17 output bytes and DST to the byte after them. -/
def decryptNext (t : State) : State := { t with srcBase := 0x100, srcLen := t.dstLen, dstBase := 0x111, dstCap := 1 }

/-- ENCRYPT of one byte into an area of 17 bytes, then DECRYPT of those bytes into an area of one. -/
theorem witness_DecryptUndoesEncrypt :
    (keyed (sSrc [0x6b] 17 0)).buf.readBytes 0 1 = some [0x6b] ∧
    ∃ t, finish (keyed (sSrc [0x6b] 17 0)) (encryptBody idCipher iva (keyed (sSrc [0x6b] 17 0))) = .next t ∧
      (t.err = false ∧ (decryptNext t).key = ka ∧ (decryptNext t).keyv = true ∧
        (decryptNext t).src.base = (keyed (sSrc [0x6b] 17 0)).dst.base ∧ (decryptNext t).src.len = t.dstLen.toNat ∧
        (decryptNext t).regionsOk (decryptNext t).src (decryptNext t).dst = true ∧ 1 ≤ (decryptNext t).dst.len) := by
  obtain ⟨t, ht, h⟩ := exists_of_shows (o := finish (keyed (sSrc [0x6b] 17 0))
      (encryptBody idCipher iva (keyed (sSrc [0x6b] 17 0))))
    (f := fun t => decide (t.err = false ∧ (decryptNext t).key = ka ∧ (decryptNext t).keyv = true ∧
        (decryptNext t).src.base = (keyed (sSrc [0x6b] 17 0)).dst.base ∧ (decryptNext t).src.len = t.dstLen.toNat ∧
        (decryptNext t).regionsOk (decryptNext t).src (decryptNext t).dst = true ∧ 1 ≤ (decryptNext t).dst.len))
    (v := true) (by decide +kernel)
  exact ⟨by decide +kernel, t, ht, of_decide_eq_true h⟩

/-- EMBED of an empty payload into 199 samples raises CapacityError (X3), whatever the block cipher and the IV. -/
theorem embed_capacity_199 (E : BlockCipher) (iv : Bytes16) (s : State) (c : Container) (hc : embedCarrier s = .ok c)
    (h1 : s.eccLatch = false) (h2 : s.srcLen = 0) (h3 : c.sampleCount = 199) :
    ∃ t, embedWith E iv s = .next t ∧ t.errcode = 2 := by
  have hP : s.drawn.buf.load s.drawn.src.base s.drawn.src.len = .ok [] := by simp [State.src, h2, Memory.readBytes]
  refine ⟨s.drawn.completeErr .capacityError, ?_, rfl⟩
  simp only [embedWith, hc, embedPayload, hP, ok_bind, State.drawn_eccLatch, h1, h3]
  rw [wire_length_x3 _ (by simp)]
  rfl

/-- X3: 199 samples are one short and 200 are enough. -/
theorem witness_EmbedCapacityBoundary :
    (embedCarrier (sCar (carrier [] 199) [] false 0) = .ok { dataOffset := 44, dataSize := 398, channelCount := 1 } ∧
      ∃ t, exec .embed (sCar (carrier [] 199) [] false 0) = .next t ∧ t.errcode = 2) ∧
    embedCarrier (okState .embed) = .ok { dataOffset := 44, dataSize := 400, channelCount := 1 } ∧
      ∃ t, exec .embed (okState .embed) = .next t ∧ t.errcode = 0 := by
  have hc : embedCarrier (sCar (carrier [] 199) [] false 0) =
      .ok { dataOffset := 44, dataSize := 398, channelCount := 1 } := by decide +kernel
  obtain ⟨-, t, ht, -, he, -⟩ := embed_ok_200 Config.blockCipher (Config.ivDraw (okState .embed).draws)
  have h199 := embed_capacity_199 Config.blockCipher (Config.ivDraw (sCar (carrier [] 199) [] false 0).draws) _ _ hc
    (by decide +kernel) (by decide +kernel) (by decide)
  exact ⟨⟨hc, h199⟩, parse_carrier_200, t, ht, he⟩

theorem witness_canonical_200 : (okState .embed).canonicalBuf := by
  unfold State.canonicalBuf
  decide +kernel

theorem witness_EmbedLaysOutTheWireFormat :
    (okState .embed).canonicalBuf ∧ (okState .embed).buf.readBytes 0x8000 0 = some [] ∧
    ∃ t, embedWith idCipher iva (okState .embed) = .next t ∧ t.err = false := by
  obtain ⟨-, t, ht, he, -⟩ := embed_ok_200 idCipher iva
  exact ⟨witness_canonical_200, rfl, t, ht, he⟩

/-- The state in which EXTRACT reads the carrier in `m` into the area of `cap` bytes at 0x9000. -/
def extractNext (m : Memory) (cap : Word) : State := { sCar (carrier [] 200) [] false cap with buf := m, payloadLen := 9 }

/-- X3's EMBED, and EXTRACT from the carrier it leaves. -/
theorem witness_EmbedExtractRoundTrip :
    (okState .embed).canonicalBuf ∧ (okState .embed).buf.readBytes 0x8000 0 = some [] ∧
    ∃ t, embedWith idCipher iva (okState .embed) = .next t ∧ t.err = false ∧
      (extractNext t.buf 0).buf.top = t.buf.top ∧
      (∀ a, 0 ≤ a → a < 444 → (extractNext t.buf 0).buf.read a = t.buf.read a) ∧
      (extractNext t.buf 0).wav = (okState .embed).wav ∧ (extractNext t.buf 0).key = (okState .embed).key ∧
      (extractNext t.buf 0).keyv = true ∧ (extractNext t.buf 0).inside (extractNext t.buf 0).dst = true ∧
      overlap (extractNext t.buf 0).wav (extractNext t.buf 0).dst = false ∧
      ([] : List Byte).length ≤ (extractNext t.buf 0).dst.len := by
  obtain ⟨-, t, ht, he, -, -, htop⟩ := embed_ok_200 idCipher iva
  refine ⟨witness_canonical_200, rfl, t, ht, he, rfl, fun _ _ _ => rfl, rfl, rfl, rfl, ?_, ?_, Nat.zero_le _⟩
  · show decide (0x9000 + 0 ≤ t.buf.top.toNat + 1) = true
    rw [htop]; rfl
  · show (decide _ && decide (0 < 0) && _ && _) = false
    simp

/-- X4: "hi" with ECC into exactly 328 samples. -/
def sFlip : State := sCar (carrier [] 328) [0x68, 0x69] true 2

/-- EXTRACT's state after X4's EMBED left `m` in BUF and the LSB of sample 72 + 7·35 was flipped: the low byte `x` at
address 678. -/
def flipNext (m : Memory) (x : Byte) : State := { sFlip with buf := m.write 678 (x ^^^ 1#8) }

/-- Group 35, the last one, is flipped at its first position; every other group is as it was. -/
theorem witness_ExtractToleratesOneFlipPerGroup :
    sFlip.canonicalBuf ∧ sFlip.eccLatch = true ∧ sFlip.buf.readBytes sFlip.src.base sFlip.src.len = some [0x68, 0x69] ∧
    ∃ t x, embedWith idCipher iva sFlip = .next t ∧ t.err = false ∧ t.buf.read 678 = some x ∧
      (flipNext t.buf x).buf.read 678 = some (x ^^^ 1#8) ∧
      (flipNext t.buf x).buf.top = t.buf.top ∧
      (∀ a, 0 ≤ a → a < 700 → (∀ g, g < 2 * (2 + 16) → a ≠ lsbAddr 0 t.dataOffset.toNat (72 + 7 * g + 0)) →
        (flipNext t.buf x).buf.read a = t.buf.read a) ∧
      (∀ g, g < 2 * (2 + 16) → ∃ y z, t.buf.read (lsbAddr 0 t.dataOffset.toNat (72 + 7 * g + 0)) = some y ∧
        (flipNext t.buf x).buf.read (lsbAddr 0 t.dataOffset.toNat (72 + 7 * g + 0)) = some z ∧
        (z = y ∨ z = y ^^^ 1#8)) ∧
      (flipNext t.buf x).wav = sFlip.wav ∧ (flipNext t.buf x).key = sFlip.key ∧ (flipNext t.buf x).keyv = true ∧
      (flipNext t.buf x).inside (flipNext t.buf x).dst = true ∧
      overlap (flipNext t.buf x).wav (flipNext t.buf x).dst = false ∧ 2 ≤ (flipNext t.buf x).dst.len := by
  have hc : embedCarrier sFlip = .ok { dataOffset := 44, dataSize := 656, channelCount := 1 } := by decide +kernel
  have hP : sFlip.buf.readBytes sFlip.src.base sFlip.src.len = some [0x68, 0x69] := by decide +kernel
  obtain ⟨-, t, ht, he, -, hd, htop, hlow⟩ := embed_succeeds idCipher iva sFlip _ _ (carrier [] 328)
    (cellsAt 0x8000 [0x68, 0x69]) hc hP
    (by have h := wire_length_x4 (encryptBytes idCipher sFlip.key iva [0x68, 0x69]) (by simp)
        rw [show sFlip.eccLatch = true from rfl, h]; decide) rfl
    (by rw [carrier_length]; decide)
  have hov : overlap sFlip.wav sFlip.dst = false := by decide +kernel
  have hcap : 2 ≤ sFlip.dst.len := by decide
  have hd' : t.dataOffset.toNat = 44 := by rw [hd]; rfl
  have hlow' : ∀ i, i < 328 → (t.buf.read (lsbAddr 0 44 i)).isSome := hlow
  obtain ⟨x, hx⟩ := Option.isSome_iff_exists.mp (hlow' 317 (by decide))
  have hwr : (flipNext t.buf x).buf.read 678 = some (x ^^^ 1#8) := by
    have hb : 678 < t.buf.bytes := by rw [Memory.bytes, htop]; decide
    exact (Memory.read_write t.buf 678 678 (x ^^^ 1#8) hb).trans (if_pos rfl)
  have hne : ∀ a, a ≠ 678 → (flipNext t.buf x).buf.read a = t.buf.read a := fun a ha =>
    Memory.read_write_ne t.buf 678 a _ ha
  refine ⟨by unfold State.canonicalBuf; decide +kernel, rfl, hP, t, x, ht, he, hx, hwr, by simp [flipNext], ?_, ?_,
    rfl, rfl, rfl, ?_, hov, hcap⟩
  · intro a _ _ h
    exact hne a (by have := h 35 (by decide); rw [hd'] at this; unfold lsbAddr at this; omega)
  · intro g hg
    rw [hd']
    obtain ⟨y, hy⟩ := Option.isSome_iff_exists.mp (hlow' (72 + 7 * g + 0) (by omega))
    by_cases h : g = 35
    · subst h
      exact ⟨x, _, hx, hwr, .inr rfl⟩
    · exact ⟨y, y, hy, by rw [hne _ (by unfold lsbAddr; omega)]; exact hy, .inl rfl⟩
  · show decide (0x9000 + 2 ≤ (t.buf.write 678 _).top.toNat + 1) = true
    rw [Memory.write_top, htop]; rfl

/-- EXTRACT with the block cipher that returns its block: a success, and NotFoundError (X6). -/
theorem witness_ExtractErrorsIgnoreTheKey :
    (∃ t, finish (okState .extract) (extractBody idCipher (okState .extract)) = .next t ∧ t.err = false) ∧
    ∃ t, finish (badState .extract) (extractBody idCipher (badState .extract)) = .next t ∧ t.err = true :=
  ⟨exists_of_shows (f := State.err) (by decide +kernel), exists_of_shows (f := State.err) (by decide +kernel)⟩

/-- Another history: other result registers and other STATUS fields. -/
def otherHistory (s : State) : State :=
  { s with
    dataOffset := 7, dataSize := 1, channels := 2, sampleCount := 9, dstLen := 3, payloadLen := 4, totalBits := 5
    done := true, err := true, errcode := 9, ovr := true, parsed := true, eccf := true }

theorem witness_EmbedAndExtractAreStateless (i : Instr) (s : State) :
    otherHistory s = { s with
      dataOffset := (otherHistory s).dataOffset, dataSize := (otherHistory s).dataSize
      channels := (otherHistory s).channels, sampleCount := (otherHistory s).sampleCount
      dstLen := (otherHistory s).dstLen, payloadLen := (otherHistory s).payloadLen
      totalBits := (otherHistory s).totalBits, done := (otherHistory s).done, err := (otherHistory s).err
      errcode := (otherHistory s).errcode, ovr := (otherHistory s).ovr, parsed := (otherHistory s).parsed
      eccf := (otherHistory s).eccf } ∧ ∃ t, exec i (okState i) = .next t ∧ t.err = false :=
  ⟨rfl, witness_commands_succeed i⟩

theorem witness_ChunkWalkEnds : (52 - 12) / 8 + 1 ≤ 6 ∧ (0 - 12) / 8 + 1 ≤ 1 := by decide

/-- An odd data size that ends at the carrier's last byte (W10). -/
theorem witness_ParsedContainerInsideCarrier :
    parseWav { top := 65535, cells := cellsAt 0 (h44 9 ++ [1, 2, 3, 4, 5, 6, 7, 8, 9]) } 0 53 =
      .ok { dataOffset := 44, dataSize := 9, channelCount := 1 } := by decide +kernel

/-- A state with a command pending and PARSED = 1. -/
def sInv : State := { sLsb 0xFF 1 3 4 with pending := some 7, key := ka.set 4 0 |>.set 5 0, keyw := 0xFD }

/-- The command done with an error, seven key words written, and the host about to write KEY1. -/
def sInvKey : State :=
  { sInv with
    key := (((ka.set 4 0).set 5 0).set 6 0).set 7 0, pending := none, done := true, err := true, errcode := 9
    agenda := [hostWr (.key 1) 0xBE71CA15] }

/-- The hypotheses of `StepKeepsCanonicalBuf`, `StepKeepsErrorRegisters`, `StepKeepsParsedCarrier`, `StepKeepsBusyQuiet` and
`StepKeepsUnwrittenKeyZero`, with BUSY, PARSED and ERR set and with a key word unwritten. -/
theorem witness_invariants :
    ((sInv.canonicalBuf ∧ sInv.errorRegsLegal ∧ sInv.parsedCarrier ∧ sInv.busyQuiet) ∧
      sInv.busy = true ∧ sInv.parsed = true ∧ ∃ t, step sInv = .next t ∧ t.err = false) ∧
    (sInvKey.canonicalBuf ∧ sInvKey.errorRegsLegal ∧ sInvKey.parsedCarrier ∧ sInvKey.busyQuiet ∧
      sInvKey.unwrittenKeyZero) ∧ sInvKey.err = true ∧ sInvKey.keyw = 0xFD ∧ ∃ t, step sInvKey = .next t ∧ t.keyv = true := by
  unfold State.canonicalBuf State.errorRegsLegal State.parsedCarrier State.busyQuiet State.unwrittenKeyZero
  refine ⟨⟨by decide +kernel, rfl, rfl, exists_of_shows (f := State.err) (by decide +kernel)⟩,
    by decide +kernel, rfl, rfl, exists_of_shows (f := State.keyv) (by decide +kernel)⟩

/-! The host. -/

theorem witness_SoftResetKeepsOnlyBuf :
    (0x80000000 : Word).getLsbD 31 = true ∧ (0xFFFFFFFF : Word).getLsbD 31 = true ∧
    ({ sFull with agenda := [hostWr .ctrl 0x80000000, .core] } : State).agenda = hostWr .ctrl 0x80000000 :: [.core] ∧
    ∃ t, step { sFull with agenda := [hostWr .ctrl 0x80000000, .core] } = .next t :=
  ⟨by decide, by decide, rfl, _, rfl⟩

theorem witness_AcceptanceLatchesTheCommand :
    ({ sLsb 0 0 0 0 with agenda := [hostWr .cmd 0xFFFFFFFF] } : State).busy = false ∧
    ({ sLsb 0 0 0 0 with agenda := [hostWr .cmd 0xFFFFFFFF] } : State).agenda = hostWr .cmd 0xFFFFFFFF :: [] := ⟨rfl, rfl⟩

/-- An operand write, a key word write and a KEYCLR while BUSY each turn OVR from 0 to 1. -/
theorem witness_BusyWritesAreIgnored :
    sFull.busy = true ∧ sFull.ovr = false ∧ (0x4 : Word).getLsbD 2 = true ∧ (0x4 : Word).getLsbD 31 = false ∧
    (∃ t, hostStep { space := .reg, addr := 0x030, width := 4, op := .write 9 } sFull = .next t ∧ t.ovr = true) ∧
    (∃ t, hostStep { space := .reg, addr := 0x06C, width := 4, op := .write 9 } sFull = .next t ∧ t.ovr = true) ∧
    ∃ t, hostStep { space := .reg, addr := 0x004, width := 4, op := .write 4 } sFull = .next t ∧ t.ovr = true :=
  ⟨rfl, rfl, by decide, by decide, exists_of_shows (f := State.ovr) (by decide +kernel),
    exists_of_shows (f := State.ovr) (by decide +kernel), exists_of_shows (f := State.ovr) (by decide +kernel)⟩

theorem witness_CtrlWriteActsInOrder :
    (∃ v : Word, v.getLsbD 31 = true ∧ v.getLsbD 2 = true) ∧
    (∃ v : Word, v.getLsbD 31 = false ∧ v.getLsbD 2 = true ∧ sFull.busy = true) ∧
    (∃ v : Word, v.getLsbD 31 = false ∧ v.getLsbD 2 = true ∧ (atReset []).busy = false) ∧
    ∃ v : Word, v.getLsbD 31 = false ∧ v.getLsbD 2 = false :=
  ⟨⟨0x80000004, by decide, by decide⟩, ⟨4, by decide, by decide, rfl⟩, ⟨4, by decide, by decide, rfl⟩,
    ⟨3, by decide, by decide⟩⟩

/-- BIT_COUNT is the last entry of the writable registers and KEY7 of the readable ones; the edges of the reserved
offsets; malformed accesses: 2 bytes wide, at offset 2, and at offset 0x100. -/
theorem witness_RegisterMapReadsAndWrites :
    (atReset []).busy = false ∧
    (∀ s : State, (0x06C, (0 : Word)) ∈ [(0x000, 0x53544731#32), (0x004, s.ctrlWord), (0x008, 0), (0x00C, s.statusWord),
      (0x010, s.wavBase), (0x014, s.wavLen), (0x018, s.srcBase), (0x01C, s.srcLen), (0x020, s.dstBase), (0x024, s.dstCap),
      (0x028, s.dstLen), (0x02C, s.bitStart), (0x030, s.bitCount), (0x034, s.dataOffset), (0x038, s.dataSize),
      (0x03C, s.channels), (0x040, s.sampleCount), (0x044, s.payloadLen), (0x048, s.totalBits),
      (0x050, 0), (0x054, 0), (0x058, 0), (0x05C, 0), (0x060, 0), (0x064, 0), (0x068, 0), (0x06C, 0)]) ∧
    (∀ (s : State) (v : Word), (0x030, { s with bitCount := v }) ∈
      [(0x010, { s with wavBase := v, parsed := false }), (0x014, { s with wavLen := v, parsed := false }),
      (0x018, { s with srcBase := v }), (0x01C, { s with srcLen := v }), (0x020, { s with dstBase := v }),
      (0x024, { s with dstCap := v }), (0x02C, { s with bitStart := v }), (0x030, { s with bitCount := v })]) ∧
    (∀ offset ∈ [0x04C, 0x070, 0x0FC], (offset = 0x04C ∨ 0x070 ≤ offset) ∧ offset % 4 = 0 ∧ offset < 0x100) ∧
    ((2 ≠ 4 ∨ 0x0FC % 4 ≠ 0 ∨ 0x100 ≤ 0x0FC) ∧ (4 ≠ 4 ∨ 2 % 4 ≠ 0 ∨ 0x100 ≤ 2) ∧ (4 ≠ 4 ∨ 0x100 % 4 ≠ 0 ∨ 0x100 ≤ 0x100)) :=
  ⟨rfl, fun _ => by simp, fun _ _ => by simp, by decide, by decide⟩

theorem witness_KeyWordsAssembleTheKey :
    ({ atReset [] with agenda := hostKeyload ka.toList ++ [.core] } : State).busy = false ∧
    ({ atReset [] with agenda := hostKeyload ka.toList ++ [.core] } : State).agenda = hostKeyload ka.toList ++ [.core] :=
  ⟨rfl, rfl⟩

theorem witness_KeyWordWriteSetsFourBytes : (keyed (atReset [])).busy = false ∧ (7 : Fin 8).val < 8 ∧ 31 / 4 = 7 :=
  ⟨rfl, by decide, by decide⟩

/-- Malformed: 2 bytes at an odd address, 3 bytes, and one byte past the end. Well formed: the last 4 bytes, unwritten,
partly written, and written. -/
theorem witness_HostBufAccess :
    ¬ (atReset []).bufAccessWellFormed 1 2 ∧ ¬ (atReset []).bufAccessWellFormed 0 3 ∧
    ¬ (atReset []).bufAccessWellFormed 65536 1 ∧
    (atReset []).bufAccessWellFormed 65532 4 ∧ (atReset []).bufAccessWellFormed 65535 1 ∧
    ({ atReset [] with pending := some 0 } : State).busy = true ∧ (atReset []).busy = false ∧
    (∃ i, i < 4 ∧ (atReset (cellsAt 65532 [1, 2, 3])).buf.read (65532 + i) = none) ∧
    [1#8, 2#8, 3#8, 4#8].length = 4 ∧
    ∀ i : Fin 4, (atReset (cellsAt 65532 [1, 2, 3, 4])).buf.read (65532 + i) = some [1#8, 2#8, 3#8, 4#8][i] := by
  unfold State.bufAccessWellFormed
  refine ⟨by decide, by decide, by decide, by decide, by decide, rfl, rfl, ⟨3, by decide, by decide⟩, rfl, by decide⟩

/-- While a command is pending: an operand write, and a CTRL write with every bit but bit 31 set. -/
theorem witness_HostCannotChangePendingOperands :
    sFull.busy = true ∧
    (∃ t, hostStep { space := .reg, addr := 0x018, width := 4, op := .write 1 } sFull = .next t) ∧
    (∃ t, hostStep { space := .reg, addr := 0x004, width := 4, op := .write 0x7FFFFFFF } sFull = .next t) ∧
    ¬ ∃ v, HostOp.write 0x7FFFFFFF = .write v ∧ v.getLsbD 31 = true := by
  refine ⟨rfl, ⟨_, rfl⟩, ⟨_, rfl⟩, ?_⟩
  rintro ⟨v, h, hv⟩
  cases h
  revert hv
  decide

theorem witness_HostReadsNeverRevealTheKey :
    (∃ f, hostStep { space := .buf, addr := 0, width := 1, op := .read } (keyed (atReset [])) = .fault f) ∧
    ∃ t, hostStep { space := .reg, addr := (Reg.key 0).offset, width := 4, op := .read } (keyed (atReset [])) = .next t :=
  ⟨⟨_, rfl⟩, _, rfl⟩

theorem witness_InterruptIsALevel :
    (0xE : Word).getLsbD 1 = true ∧ (0 : Word).getLsbD 0 = false ∧ (1 : Word).getLsbD 0 = true ∧
    (1 : Word).getLsbD 31 = false ∧ ∃ t, exec .parse ((okState .parse).regWrite .status 0xE) = .next t ∧ t.err = false :=
  ⟨by decide, by decide, by decide, by decide, exists_of_shows (f := State.err) (by decide +kernel)⟩

end Sys2Proof.Tests
end

section
/-! SUPPORT. What a host access can do while a command is pending, and the obligation on it (spec 00_scope R13, 10_state
R30, 70_reset_and_hazards R233, R241). -/

namespace Sys2Proof.Machine

/-! ### Register writes while BUSY -/

theorem State.unlessBusy_of_busy (s t : State) (hb : s.busy = true) : s.unlessBusy t = s.overrun := by
  simp [State.unlessBusy, hb]

/-- A CTRL write while BUSY, without SRST: IE and ECC are stored, and KEYCLR only sets OVR (10_state R25, R30). -/
theorem State.ctrlWrite_of_busy (s : State) (v : Word) (hb : s.busy = true) (hrst : v.getLsbD 31 = false) :
    s.ctrlWrite v = { s with ie := v.getLsbD 0, ecc := v.getLsbD 1, ovr := s.ovr || v.getLsbD 2 } := by
  simp only [State.ctrlWrite, hb, hrst, Bool.false_eq_true, if_true, if_false, State.overrun]
  cases v.getLsbD 2 <;> simp

/-- Everything a host write to a register can do while BUSY (10_state R30): only CTRL and STATUS take the value. -/
theorem State.regWrite_cases_of_busy (s : State) (r : Reg) (v : Word) (hb : s.busy = true) :
    s.regWrite r v = s ∨ s.regWrite r v = s.overrun ∨ s.regWrite r v = s.statusClear v ∨
    (r = .ctrl ∧ s.regWrite r v = s.ctrlWrite v) := by
  cases r with
  | id | dstLen | dataOffset | dataSize | channels | sampleCount | payloadLen | totalBits => exact .inl rfl
  | status => exact .inr (.inr (.inl rfl))
  | ctrl => exact .inr (.inr (.inr ⟨rfl, rfl⟩))
  | cmd | wavBase | wavLen | srcBase | srcLen | dstBase | dstCap | bitStart | bitCount | key =>
    exact .inr (.inl (s.unlessBusy_of_busy _ hb))

/-! ### What a pending command reads -/

/-- `t` is `s` but for what a host access may change while a command is pending: CTRL, DONE, ERR, ERRCODE, OVR and the
model's record of host reads. All that the command reads is as in `s`. -/
def State.sameForPending (s t : State) : Prop :=
  t = { s with ie := t.ie, ecc := t.ecc, done := t.done, err := t.err, errcode := t.errcode, ovr := t.ovr,
               hostReads := t.hostReads }

theorem State.sameForPending.pending_eq {s t : State} (h : s.sameForPending t) : t.pending = s.pending :=
  (congrArg State.pending h :)

theorem State.sameForPending.busy_eq {s t : State} (h : s.sameForPending t) : t.busy = s.busy :=
  (congrArg State.busy h :)

/-- A register write while BUSY keeps what the pending command reads, unless it is a soft reset (70_reset_and_hazards
R233). -/
theorem State.sameForPending_regWrite (s : State) (r : Reg) (v : Word) (hb : s.busy = true)
    (hrst : r = .ctrl → v.getLsbD 31 = false) : s.sameForPending (s.regWrite r v) := by
  obtain h | h | h | ⟨hr, h⟩ := s.regWrite_cases_of_busy r v hb
  · rw [h]; rfl
  · rw [h]; rfl
  · rw [h]; rfl
  · rw [h, s.ctrlWrite_of_busy v hb (hrst hr)]; rfl

/-- Settles O58: a read changes only the record of host reads, a register write that is no soft reset is covered by
`State.sameForPending_regWrite`, and BUF is not written while BUSY. -/
theorem hostCannotChangePendingOperands : Obligations.HostCannotChangePendingOperands := by
  intro a s t hb hstep hno
  have same : s.sameForPending t := by
    obtain ⟨v, rfl⟩ | rfl | ⟨r, v, rfl, rfl⟩ | ⟨hidle, -⟩ := hostStep_next a s t hstep
    · rfl
    · rfl
    · refine s.sameForPending_regWrite r v hb ?_
      rintro rfl
      exact Bool.eq_false_iff.mpr fun hsrst => hno ⟨rfl, rfl, v, rfl, hsrst⟩
    · exact absurd hb (by simp [hidle])
  exact ⟨same.busy_eq.trans hb, same.pending_eq, same⟩

end Sys2Proof.Machine
end

section
/-! SUPPORT. Invariants of every step, packaged once: what an invariant has to withstand, and the rule that lifts it to
`step` (spec 10_state R20, 60_exceptions R202). Then the error registers. -/

namespace Sys2Proof.Machine

/-! ### The rule -/

/-- `t` is `s` but for fields no invariant speaks of: CTRL, OVR, the operand registers of SRC, DST and BIT, and the
model's own fields. -/
def State.sameTracked (s t : State) : Prop :=
  t = { s with
    ie := t.ie, ecc := t.ecc, ovr := t.ovr, srcBase := t.srcBase, srcLen := t.srcLen, dstBase := t.dstBase
    dstCap := t.dstCap, bitStart := t.bitStart, bitCount := t.bitCount, draws := t.draws, agenda := t.agenda
    hostReads := t.hostReads }

/-- What a predicate on states has to withstand to be kept by every step: one field for each change of the tracked state
that a host access, a reset or the completion of a command makes. -/
structure Withstands (P : State → Prop) : Prop where
  untracked : ∀ s t, s.sameTracked t → P s → P t
  keyClear : ∀ s, P s → P s.keyClear
  keyWrite : ∀ s k v, P s → P (s.keyWrite k v)
  softReset : ∀ s, P s → P s.softReset
  powerOn : ∀ s, P s → P s.powerOn
  statusClear : ∀ s v, P s → P (s.statusClear v)
  accept : ∀ s w, P s → P (s.accept w)
  carrierWrite : ∀ s base len, P s → P { s with wavBase := base, wavLen := len, parsed := false }
  bufWrite : ∀ s addr bs, P s → P { s with buf := s.buf.writeBytes addr bs }
  completeErr : ∀ s e, P s → P (s.completeErr e)
  completeOk : ∀ i s u, OwnWrites i s u → P s → P u.completeOk

section
variable {P : State → Prop} (hP : Withstands P)
include hP

theorem Withstands.regWrite (s : State) (r : Reg) (v : Word) (hs : P s) : P (s.regWrite r v) := by
  obtain h | h | ⟨ie, ecc, h⟩ | ⟨-, ie, ecc, h⟩ | ⟨-, ie, ecc, h⟩ | h | h | ⟨-, h⟩ | ⟨-, base, len, h⟩ |
    ⟨-, sb, sl, db, dc, bs, bc, h⟩ | ⟨-, k, h⟩ := s.regWrite_cases r v <;> rw [h]
  · exact hs
  · exact hP.untracked s _ rfl hs
  · exact hP.untracked s _ rfl hs
  · exact hP.untracked s _ rfl hs
  · exact hP.keyClear _ (hP.untracked s _ rfl hs)
  · exact hP.softReset s hs
  · exact hP.statusClear s v hs
  · exact hP.accept s v hs
  · exact hP.carrierWrite s base len hs
  · exact hP.untracked s _ rfl hs
  · exact hP.keyWrite s k v hs

theorem Withstands.hostStep (a : HostAccess) (s t : State) (h : hostStep a s = .next t) (hs : P s) : P t := by
  obtain ⟨v, rfl⟩ | rfl | ⟨r, v, -, rfl⟩ | ⟨-, addr, bs, rfl⟩ := hostStep_next a s t h
  · exact hP.untracked s _ rfl hs
  · exact hs
  · exact hP.regWrite s r v hs
  · exact hP.bufWrite s addr bs hs

theorem Withstands.exec (i : Instr) (s t : State) (h : exec i s = .next t) (hs : P s) : P t := by
  obtain ⟨u, hu, rfl⟩ | ⟨e, -, d, rfl⟩ := exec_next i s t h
  · exact hP.completeOk i s u hu hs
  · exact hP.completeErr _ e (hP.untracked s _ rfl hs)

/-- An invariant that withstands every change of the tracked state is kept by every step. -/
theorem Withstands.step (s t : State) (hs : P s) (h : step s = .next t) : P t := by
  obtain ⟨turns, u, rfl, hcases⟩ := step_next s t h
  have hu : P (s.withAgenda turns) := hP.untracked s _ rfl hs
  obtain rfl | ⟨i, hexec⟩ | rfl | ⟨a, hhost⟩ | rfl := hcases
  · exact hu
  · exact hP.exec i _ t hexec hu
  · exact hP.completeErr _ _ hu
  · exact hP.hostStep a _ t hhost hu
  · exact hP.powerOn _ hu

end

/-! ### The error registers -/

/-- The nine error codes are 1 to 9 (60_exceptions R201). -/
theorem CmdError.code_legal (e : CmdError) : 1 ≤ e.code.toNat ∧ e.code.toNat ≤ 9 := by
  cases e <;> decide

theorem State.errorRegsLegal_of_clear (s : State) (herr : s.err = false) (hcode : s.errcode = 0) :
    s.errorRegsLegal :=
  ⟨fun _ => hcode, fun h => absurd h (by simp [herr])⟩

/-- Write 1 to clear takes ERR and ERRCODE together (10_state R29). -/
theorem State.errorRegsLegal_statusClear (s : State) (v : Word) (hs : s.errorRegsLegal) :
    (s.statusClear v).errorRegsLegal := by
  cases hbit : v[2] with
  | true => exact State.errorRegsLegal_of_clear _ (by simp [hbit]) (by simp [hbit])
  | false => simpa [State.errorRegsLegal, hbit] using hs

theorem State.errorRegsLegal_withstands : Withstands State.errorRegsLegal where
  untracked s t h hs := by rw [h]; exact hs
  keyClear _ hs := hs
  keyWrite _ _ _ hs := hs
  softReset _ _ := State.errorRegsLegal_of_clear _ rfl rfl
  powerOn _ _ := State.errorRegsLegal_of_clear _ rfl rfl
  statusClear := State.errorRegsLegal_statusClear
  accept _ _ _ := State.errorRegsLegal_of_clear _ rfl rfl
  carrierWrite _ _ _ hs := hs
  bufWrite _ _ _ hs := hs
  completeErr s e _ := ⟨fun h => absurd h (by simp), fun _ => e.code_legal⟩
  completeOk _ _ _ _ _ := State.errorRegsLegal_of_clear _ rfl rfl

/-- Settles O43: a completion sets ERR and a code of 1 to 9 together, and whatever clears ERR clears the code. -/
theorem stepKeepsErrorRegisters : Obligations.StepKeepsErrorRegisters :=
  State.errorRegsLegal_withstands.step

end Sys2Proof.Machine
end

section
/-! SUPPORT. Where the parser finds a container, and the invariants that every step keeps beside the error registers
(spec 40_container R111, R116; 10_state R27, R36, R39 to R44). -/

namespace Sys2Proof.Machine

/-! ### Where a container lies -/

/-- The channel count of a `fmt ` chunk is two bytes (30_encoding R101). -/
theorem loadFmt_channels_lt (m : Memory) (wav cur : Nat) (f : FmtChunk) (h : loadFmt m wav cur = .ok f) :
    f.channels < 2 ^ 16 := by
  simp only [loadFmt, bind_ok, Memory.load_ok, pure_eq_ok, Except.ok.injEq] at h
  obtain ⟨-, -, c, hc, -, -, rfl⟩ := h
  have hlt := leNat_lt c
  rwa [m.length_of_readBytes _ _ _ hc] at hlt

/-- What the walk over the chunks knows at carrier offset `cur`: it is even and past the RIFF header, and once a `fmt `
chunk has been seen it is past that chunk too. -/
def WalkInv (cur : Nat) (fmt : Option FmtChunk) : Prop :=
  cur % 2 = 0 ∧ 12 ≤ cur ∧ ∀ f, fmt = some f → 36 ≤ cur ∧ f.channels < 2 ^ 16

theorem WalkInv.nextChunk {cur : Nat} {fmt : Option FmtChunk} (h : WalkInv cur fmt) (size : Nat) :
    WalkInv (nextChunk cur size) fmt := by
  obtain ⟨heven, hlow, hfmt⟩ := h
  have hle : cur ≤ Machine.nextChunk cur size := by unfold Machine.nextChunk; omega
  refine ⟨by unfold Machine.nextChunk; omega, hlow.trans hle, fun f hf => ?_⟩
  obtain ⟨hpast, hch⟩ := hfmt f hf
  exact ⟨hpast.trans hle, hch⟩

theorem WalkInv.nextChunk_of_fmt {cur : Nat} {fmt : Option FmtChunk} (h : WalkInv cur fmt) (size : Nat) (f : FmtChunk)
    (hsize : 16 ≤ size) (hch : f.channels < 2 ^ 16) : WalkInv (Machine.nextChunk cur size) (some f) := by
  obtain ⟨heven, hlow, -⟩ := h
  refine ⟨by unfold Machine.nextChunk; omega, by unfold Machine.nextChunk; omega, ?_⟩
  rintro _ ⟨⟩
  exact ⟨by unfold Machine.nextChunk; omega, hch⟩

/-- The walk ends at a `data` chunk whose head stands where the walk's invariant holds. -/
theorem walkChunks_inv (m : Memory) (wav len fuel cur : Nat) (fmt : Option FmtChunk) (w : WalkEnd)
    (h : walkChunks m wav len fuel cur fmt = .ok w) (hinv : WalkInv cur fmt) (offset size : Nat)
    (hdata : w.data = some (offset, size)) : ∃ e, offset = e + 8 ∧ WalkInv e w.fmt := by
  induction fuel generalizing cur fmt with
  | zero =>
    obtain rfl := Except.ok.inj h
    cases hdata
  | succ fuel ih =>
    unfold walkChunks at h
    split at h
    · obtain rfl := Except.ok.inj h
      cases hdata
    · split at h
      · obtain rfl := Except.ok.inj h
        cases hdata
      · simp only [bind_ok] at h
        obtain ⟨id, -, sizeBytes, -, h⟩ := h
        split at h
        · simp only [bind_ok, require_ok, Bool.and_eq_true, decide_eq_true_eq] at h
          obtain ⟨-, ⟨hsize, -⟩, f, hf, h⟩ := h
          exact ih _ _ h (hinv.nextChunk_of_fmt _ f hsize (loadFmt_channels_lt _ _ _ _ hf))
        · split at h
          · obtain rfl := Except.ok.inj h
            obtain ⟨rfl, rfl⟩ := Prod.mk.inj (Option.some.inj hdata)
            exact ⟨cur, rfl, hinv⟩
          · exact ih _ _ h (hinv.nextChunk _)

/-- A container comes from a `data` chunk with a `fmt ` chunk seen before it, and ends inside the carrier (40_container
R111). -/
theorem containerOf_ok (len : Nat) (w : WalkEnd) (c : Container) (h : containerOf len w = .ok c) :
    w.data = some (c.dataOffset, c.dataSize) ∧ c.dataOffset + c.dataSize ≤ len ∧
      ∃ f, w.fmt = some f ∧ c.channelCount = f.channels := by
  unfold containerOf at h
  split at h
  · next offset size f hdata hfmt =>
    simp only [bind_ok, require_ok, decide_eq_true_eq, pure_eq_ok, Except.ok.injEq] at h
    obtain ⟨-, -, -, hlen, rfl⟩ := h
    exact ⟨hdata, hlen, f, hfmt, rfl⟩
  · cases h

/-- Where an accepted container lies: at an even carrier offset past a `fmt ` chunk, and inside the carrier (40_container
R111, 20_memory R67). -/
theorem parseWav_ok_bounds (m : Memory) (wav len : Nat) (c : Container) (h : parseWav m wav len = .ok c) :
    c.dataOffset % 2 = 0 ∧ 44 ≤ c.dataOffset ∧ c.dataOffset + c.dataSize ≤ len ∧ c.channelCount < 2 ^ 16 := by
  simp only [parseWav, bind_ok] at h
  obtain ⟨-, -, -, -, -, -, -, -, -, -, w, hwalk, hc⟩ := h
  obtain ⟨hdata, hlen, f, hfmt, hcount⟩ := containerOf_ok len w c hc
  obtain ⟨e, he, heven, -, hseen⟩ := walkChunks_inv _ _ _ _ _ _ _ hwalk ⟨rfl, Nat.le_refl _, by simp⟩ _ _ hdata
  obtain ⟨hpast, hch⟩ := hseen f hfmt
  exact ⟨by omega, by omega, hlen, by omega⟩

/-! ### The meaning of PARSED -/

theorem State.inside_eq_true (s : State) (r : Region) : s.inside r = true ↔ r.base + r.len ≤ s.bufBytes := by
  simp [State.inside]

theorem State.inside_of_regionsOk (s : State) (p q : Region) (h : s.regionsOk p q = true) : s.inside p = true := by
  simp only [State.regionsOk, Bool.and_eq_true] at h
  exact h.1.1

/-- `t` has the container registers, the carrier registers, PARSED and the size of BUF of `s`. -/
def State.sameContainer (s t : State) : Prop :=
  t.parsed = s.parsed ∧ t.dataOffset = s.dataOffset ∧ t.dataSize = s.dataSize ∧ t.channels = s.channels ∧
    t.sampleCount = s.sampleCount ∧ t.wavBase = s.wavBase ∧ t.wavLen = s.wavLen ∧ t.buf.top = s.buf.top

theorem State.sameContainer.parsedCarrier {s t : State} (h : s.sameContainer t) (hs : s.parsedCarrier) :
    t.parsedCarrier := by
  obtain ⟨hparsed, hoffset, hsize, hchannels, hcount, hbase, hlen, htop⟩ := h
  simpa only [State.parsedCarrier, State.wav, State.bufBytes, Memory.bytes, hparsed, hoffset, hsize, hchannels, hcount,
    hbase, hlen, htop] using hs

theorem State.parsedCarrier_of_not_parsed (s : State) (h : s.parsed = false) : s.parsedCarrier :=
  fun hp => absurd hp (by simp [h])

/-- A container parsed from a carrier inside BUF gives registers that describe it: no number is cut at 32 bits, because
the carrier's length is a register value. -/
theorem State.parsedCarrier_withContainer (s : State) (c : Container) (hin : s.inside s.wav = true)
    (hc : s.parseCarrier = .ok c) : (s.withContainer c).parsedCarrier := by
  obtain ⟨heven, hpast, hend, hch⟩ := parseWav_ok_bounds _ _ _ c hc
  have hlen : s.wav.len < 2 ^ 32 := s.wavLen.isLt
  have cut : ∀ n, n < 2 ^ 32 → (BitVec.ofNat 32 n).toNat = n := fun n hn =>
    (BitVec.toNat_ofNat n 32).trans (Nat.mod_eq_of_lt hn)
  intro _
  simp only [withContainer_dataOffset, withContainer_dataSize, withContainer_sampleCount, withContainer_channels]
  rw [cut c.dataOffset (by omega), cut c.dataSize (by omega), cut c.channelCount (by omega),
    cut c.sampleCount (by unfold Container.sampleCount; omega)]
  exact ⟨(s.inside_eq_true s.wav).mp hin, hend, hpast, heven, rfl, hch⟩

/-- A command's own writes leave the container as it is, or they are those of PARSE, EMBED and EXTRACT: the registers of
a container parsed from the carrier inside BUF (10_state R36, R39). -/
theorem OwnWrites.container {i : Instr} {s u : State} (h : OwnWrites i s u) :
    s.sameContainer u ∨
    ∃ c, s.inside s.wav = true ∧ s.parseCarrier = .ok c ∧ (s.withContainer c).sameContainer u := by
  cases i with
  | parse =>
    obtain ⟨hin, c, hc, rfl⟩ := (parseBody_ok _ _).mp h
    exact .inr ⟨c, hin, hc, by simp [State.sameContainer]⟩
  | kdf => obtain ⟨-, pw, -, rfl⟩ := (kdfBody_ok _ _ _).mp h; exact .inl (by simp [State.sameContainer])
  | encrypt =>
    obtain ⟨-, -, -, P, -, rfl⟩ := (encryptBody_ok _ _ _ _).mp h
    exact .inl (by simp [State.sameContainer])
  | decrypt =>
    obtain ⟨-, -, -, -, C, -, rfl⟩ := (decryptBody_ok _ _ _).mp h
    exact .inl (by simp [State.sameContainer])
  | henc | hdec =>
    obtain ⟨-, -, bits, -, -, rfl⟩ := (codeBody_ok _ _ _).mp h
    exact .inl (by simp [State.sameContainer])
  | lsbwr =>
    obtain ⟨-, -, -, -, bits, -, m, hm, rfl⟩ := (lsbwrBody_ok _ _).mp h
    exact .inl (by simp [State.sameContainer, (writeLsbs_ok_frame _ _ _ _ hm).1])
  | lsbrd => obtain ⟨-, -, -, -, bits, -, rfl⟩ := (lsbrdBody_ok _ _).mp h; exact .inl (by simp [State.sameContainer])
  | embed =>
    obtain ⟨c, hcarrier, h⟩ := h
    obtain ⟨-, hregions, hc⟩ := (embedCarrier_ok _ _).mp hcarrier
    obtain ⟨P, -, -, m, hm, rfl⟩ := (embedPayload_ok _ _ _ _ _).mp h
    exact .inr ⟨c, s.inside_of_regionsOk _ _ hregions, hc,
      by simp [State.sameContainer, (writeLsbs_ok_frame _ _ _ _ hm).1]⟩
  | extract =>
    obtain ⟨-, hregions, c, hc, -, -, -, -, -, enc, -, rfl⟩ := (extractBody_ok _ _ _).mp h
    exact .inr ⟨c, s.inside_of_regionsOk _ _ hregions, hc, by simp [State.sameContainer]⟩

theorem OwnWrites.parsedCarrier {i : Instr} {s u : State} (h : OwnWrites i s u) (hs : s.parsedCarrier) :
    u.parsedCarrier := by
  obtain hsame | ⟨c, hin, hc, hsame⟩ := h.container
  · exact hsame.parsedCarrier hs
  · exact hsame.parsedCarrier (s.parsedCarrier_withContainer c hin hc)

theorem State.parsedCarrier_completeErr (s : State) (e : CmdError) (hs : s.parsedCarrier) :
    (s.completeErr e).parsedCarrier := by
  by_cases he : e = .formatError
  · exact State.parsedCarrier_of_not_parsed _ (by simp [he])
  · exact State.sameContainer.parsedCarrier (by simp [State.sameContainer, he]) hs

theorem State.parsedCarrier_withstands : Withstands State.parsedCarrier where
  untracked s t h hs := by rw [h]; exact hs
  keyClear _ hs := hs
  keyWrite _ _ _ hs := hs
  softReset _ _ := State.parsedCarrier_of_not_parsed _ rfl
  powerOn _ _ := State.parsedCarrier_of_not_parsed _ rfl
  statusClear _ _ hs := hs
  accept _ _ hs := hs
  carrierWrite _ _ _ _ := State.parsedCarrier_of_not_parsed _ rfl
  bufWrite s _ _ hs := State.sameContainer.parsedCarrier (by simp [State.sameContainer]) hs
  completeErr := State.parsedCarrier_completeErr
  completeOk _ _ _ hu hs := hu.parsedCarrier hs

/-- Settles O44: only a parse of the carrier inside BUF sets PARSED, and a write to a carrier register clears it. -/
theorem stepKeepsParsedCarrier : Obligations.StepKeepsParsedCarrier :=
  State.parsedCarrier_withstands.step

/-! ### DONE, ERR and ERRCODE of a pending command -/

theorem State.busyQuiet_of_not_busy (s : State) (h : s.pending = none) : s.busyQuiet :=
  fun hb => absurd hb (by simp [State.busy, h])

theorem State.busyQuiet_withstands : Withstands State.busyQuiet where
  untracked s t h hs := by rw [h]; exact hs
  keyClear _ hs := hs
  keyWrite _ _ _ hs := hs
  softReset _ _ := State.busyQuiet_of_not_busy _ rfl
  powerOn _ _ := State.busyQuiet_of_not_busy _ rfl
  statusClear s v hs hb := by
    obtain ⟨hdone, herr, hcode⟩ := hs hb
    simp [hdone, herr, hcode]
  accept _ _ _ _ := ⟨rfl, rfl, rfl⟩
  carrierWrite _ _ _ hs := hs
  bufWrite _ _ _ hs := hs
  completeErr _ _ _ := State.busyQuiet_of_not_busy _ rfl
  completeOk _ _ _ _ _ := State.busyQuiet_of_not_busy _ rfl

/-- Settles O45: acceptance clears the three fields, and the completion that sets them takes the pending word. -/
theorem stepKeepsBusyQuiet : Obligations.StepKeepsBusyQuiet :=
  State.busyQuiet_withstands.step

/-! ### The key store -/

/-- Bit `b` of keyw after a write to KEYk (10_state R41). -/
theorem State.keyWrite_keyw_getLsbD (s : State) (k : Fin 8) (v : Word) (b : Nat) (hb : b < 8) :
    (s.keyWrite k v).keyw.getLsbD b = (decide (b = k.val) || s.keyw.getLsbD b) := by
  have hbit : (1#8 <<< k.val).getLsbD b = decide (b = k.val) := by
    rw [Bool.eq_iff_iff]
    simp [hb]
    omega
  rw [keyWrite_keyw, BitVec.getLsbD_or, hbit, Bool.or_comm]

theorem State.unwrittenKeyZero_of_zero (s : State) (h : s.key = Vector.replicate 32 0) : s.unwrittenKeyZero := by
  intro i _
  simp [h]

theorem State.unwrittenKeyZero_of_keyw_full (s : State) (h : s.keyw = 0xFF) : s.unwrittenKeyZero := by
  intro i hbit
  have hfull : ∀ b : Fin 8, (0xFF#8).getLsbD b.val = true := by decide
  exact absurd ((congrArg (·.getLsbD (i.val / 4)) h).symm.trans hbit) (by simp [hfull ⟨i.val / 4, by omega⟩])

theorem State.unwrittenKeyZero_keyWrite (s : State) (k : Fin 8) (v : Word) (hs : s.unwrittenKeyZero) :
    (s.keyWrite k v).unwrittenKeyZero := by
  intro i hbit
  rw [s.keyWrite_keyw_getLsbD k v _ (by omega)] at hbit
  obtain ⟨hne, hunwritten⟩ := Bool.or_eq_false_iff.mp hbit
  have hother : i.val / 4 ≠ k.val := by simpa using hne
  calc (s.keyWrite k v).key[i] = s.key[i] := by simp [keyWithWord_getElem, hother]
    _ = 0 := hs i hunwritten

theorem OwnWrites.unwrittenKeyZero {i : Instr} {s u : State} (h : OwnWrites i s u) (hs : s.unwrittenKeyZero) :
    u.unwrittenKeyZero := by
  by_cases hi : i = .kdf
  · subst hi
    obtain ⟨-, pw, -, rfl⟩ := (kdfBody_ok _ _ _).mp h
    exact State.unwrittenKeyZero_of_keyw_full _ rfl
  · obtain ⟨-, -, -, -, -, -, -, -, -, -, -, -, -, -, -, hstore⟩ := h.keeps
    obtain ⟨hkey, hkeyw⟩ := hstore hi
    simpa only [State.unwrittenKeyZero, hkey, hkeyw] using hs

theorem State.unwrittenKeyZero_withstands : Withstands State.unwrittenKeyZero where
  untracked s t h hs := by rw [h]; exact hs
  keyClear s _ := State.unwrittenKeyZero_of_zero _ s.keyClear_key
  keyWrite := State.unwrittenKeyZero_keyWrite
  softReset _ _ := State.unwrittenKeyZero_of_zero _ rfl
  powerOn _ _ := State.unwrittenKeyZero_of_zero _ rfl
  statusClear _ _ hs := hs
  accept _ _ hs := hs
  carrierWrite _ _ _ hs := hs
  bufWrite _ _ _ hs := hs
  completeErr _ _ hs := hs
  completeOk _ _ _ hu hs := hu.unwrittenKeyZero hs

/-- Settles O46: a key word's bytes change together with its bit of keyw, and whatever clears keyw clears the key. -/
theorem stepKeepsUnwrittenKeyZero : Obligations.StepKeepsUnwrittenKeyZero :=
  State.unwrittenKeyZero_withstands.step

end Sys2Proof.Machine
end

section
/-! SUPPORT. What one step and one host access to a register do: the turns of the agenda, acceptance, CTRL and STATUS
writes, key words, overrun, and that nothing the host sees depends on the key (spec 10_state R20 to R43, 70_reset_and_hazards
R236). -/

namespace Sys2Proof.Machine

/-! ### Turns -/

theorem step_of_agenda_nil (s : State) (h : s.agenda = []) : step s = coreStep s := by
  simp only [step, h]

theorem step_of_core (s : State) (rest : List Turn) (h : s.agenda = .core :: rest) :
    step s = coreStep (s.withAgenda rest) := by
  simp only [step, h]

theorem step_of_host (s : State) (a : HostAccess) (rest : List Turn) (h : s.agenda = .host a :: rest) :
    step s = hostStep a (s.withAgenda rest) := by
  simp only [step, h]

theorem step_of_powerOn (s : State) (rest : List Turn) (h : s.agenda = .powerOn :: rest) :
    step s = .next (s.withAgenda rest).powerOn := by
  simp only [step, h]

theorem coreStep_of_decode (s : State) (w : Word) (i : Instr) (hw : s.pending = some w) (hi : decode w = .ok i) :
    coreStep s = exec i s := by
  simp only [coreStep, hw, hi]

theorem coreStep_of_idle (s : State) (h : s.pending = none) : coreStep s = .next s := by
  simp only [coreStep, h]

/-- A host's write to a register as the next turn of a run (30_encoding R96). -/
theorem step_of_hostWr (s : State) (r : Reg) (v : Word) (rest : List Turn) (h : s.agenda = hostWr r v :: rest) :
    step s = .next ((s.withAgenda rest).regWrite r v) :=
  (step_of_host s _ rest h).trans (hostStep_write _ r v)

/-- Settles O3: one equation per kind of turn. -/
theorem stepPerformsTheDecodedCommand : Obligations.StepPerformsTheDecodedCommand := by
  refine ⟨fun s w i hw hi => ⟨fun h => ?_, fun rest h => ?_⟩, fun s hidle => ⟨fun h => ?_, fun rest h => ?_⟩,
    step_of_host, step_of_powerOn⟩
  · rw [step_of_agenda_nil s h, coreStep_of_decode s w i hw hi]
  · exact (step_of_core s rest h).trans (coreStep_of_decode _ w i hw hi)
  · rw [step_of_agenda_nil s h, coreStep_of_idle s hidle]
  · exact (step_of_core s rest h).trans (coreStep_of_idle _ hidle)

/-! ### Register writes -/

theorem State.unlessBusy_of_idle (s t : State) (hb : s.busy = false) : s.unlessBusy t = t := by
  simp [State.unlessBusy, hb]

/-- Settles O50: CMD is accepted while BUSY = 0. -/
theorem acceptanceLatchesTheCommand : Obligations.AcceptanceLatchesTheCommand := by
  intro s w rest hb h
  refine ⟨(s.withAgenda rest).accept w, ?_, rfl, rfl⟩
  rw [step_of_hostWr s .cmd w rest h]
  exact congrArg Host.Outcome.next (State.unlessBusy_of_idle _ _ hb)

/-- A CTRL write without KEYCLR and SRST, or with KEYCLR while BUSY = 0 (10_state R25). While BUSY it is
`State.ctrlWrite_of_busy`. -/
theorem State.ctrlWrite_of_idle (s : State) (v : Word) (hb : s.busy = false) (hrst : v.getLsbD 31 = false) :
    s.ctrlWrite v = if v.getLsbD 2 then State.keyClear { s with ie := v.getLsbD 0, ecc := v.getLsbD 1 }
      else { s with ie := v.getLsbD 0, ecc := v.getLsbD 1 } := by
  simp only [State.ctrlWrite, hb, hrst, Bool.false_eq_true, if_false]

/-- A CTRL write with SRST resets whatever its other bits did first, but BUF (10_state R25). -/
theorem State.ctrlWrite_of_srst (s : State) (v : Word) (hrst : v.getLsbD 31 = true) : s.ctrlWrite v = s.softReset := by
  simp only [State.ctrlWrite, hrst, if_true]
  cases v.getLsbD 2 <;> cases s.busy <;> rfl

/-- Settles O52: with SRST the reset; else by BUSY, where KEYCLR is an overrun or a clear. -/
theorem ctrlWriteActsInOrder : Obligations.CtrlWriteActsInOrder := by
  intro s v
  refine ⟨s.ctrlWrite v, hostStep_write s .ctrl v, ?_⟩
  cases hrst : v.getLsbD 31 with
  | true => rw [s.ctrlWrite_of_srst v hrst]; rfl
  | false =>
    cases hb : s.busy with
    | true => rw [s.ctrlWrite_of_busy v hb hrst]; cases v.getLsbD 2 <;> simp
    | false => rw [s.ctrlWrite_of_idle v hb hrst]; cases v.getLsbD 2 <;> rfl

/-- Settles O53: a STATUS write is `State.statusClear`, and a read is recorded. -/
theorem statusWriteOneToClear : Obligations.StatusWriteOneToClear := by
  intro s v
  refine ⟨(hostStep_write s .status v).trans (congrArg Host.Outcome.next ?_), hostStep_read s .status⟩
  simp only [State.regWrite, State.statusClear]
  cases v.getLsbD 1 <;> cases v.getLsbD 2 <;> cases v.getLsbD 3 <;> simp

/-! ### Overrun -/

theorem State.busy_of_unlessBusy_ovr (s t : State) (hset : (s.unlessBusy t).ovr = true) (ht : t.ovr = false) :
    s.busy = true := by
  by_contra hb
  rw [s.unlessBusy_of_idle t (Bool.eq_false_iff.mpr hb), ht] at hset
  cases hset

/-- A CTRL write sets OVR only by a KEYCLR while BUSY, without SRST (10_state R25, R30). -/
theorem State.ctrlWrite_sets_ovr (s : State) (v : Word) (hclear : s.ovr = false) (hset : (s.ctrlWrite v).ovr = true) :
    s.busy = true ∧ v.getLsbD 2 = true ∧ v.getLsbD 31 = false := by
  cases hrst : v.getLsbD 31 with
  | true =>
    rw [s.ctrlWrite_of_srst v hrst] at hset
    cases hset
  | false =>
    cases hb : s.busy with
    | true =>
      rw [s.ctrlWrite_of_busy v hb hrst] at hset
      exact ⟨rfl, by simpa [hclear] using hset, rfl⟩
    | false =>
      rw [s.ctrlWrite_of_idle v hb hrst] at hset
      split at hset <;> exact absurd hset (by simp [hclear])

/-- The register writes that set OVR: those of CMD, the operand registers, the key words and KEYCLR, while BUSY (10_state
R30). -/
theorem State.regWrite_sets_ovr (s : State) (r : Reg) (v : Word) (hclear : s.ovr = false)
    (hset : (s.regWrite r v).ovr = true) :
    s.busy = true ∧ (r ∈ [.cmd, .wavBase, .wavLen, .srcBase, .srcLen, .dstBase, .dstCap, .bitStart, .bitCount] ∨
      (∃ k, r = .key k) ∨ (r = .ctrl ∧ v.getLsbD 2 = true ∧ v.getLsbD 31 = false)) := by
  cases r with
  | id | dstLen | dataOffset | dataSize | channels | sampleCount | payloadLen | totalBits =>
    exact absurd hset (by simp [State.regWrite, hclear])
  | status => exact absurd hset (by simp [State.regWrite, hclear])
  | ctrl =>
    obtain ⟨hb, hkeyclr, hsrst⟩ := s.ctrlWrite_sets_ovr v hclear hset
    exact ⟨hb, .inr (.inr ⟨rfl, hkeyclr, hsrst⟩)⟩
  | cmd | wavBase | wavLen | srcBase | srcLen | dstBase | dstCap | bitStart | bitCount =>
    exact ⟨s.busy_of_unlessBusy_ovr _ hset hclear, .inl (by simp)⟩
  | key k => exact ⟨s.busy_of_unlessBusy_ovr _ hset hclear, .inr (.inl ⟨k, rfl⟩)⟩

/-- While BUSY a write to CMD, an operand register or a key word does nothing but set OVR (10_state R30). -/
theorem State.regWrite_of_busy (s : State) (r : Reg) (v : Word) (hb : s.busy = true)
    (hr : r ∈ [.cmd, .wavBase, .wavLen, .srcBase, .srcLen, .dstBase, .dstCap, .bitStart, .bitCount] ∨ ∃ k, r = .key k) :
    s.regWrite r v = s.overrun := by
  cases r with
  | id | ctrl | status | dstLen | dataOffset | dataSize | channels | sampleCount | payloadLen | totalBits => simp at hr
  | cmd | wavBase | wavLen | srcBase | srcLen | dstBase | dstCap | bitStart | bitCount | key =>
    exact s.unlessBusy_of_busy _ hb

/-- Settles O51: the two overruns are equations, and the access that sets OVR is a register write of
`State.regWrite_sets_ovr`. -/
theorem busyWritesAreIgnored : Obligations.BusyWritesAreIgnored := by
  refine ⟨fun s r v hb hr => ?_, fun s v hb hkeyclr hsrst => ?_, fun a s t hstep hclear hset => ?_⟩
  · rw [hostStep_write, s.regWrite_of_busy r v hb hr]
    rfl
  · rw [hostStep_write, State.regWrite, s.ctrlWrite_of_busy v hb hsrst, hkeyclr, Bool.or_true]
  · have unchanged : t.ovr ≠ s.ovr := by simp [hclear, hset]
    obtain ⟨v, rfl⟩ | rfl | ⟨r, v, rfl, rfl⟩ | ⟨-, addr, bs, rfl⟩ := hostStep_next a s t hstep
    · exact absurd rfl unchanged
    · exact absurd rfl unchanged
    · obtain ⟨hb, hr⟩ := s.regWrite_sets_ovr r v hclear hset
      refine ⟨hb, rfl, rfl, v, rfl, ?_⟩
      obtain hr | ⟨k, rfl⟩ | ⟨rfl, hctrl⟩ := hr
      · exact .inl ⟨r, hr, rfl⟩
      · exact .inr (.inl ⟨k, rfl⟩)
      · exact .inr (.inr ⟨rfl, hctrl⟩)
    · exact absurd rfl unchanged

/-! ### Key words -/

theorem State.regWrite_key_of_idle (s : State) (k : Fin 8) (v : Word) (hb : s.busy = false) :
    s.regWrite (.key k) v = s.keyWrite k v :=
  s.unlessBusy_of_idle _ hb

/-- Settles O55: the write is `State.keyWrite`, and a read of a key word gives 0. -/
theorem keyWordWriteSetsFourBytes : Obligations.KeyWordWriteSetsFourBytes := by
  intro s k v
  refine ⟨fun hb => ⟨s.keyWrite k v, ?_, rfl, keyWithWord_getElem s.key k v, ?_⟩, hostStep_read s (.key k)⟩
  · exact (hostStep_write s (.key k) v).trans (congrArg Host.Outcome.next (s.regWrite_key_of_idle k v hb))
  · intro b hb
    rw [s.keyWrite_keyw_getLsbD k v b hb]
    by_cases hk : b = k.val <;> simp [hk]

/-- The key words `ks` written one after another, KEYk with `f k`. -/
def State.keyWrites (f : Fin 8 → Word) : List (Fin 8) → State → State
  | [], s => s
  | k :: ks, s => State.keyWrites f ks (s.keyWrite k (f k))

theorem State.keyWrites_frame (f : Fin 8 → Word) (ks : List (Fin 8)) (s : State) :
    s.keyWrites f ks = { s with key := (s.keyWrites f ks).key, keyw := (s.keyWrites f ks).keyw } := by
  induction ks generalizing s with
  | nil => rfl
  | cons k ks ih => exact ih (s.keyWrite k (f k))

/-- Byte `i` after the writes: of the word written to its key word, or as before (10_state R41). -/
theorem State.keyWrites_key_getElem (f : Fin 8 → Word) (ks : List (Fin 8)) (s : State) (i : Nat) (h : i < 32) :
    (s.keyWrites f ks).key[i] =
      if ⟨i / 4, by omega⟩ ∈ ks then (f ⟨i / 4, by omega⟩).extractLsb' (8 * (i % 4)) 8 else s.key[i] := by
  induction ks generalizing s with
  | nil => simp [State.keyWrites]
  | cons k ks ih =>
    rw [State.keyWrites, ih, State.keyWrite_key, keyWithWord_getElem]
    by_cases hk : k = ⟨i / 4, by omega⟩
    · subst hk
      simp
    · have hval : i / 4 ≠ k.val := fun he => hk (Fin.ext he.symm)
      simp [hval, Ne.symm hk]

theorem State.keyWrites_keyw_getLsbD (f : Fin 8 → Word) (ks : List (Fin 8)) (s : State) (b : Fin 8) :
    (s.keyWrites f ks).keyw.getLsbD b.val = (decide (b ∈ ks) || s.keyw.getLsbD b.val) := by
  induction ks generalizing s with
  | nil => simp [State.keyWrites]
  | cons k ks ih =>
    rw [State.keyWrites, ih, s.keyWrite_keyw_getLsbD k _ _ b.isLt]
    simp [Fin.ext_iff, Bool.or_assoc, Bool.or_left_comm]

/-- The turns that write the key words `ks`, KEYk with `f k`. -/
def hostKeyWrites (f : Fin 8 → Word) (ks : List (Fin 8)) : List Turn := ks.map fun k => hostWr (.key k) (f k)

/-- A host that writes key words while BUSY = 0, one a turn. -/
theorem run_hostKeyWrites (f : Fin 8 → Word) (ks : List (Fin 8)) (s : State) (rest : List Turn) (hb : s.busy = false)
    (h : s.agenda = hostKeyWrites f ks ++ rest) :
    Sys2Proof.core.run ks.length s = .next ((s.withAgenda rest).keyWrites f ks) := by
  induction ks generalizing s with
  | nil => exact congrArg Host.Outcome.next (by rw [← show s.agenda = rest from h]; rfl)
  | cons k ks ih =>
    have hstep : step s = .next ((s.withAgenda (hostKeyWrites f ks ++ rest)).keyWrite k (f k)) :=
      (step_of_hostWr s (.key k) (f k) _ h).trans (congrArg Host.Outcome.next (State.regWrite_key_of_idle _ k _ hb))
    exact (run_succ _ _ _ hstep).trans (ih _ hb rfl)

/-- Byte `i` of the number a byte sequence gives, least significant first (00_scope R11). -/
theorem leNat_byte (bs : List Byte) (i : Nat) (h : i < bs.length) : leNat bs / 256 ^ i % 256 = bs[i].toNat := by
  induction bs generalizing i with
  | nil => simp at h
  | cons b bs ih =>
    have hb := b.isLt
    cases i with
    | zero => simp [leNat]; omega
    | succ i =>
      rw [Nat.pow_succ, Nat.mul_comm, ← Nat.div_div_eq_div_mul,
        show leNat (b :: bs) / 256 = leNat bs by simp only [leNat]; omega]
      exact ih i (by simpa using h)

/-- Byte `i` of the 32-bit word that at most four bytes give, least significant first (00_scope R11). -/
theorem extractLsb'_ofNat_leNat (bs : List Byte) (i : Nat) (hlen : bs.length ≤ 4) (h : i < bs.length) :
    (BitVec.ofNat 32 (leNat bs)).extractLsb' (8 * i) 8 = bs[i] := by
  have hlt : leNat bs < 2 ^ 32 := (leNat_lt bs).trans_le (Nat.pow_le_pow_right (by decide) hlen)
  apply BitVec.eq_of_toNat_eq
  rw [BitVec.extractLsb'_toNat, BitVec.toNat_ofNat, Nat.mod_eq_of_lt hlt, Nat.shiftRight_eq_div_pow, Nat.pow_mul]
  exact leNat_byte bs i h

/-- The word `KEYLOAD` writes to KEYk holds key bytes 4k to 4k + 3 (30_encoding R97). -/
theorem keyloadWord_byte (key : Bytes32) (i : Nat) (h : i < 32) :
    (keyloadWord key.toList (i / 4)).extractLsb' (8 * (i % 4)) 8 = key[i] := by
  rw [keyloadWord, extractLsb'_ofNat_leNat _ _ (by simp) (by simp; omega)]
  simp [Nat.div_add_mod]

theorem hostKeyload_eq (key : List Byte) :
    hostKeyload key = hostKeyWrites (fun k => keyloadWord key k.val) (List.finRange 8) := rfl

/-- The eight writes of `KEYLOAD` set every byte of the key and every bit of keyw (10_state R42). -/
theorem State.keyWrites_keyload (s : State) (key : Bytes32) :
    s.keyWrites (fun k => keyloadWord key.toList k.val) (List.finRange 8) = { s with key := key, keyw := 0xFF } := by
  have hkey : (s.keyWrites (fun k => keyloadWord key.toList k.val) (List.finRange 8)).key = key := by
    apply Vector.ext
    intro i hi
    rw [State.keyWrites_key_getElem, if_pos (List.mem_finRange _), keyloadWord_byte key i hi]
  have hkeyw : (s.keyWrites (fun k => keyloadWord key.toList k.val) (List.finRange 8)).keyw = 0xFF := by
    have hfull : ∀ b : Fin 8, (0xFF#8).getLsbD b.val = true := by decide
    apply BitVec.eq_of_getLsbD_eq
    intro b hb
    rw [State.keyWrites_keyw_getLsbD _ _ s ⟨b, hb⟩]
    simpa using (hfull ⟨b, hb⟩).symm
  rw [State.keyWrites_frame, hkey, hkeyw]

/-- Settles O56: eight turns of `run_hostKeyWrites`, together `State.keyWrites_keyload`. -/
theorem keyWordsAssembleTheKey : Obligations.KeyWordsAssembleTheKey := by
  intro s bytes rest hb h
  rw [hostKeyload_eq] at h
  refine ⟨_, run_hostKeyWrites _ (List.finRange 8) s rest hb h, ?_⟩
  rw [State.keyWrites_keyload]
  exact ⟨rfl, rfl⟩

/-! ### The key is not seen -/

/-- `t` is `s` but for the key bytes. -/
def State.sameButKey (s t : State) : Prop := ∃ K, t = { s with key := K }

theorem State.sameButKey.busy_eq {s s' : State} (hs : s.sameButKey s') : s'.busy = s.busy := by
  obtain ⟨K, rfl⟩ := hs
  rfl

theorem State.sameButKey.unlessBusy {s s' t t' : State} (hs : s.sameButKey s') (ht : t.sameButKey t') :
    (s.unlessBusy t).sameButKey (s'.unlessBusy t') := by
  cases hb : s.busy with
  | true =>
    rw [s.unlessBusy_of_busy t hb, s'.unlessBusy_of_busy t' (hs.busy_eq.trans hb)]
    obtain ⟨K, rfl⟩ := hs
    exact ⟨K, rfl⟩
  | false =>
    rw [s.unlessBusy_of_idle t hb, s'.unlessBusy_of_idle t' (hs.busy_eq.trans hb)]
    exact ht

theorem State.sameButKey.ctrlWrite {s s' : State} (hs : s.sameButKey s') (v : Word) :
    (s.ctrlWrite v).sameButKey (s'.ctrlWrite v) := by
  have hbusy := hs.busy_eq
  unfold State.ctrlWrite
  rw [hbusy]
  obtain ⟨K, rfl⟩ := hs
  cases v.getLsbD 31 <;> cases v.getLsbD 2 <;> cases s.busy <;> exact ⟨_, rfl⟩

/-- A register write with another key in the key store does the same to everything but the key (10_state R41). -/
theorem State.sameButKey.regWrite {s s' : State} (hs : s.sameButKey s') (r : Reg) (v : Word) :
    (s.regWrite r v).sameButKey (s'.regWrite r v) := by
  cases r with
  | id | dstLen | dataOffset | dataSize | channels | sampleCount | payloadLen | totalBits => exact hs
  | ctrl => exact hs.ctrlWrite v
  | status =>
    obtain ⟨K, rfl⟩ := hs
    exact ⟨K, rfl⟩
  | cmd | wavBase | wavLen | srcBase | srcLen | dstBase | dstCap | bitStart | bitCount | key =>
    refine hs.unlessBusy ?_
    obtain ⟨K, rfl⟩ := hs
    exact ⟨_, rfl⟩

theorem State.sameButKey.offsetWrite {s s' : State} (hs : s.sameButKey s') (offset : Nat) (v : Word) :
    (s.offsetWrite offset v).sameButKey (s'.offsetWrite offset v) := by
  unfold State.offsetWrite
  cases regAt offset with
  | none => exact hs
  | some r => exact hs.regWrite r v

/-- No register shows the key (10_state R41). -/
theorem State.sameButKey.offsetRead {s s' : State} (hs : s.sameButKey s') (offset : Nat) :
    s'.offsetRead offset = s.offsetRead offset := by
  obtain ⟨K, rfl⟩ := hs
  unfold State.offsetRead
  cases regAt offset with
  | none => rfl
  | some r => cases r <;> rfl

/-- The outcomes `o` and `o'` are the same fault, or next states that differ in the key alone. -/
def sameOutcomeButKey (o o' : Host.Outcome State Fault Refusal) : Prop :=
  (∃ f, o = .fault f ∧ o' = .fault f) ∨ ∃ t t', o = .next t ∧ o' = .next t' ∧ t.sameButKey t'

theorem State.sameButKey.hostReg {s s' : State} (hs : s.sameButKey s') (addr width : Nat) (op : HostOp) :
    sameOutcomeButKey (hostReg addr width op s) (hostReg addr width op s') := by
  unfold Machine.hostReg
  split
  · cases op with
    | read =>
      refine .inr ⟨_, _, rfl, rfl, ?_⟩
      rw [hs.offsetRead addr]
      obtain ⟨K, rfl⟩ := hs
      exact ⟨K, rfl⟩
    | write v => exact .inr ⟨_, _, rfl, rfl, hs.offsetWrite addr v⟩
  · exact .inl ⟨_, rfl, rfl⟩

theorem State.sameButKey.hostBuf {s s' : State} (hs : s.sameButKey s') (addr width : Nat) (op : HostOp) :
    sameOutcomeButKey (hostBuf addr width op s) (hostBuf addr width op s') := by
  obtain ⟨K, rfl⟩ := hs
  have hbytes : ({ s with key := K } : State).bufBytes = s.bufBytes := rfl
  have hbusy : ({ s with key := K } : State).busy = s.busy := rfl
  unfold Machine.hostBuf
  rw [hbytes, hbusy]
  split
  · split
    · exact .inl ⟨_, rfl, rfl⟩
    · cases op with
      | read =>
        dsimp only
        cases s.buf.readBytes addr width with
        | some bs => exact .inr ⟨_, _, rfl, rfl, K, rfl⟩
        | none => exact .inl ⟨_, rfl, rfl⟩
      | write v => exact .inr ⟨_, _, rfl, rfl, K, rfl⟩
  · exact .inl ⟨_, rfl, rfl⟩

theorem State.sameButKey.hostStep {s s' : State} (hs : s.sameButKey s') (a : HostAccess) :
    sameOutcomeButKey (hostStep a s) (hostStep a s') := by
  unfold Machine.hostStep
  cases a.space with
  | reg => exact hs.hostReg _ _ _
  | buf => exact hs.hostBuf _ _ _

/-- Settles O59: two states that differ in the key alone give the same outcome (`State.sameButKey.hostStep`). -/
theorem hostReadsNeverRevealTheKey : Obligations.HostReadsNeverRevealTheKey := by
  intro a s K
  have hs : s.sameButKey { s with key := K } := ⟨K, rfl⟩
  obtain ⟨f, hf, hf'⟩ | ⟨t, t', ht, ht', K', rfl⟩ := hs.hostStep a
  · rw [hf, hf']
    exact ⟨fun _ h => h, fun _ h => nomatch h⟩
  · rw [ht, ht']
    refine ⟨fun _ h => (nomatch h), fun u h => ⟨_, rfl, ?_⟩⟩
    obtain rfl := Host.Outcome.next.inj h
    rfl

end Sys2Proof.Machine
end

section
/-! SUPPORT. The register map by its offsets, the bits of CTRL and STATUS as the host reads them, and malformed register
accesses (spec 10_state R22 to R28, 20_memory R62). -/

namespace Sys2Proof.Machine

/-! ### Offsets that hold no register -/

theorem Reg.offset_not_reserved (r : Reg) : r.offset ≠ 0x04C ∧ r.offset < 0x070 := by
  cases r with
  | key k => simp only [Reg.offset]; omega
  | _ => decide

theorem regAt_reserved (offset : Nat) (h : offset = 0x04C ∨ 0x070 ≤ offset) : regAt offset = none := by
  cases hr : regAt offset with
  | none => rfl
  | some r =>
    have hoffset := regAt_some offset r hr
    obtain ⟨hgap, hend⟩ := r.offset_not_reserved
    omega

/-- A host read at any offset of the map's window, reserved or not. -/
theorem hostStep_read_offset (s : State) (addr : Nat) (halign : addr % 4 = 0) (hlt : addr < 0x100) :
    hostStep { space := .reg, addr := addr, width := 4, op := .read } s = .next (s.hostRead (s.offsetRead addr)) := by
  simp [hostStep, hostReg, regAccessOk, halign, hlt]

/-- A host write at any offset of the map's window, reserved or not. -/
theorem hostStep_write_offset (s : State) (addr : Nat) (v : Word) (halign : addr % 4 = 0) (hlt : addr < 0x100) :
    hostStep { space := .reg, addr := addr, width := 4, op := .write v } s = .next (s.offsetWrite addr v) := by
  simp [hostStep, hostReg, regAccessOk, halign, hlt]

theorem hostStep_reg_malformed (s : State) (addr width : Nat) (op : HostOp)
    (h : width ≠ 4 ∨ addr % 4 ≠ 0 ∨ 0x100 ≤ addr) :
    hostStep { space := .reg, addr := addr, width := width, op := op } s = .fault .hostBadAccess := by
  have hbad : regAccessOk addr width = false := by
    simp only [regAccessOk, Bool.and_eq_false_iff, beq_eq_false_iff_ne, decide_eq_false_iff_not]
    omega
  simp [hostStep, hostReg, hbad]

/-! ### The bits of CTRL and STATUS -/

theorem bit_getLsbD (b : Bool) (i : Nat) : (bit b).getLsbD i = (decide (i = 0) && b) := by
  cases b <;> simp [bit, BitVec.getLsbD_one]

/-- A flag shifted to place `n` is the bit there and no other. -/
theorem bit_shiftLeft_getLsbD (b : Bool) (n i : Nat) (hi : i < 32) :
    (bit b <<< n).getLsbD i = (decide (i = n) && b) := by
  rw [BitVec.getLsbD_shiftLeft, bit_getLsbD, ← Bool.and_assoc]
  congr 1
  rw [Bool.eq_iff_iff]
  simp [hi]
  omega

/-- ERRCODE shifted to bits 11:8. -/
theorem errcode_shiftLeft_getLsbD (e : BitVec 4) (i : Nat) (hi : i < 32) :
    (e.setWidth 32 <<< 8).getLsbD i = if 8 ≤ i ∧ i ≤ 11 then e.getLsbD (i - 8) else false := by
  rw [BitVec.getLsbD_shiftLeft, BitVec.getLsbD_setWidth]
  split
  · next h => simp [hi, show ¬ i < 8 by omega, show i - 8 < 32 by omega]
  · next h =>
    by_cases hlow : i < 8
    · simp [hlow]
    · simp [BitVec.getLsbD_of_ge e (i - 8) (by omega)]

theorem State.ctrlWord_getLsbD (s : State) (i : Nat) (hi : i < 32) :
    s.ctrlWord.getLsbD i = (if i = 0 then s.ie else if i = 1 then s.ecc else false) := by
  rw [State.ctrlWord, BitVec.getLsbD_or, bit_getLsbD, bit_shiftLeft_getLsbD _ _ _ hi]
  split
  · next h => simp [h]
  · next h => split <;> simp_all

theorem State.statusWord_getLsbD (s : State) (i : Nat) (hi : i < 32) :
    s.statusWord.getLsbD i =
      (if i = 0 then s.busy else if i = 1 then s.done else if i = 2 then s.err else if i = 3 then s.ovr
      else if 8 ≤ i ∧ i ≤ 11 then s.errcode.getLsbD (i - 8)
      else if i = 16 then s.parsed else if i = 17 then s.keyv else if i = 18 then s.eccf else false) := by
  simp only [State.statusWord, BitVec.getLsbD_or, bit_getLsbD, bit_shiftLeft_getLsbD _ _ _ hi,
    errcode_shiftLeft_getLsbD _ _ hi]
  interval_cases i <;> simp

/-! ### The map -/

/-- A read-only register ignores a write (10_state R22). -/
theorem State.regWrite_readOnly (s : State) (r : Reg) (v : Word)
    (hr : r ∈ [.id, .dstLen, .dataOffset, .dataSize, .channels, .sampleCount, .payloadLen, .totalBits]) :
    s.regWrite r v = s := by
  cases r with
  | id | dstLen | dataOffset | dataSize | channels | sampleCount | payloadLen | totalBits => rfl
  | _ => simp at hr

/-- Settles O54: each table of the statement is the map's registers with `State.regRead` or `State.regWrite` of them. -/
theorem registerMapReadsAndWrites : Obligations.RegisterMapReadsAndWrites := by
  refine ⟨fun s p hp => ?_, fun s v p hb hp => ?_, fun s v offset hoffset => ?_, fun s offset v h halign hlt => ?_,
    fun s i hi => ⟨s.ctrlWord_getLsbD i hi, s.statusWord_getLsbD i hi⟩, hostStep_reg_malformed⟩
  · have htable : p ∈ regMap.map fun r => (r.offset, s.regRead r) := hp
    obtain ⟨r, -, rfl⟩ := List.mem_map.mp htable
    exact hostStep_read s r
  · have htable : p ∈ [Reg.wavBase, .wavLen, .srcBase, .srcLen, .dstBase, .dstCap, .bitStart, .bitCount].map
        fun r => (r.offset, s.regWrite r v) := by
      simpa only [List.map, Reg.offset, State.regWrite, s.unlessBusy_of_idle _ hb] using hp
    obtain ⟨r, -, rfl⟩ := List.mem_map.mp htable
    exact hostStep_write s r v
  · have htable : offset ∈ [Reg.id, .dstLen, .dataOffset, .dataSize, .channels, .sampleCount, .payloadLen,
        .totalBits].map Reg.offset := hoffset
    obtain ⟨r, hr, rfl⟩ := List.mem_map.mp htable
    rw [hostStep_write, s.regWrite_readOnly r v hr]
  · have hnone := regAt_reserved offset h
    rw [hostStep_write_offset s offset v halign hlt, hostStep_read_offset s offset halign hlt]
    simp [State.offsetRead, State.offsetWrite, hnone, State.hostRead]

end Sys2Proof.Machine
end

section
/-! SUPPORT. What every step and every command do to BUF: the canonical form is kept, an unwritten byte is the one thing
that stops a command, LSBWR and EMBED touch bit 0 of sample low bytes alone, and host accesses read and write bytes in
order (spec 20_memory R60 to R66, 43_embed_extract R170 to R180, 70_reset_and_hazards R240). -/

namespace Sys2Proof.Machine

/-! ### The canonical form -/

theorem State.canonicalBuf_withstands : Withstands State.canonicalBuf where
  untracked s t h hs := by rw [h]; exact hs
  keyClear _ hs := hs
  keyWrite _ _ _ hs := hs
  softReset _ hs := hs
  powerOn s _ := s.powerOn_buf_wf.2
  statusClear _ _ hs := hs
  accept _ _ hs := hs
  carrierWrite _ _ _ hs := hs
  bufWrite s addr bs hs := s.buf.writeBytes_wf addr bs hs
  completeErr _ _ hs := hs
  completeOk i s u hu hs := OwnWrites.wf i s u hu hs

/-- Settles O42: bytes enter BUF only by `Memory.write`, which keeps the form, and power-on empties BUF. -/
theorem stepKeepsCanonicalBuf : Obligations.StepKeepsCanonicalBuf :=
  State.canonicalBuf_withstands.step

/-! ### What stops a command -/

/-- Settles O7: a completion, successful or with an error, is a next state, and `exec_cases` leaves one fault. -/
theorem commandsFaultOnlyOnUnwrittenBytes : Obligations.CommandsFaultOnlyOnUnwrittenBytes := by
  intro i s
  obtain ⟨u, -, hok⟩ | ⟨e, -, d, herr⟩ | hfault := exec_cases i s
  · exact .inl ⟨_, hok⟩
  · exact .inl ⟨_, herr⟩
  · exact .inr hfault

/-! ### Sample LSBs written -/

theorem lsbAddr_add (wav dataOffset start i : Nat) :
    lsbAddr wav dataOffset (start + i) = lsbAddr wav dataOffset start + 2 * i := by
  unfold lsbAddr
  omega

/-- Bits 7:1 of two bytes are the same (20_memory R65). -/
def sameUpperBits (x y : Byte) : Prop := ∀ j, 0 < j → j < 8 → y.getLsbD j = x.getLsbD j

theorem sameUpperBits.trans {x y z : Byte} (hxy : sameUpperBits x y) (hyz : sameUpperBits y z) : sameUpperBits x z :=
  fun j hpos hlt => (hyz j hpos hlt).trans (hxy j hpos hlt)

theorem sameUpperBits_withLsb (x : Byte) (b : Bool) : sameUpperBits x (withLsb x b) := by
  intro j hpos hlt
  rw [withLsb_getLsbD x b j hlt, if_neg (by omega)]

/-- One sample's LSB written: every byte that holds a value holds one with the same bits 7:1. No canonical form is
needed, because a write outside BUF does nothing. -/
theorem Memory.upperBits_write_withLsb (m : Memory) (a : Nat) (x : Byte) (b : Bool) (ha : m.read a = some x) (z : Nat)
    (v : Byte) (hz : m.read z = some v) :
    ∃ y, (m.write a (withLsb x b)).read z = some y ∧ sameUpperBits v y := by
  by_cases hin : a < m.bytes
  · rw [m.read_write a z _ hin]
    split
    · next hza =>
      obtain rfl : x = v := Option.some.inj (ha.symm.trans (hza ▸ hz))
      exact ⟨_, rfl, sameUpperBits_withLsb x b⟩
    · exact ⟨v, hz, fun _ _ _ => rfl⟩
  · rw [Memory.write, if_neg hin]
    exact ⟨v, hz, fun _ _ _ => rfl⟩

theorem writeLsbs_upperBits (m m' : Memory) (a : Nat) (bits : List Bool) (h : writeLsbs m a bits = .ok m') (z : Nat)
    (v : Byte) (hz : m.read z = some v) : ∃ y, m'.read z = some y ∧ sameUpperBits v y := by
  induction bits generalizing m a v with
  | nil =>
    obtain rfl := Except.ok.inj h
    exact ⟨v, hz, fun _ _ _ => rfl⟩
  | cons b bits ih =>
    simp only [writeLsbs, bind_ok, Memory.loadByte_ok] at h
    obtain ⟨x, hx, h⟩ := h
    obtain ⟨w, hw, hvw⟩ := m.upperBits_write_withLsb a x b hx z v hz
    obtain ⟨y, hy, hwy⟩ := ih _ _ h w hw
    exact ⟨y, hy, hvw.trans hwy⟩

/-! ### LSBWR and EMBED -/

/-- `t.buf` is `s.buf` with LSBs written into at most `n` samples, the first one's low byte at `a`, and into none when
`t` has ERR set. -/
def State.lsbsWritten (s t : State) (a n : Nat) : Prop :=
  ∃ bits, bits.length ≤ n ∧ (t.err = true → bits = []) ∧ writeLsbs s.buf a bits = .ok t.buf

theorem State.lsbsWritten_of_buf_eq (s t : State) (a n : Nat) (h : t.buf = s.buf) : s.lsbsWritten t a n :=
  ⟨[], Nat.zero_le n, fun _ => rfl, congrArg Except.ok h.symm⟩

theorem State.lsbsWritten.read_eq {s t : State} {a n : Nat} (h : s.lsbsWritten t a n) (x : Nat)
    (hx : t.err = true ∨ ∀ i, i < n → x ≠ a + 2 * i) : t.buf.read x = s.buf.read x := by
  obtain ⟨bits, hlen, herr, hw⟩ := h
  obtain ⟨-, -, hframe⟩ := writeLsbs_ok_frame _ _ _ _ hw
  refine hframe x fun i hi => ?_
  obtain hfail | hapart := hx
  · simp [herr hfail] at hi
  · exact hapart i (by omega)

theorem State.lsbsWritten.upperBits {s t : State} {a n : Nat} (h : s.lsbsWritten t a n) (x : Nat) (v : Byte)
    (hv : s.buf.read x = some v) : ∃ y, t.buf.read x = some y ∧ sameUpperBits v y := by
  obtain ⟨bits, -, -, hw⟩ := h
  exact writeLsbs_upperBits _ _ _ _ hw x v hv

/-- LSBWR writes at most BIT_COUNT samples from BIT_START on, and beside BUF only STATUS (43_embed_extract R172). None
of its errors is FormatError, so PARSED stays (60_exceptions R203). -/
theorem exec_lsbwr_frame (s t : State) (h : exec .lsbwr s = .next t) :
    t = { s with buf := t.buf, done := t.done, err := t.err, errcode := t.errcode, pending := t.pending } ∧
    s.lsbsWritten t (lsbAddr s.wav.base s.dataOffset.toNat s.bitStart.toNat) s.bitCount.toNat := by
  obtain ⟨u, hu, rfl⟩ | ⟨e, he, rfl⟩ := (finish_next s t (lsbwrBody s)).mp h
  · obtain ⟨-, -, -, -, bits, hbits, m, hm, rfl⟩ := (lsbwrBody_ok _ _).mp hu
    obtain ⟨bytes, -, rfl⟩ := (s.sourceBits_ok _ _).mp hbits
    exact ⟨rfl, _, List.length_take_le _ _, by simp, hm⟩
  · have hne : e ≠ .formatError := by
      rintro rfl
      simpa using lsbwrBody_raisesOnly s _ he
    exact ⟨by simp [State.completeErr, hne], s.lsbsWritten_of_buf_eq _ _ _ rfl⟩

/-- EMBED writes at most TOTAL_BITS samples of the container it parsed, and beside BUF only the registers its rule names
(43_embed_extract R180). No register value is cut: the wire fits the samples, and they lie in a carrier of under 2^32
bytes. -/
theorem exec_embed_frame (s t : State) (h : exec .embed s = .next t) :
    t = { s with
      buf := t.buf, draws := t.draws, payloadLen := t.payloadLen, totalBits := t.totalBits
      dataOffset := t.dataOffset, dataSize := t.dataSize, channels := t.channels, sampleCount := t.sampleCount
      parsed := t.parsed, eccf := t.eccf, done := t.done, err := t.err, errcode := t.errcode, pending := t.pending } ∧
    s.lsbsWritten t (lsbAddr s.wav.base t.dataOffset.toNat 0) t.totalBits.toNat := by
  obtain ⟨u, ⟨c, hcarrier, hpayload⟩, rfl⟩ | ⟨e, -, d, rfl⟩ := exec_next .embed s t h
  · obtain ⟨-, -, hc⟩ := (embedCarrier_ok _ _).mp hcarrier
    obtain ⟨P, -, hfit, m, hm, rfl⟩ := (embedPayload_ok _ _ _ _ _).mp hpayload
    obtain ⟨-, -, hend, -⟩ := parseWav_ok_bounds _ _ _ c hc
    have hlen : s.wav.len < 2 ^ 32 := s.wavLen.isLt
    have hoffset : (BitVec.ofNat 32 c.dataOffset).toNat = c.dataOffset :=
      (BitVec.toNat_ofNat _ 32).trans (Nat.mod_eq_of_lt (by omega))
    rw [← hoffset] at hm
    refine ⟨rfl, _, ?_, by simp, hm⟩
    unfold Container.sampleCount at hfit
    rw [length_bytesToBits, State.completeOk_totalBits, BitVec.toNat_ofNat, Nat.mod_eq_of_lt (by omega)]
  · exact ⟨rfl, s.lsbsWritten_of_buf_eq _ _ _ rfl⟩

/-- Settles O23: both commands write BUF by `writeLsbs` alone, from the address their rule gives. -/
theorem frameOfCarrierCommands : Obligations.FrameOfCarrierCommands := by
  refine ⟨fun s t h => ?_, fun s t h => ?_, fun i s t hi h x v hv => ?_⟩
  · obtain ⟨hregs, hbuf⟩ := exec_lsbwr_frame s t h
    exact ⟨hregs, fun x hx => hbuf.read_eq x (by simpa only [lsbAddr_add] using hx)⟩
  · obtain ⟨hregs, hbuf⟩ := exec_embed_frame s t h
    refine ⟨hregs, fun x hx => hbuf.read_eq x ?_⟩
    simpa only [← lsbAddr_add, Nat.zero_add] using hx
  · obtain rfl | rfl := hi
    · exact (exec_lsbwr_frame s t h).2.upperBits x v hv
    · exact (exec_embed_frame s t h).2.upperBits x v hv

/-! ### Host accesses to BUF -/

theorem bufAccessOk_iff (s : State) (addr width : Nat) :
    bufAccessOk s.bufBytes addr width = true ↔ s.bufAccessWellFormed addr width := by
  simp [bufAccessOk, State.bufAccessWellFormed, or_assoc, and_assoc]

theorem State.bufAccessWellFormed.width_le {s : State} {addr width : Nat} (h : s.bufAccessWellFormed addr width) :
    width ≤ 4 := by
  obtain ⟨hwidth, -, -⟩ := h
  omega

theorem State.bufAccessWellFormed.inside {s : State} {addr width : Nat} (h : s.bufAccessWellFormed addr width) :
    addr + width ≤ s.buf.bytes := by
  obtain ⟨-, -, hin⟩ := h
  exact hin

theorem hostStep_buf_malformed (s : State) (addr width : Nat) (op : HostOp) (h : ¬ s.bufAccessWellFormed addr width) :
    hostStep { space := .buf, addr := addr, width := width, op := op } s = .fault .hostBadAccess :=
  if_neg (mt (bufAccessOk_iff s addr width).mp h)

section
variable (s : State) (addr width : Nat) (hwf : s.bufAccessWellFormed addr width)
include hwf

theorem hostStep_buf_of_busy (op : HostOp) (hb : s.busy = true) :
    hostStep { space := .buf, addr := addr, width := width, op := op } s = .fault .hostBufWhileBusy := by
  simp only [hostStep, hostBuf, (bufAccessOk_iff s addr width).mpr hwf, hb, if_true]

theorem hostStep_buf_read_unwritten (hb : s.busy = false) (h : s.buf.readBytes addr width = none) :
    hostStep { space := .buf, addr := addr, width := width, op := .read } s = .fault .unwrittenRead := by
  simp [hostStep, hostBuf, (bufAccessOk_iff s addr width).mpr hwf, hb, h]

theorem hostStep_buf_read_written (bs : List Byte) (hb : s.busy = false) (h : s.buf.readBytes addr width = some bs) :
    hostStep { space := .buf, addr := addr, width := width, op := .read } s =
      .next (s.hostRead (BitVec.ofNat 32 (leNat bs))) := by
  simp [hostStep, hostBuf, (bufAccessOk_iff s addr width).mpr hwf, hb, h]

theorem hostStep_buf_write (v : Word) (hb : s.busy = false) :
    hostStep { space := .buf, addr := addr, width := width, op := .write v } s =
      .next { s with buf := s.buf.writeBytes addr (leBytes width v.toNat) } := by
  simp [hostStep, hostBuf, (bufAccessOk_iff s addr width).mpr hwf, hb]

end

theorem Memory.readBytes_of_unwritten (m : Memory) (a n : Nat) (h : ∃ i, i < n ∧ m.read (a + i) = none) :
    m.readBytes a n = none := by
  obtain ⟨i, hi, hnone⟩ := h
  refine Option.eq_none_iff_forall_ne_some.mpr fun bs hbs => ?_
  obtain ⟨hlen, hread⟩ := (m.readBytes_eq_some a n bs).mp hbs
  simpa [hnone] using hread i (by omega)

/-- Byte `i` of a word's low bytes, least significant first (00_scope R11). -/
theorem leBytes_getElem (n v i : Nat) (h : i < (leBytes n v).length) :
    (leBytes n v)[i] = BitVec.ofNat 8 (v / 256 ^ i) := by
  induction n generalizing v i with
  | zero => simp [leBytes] at h
  | succ n ih =>
    cases i with
    | zero => simp [leBytes]
    | succ i =>
      have hi : i < (leBytes n (v / 256)).length := by simpa using h
      simpa [leBytes, Nat.div_div_eq_div_mul, Nat.pow_succ, Nat.mul_comm] using ih (v / 256) i hi

theorem leBytes_toNat_getElem (n : Nat) (v : Word) (i : Nat) (h : i < (leBytes n v.toNat).length) :
    (leBytes n v.toNat)[i] = v.extractLsb' (8 * i) 8 := by
  rw [leBytes_getElem, BitVec.extractLsb', Nat.shiftRight_eq_div_pow, Nat.pow_mul]

/-- Settles O57: one equation per outcome of a host access, and the bytes of a word in order. -/
theorem hostBufAccess : Obligations.HostBufAccess := by
  intro s addr width
  refine ⟨hostStep_buf_malformed s addr width, fun op hwf => hostStep_buf_of_busy s addr width hwf op,
    fun hwf hb h => hostStep_buf_read_unwritten s addr width hwf hb (s.buf.readBytes_of_unwritten _ _ h),
    fun bs hwf hb hlen hbs => ?_, fun v hwf hb => ?_⟩
  · have hread : s.buf.readBytes addr width = some bs := (s.buf.readBytes_eq_some _ _ _).mpr ⟨hlen, hbs⟩
    have hle : bs.length ≤ 4 := hlen ▸ hwf.width_le
    refine ⟨_, hostStep_buf_read_written s addr width hwf bs hb hread,
      fun i hi => extractLsb'_ofNat_leNat bs i hle hi, ?_⟩
    calc (BitVec.ofNat 32 (leNat bs)).toNat ≤ leNat bs := by rw [BitVec.toNat_ofNat]; exact Nat.mod_le _ _
      _ < 256 ^ bs.length := leNat_lt bs
      _ = 2 ^ (8 * width) := by rw [hlen, Nat.pow_mul]
  · refine ⟨_, hostStep_buf_write s addr width hwf v hb, rfl, fun i hi => ?_, s.buf.writeBytes_top _ _, fun x hx =>
      s.buf.read_writeBytes_outside addr x _ (by simpa using hx)⟩
    have hlen : (leBytes width v.toNat).length = width := length_leBytes _ _
    rw [s.buf.read_writeBytes_inside addr i _ (by rw [hlen]; exact hwf.inside) (by omega), leBytes_toNat_getElem]

end Sys2Proof.Machine
end

section
/-! SUPPORT. The decoder in both directions and the Illegal words (spec 30_encoding R90 to R94), and the wire format an
EMBED leaves in the sample LSBs (30_encoding R98). -/

namespace Sys2Proof

/-! ### The opcode map -/

theorem commandOfOpcode_opcode (i : Instr) : commandOfOpcode (opcode i).toNat = some i := by
  cases i <;> rfl

/-- A command's opcode is the only one the map sends to it (30_encoding R91). -/
theorem commandOfOpcode_eq_some (b : BitVec 8) (i : Instr) : commandOfOpcode b.toNat = some i ↔ b = opcode i := by
  constructor
  · intro h
    apply BitVec.eq_of_toNat_eq
    generalize b.toNat = n at h ⊢
    unfold commandOfOpcode at h
    split at h <;> cases h <;> rfl
  · rintro rfl
    exact commandOfOpcode_opcode i

/-- The reserved opcodes (30_encoding R94). -/
theorem commandOfOpcode_eq_none (n : Nat) : commandOfOpcode n = none ↔ n = 0 ∨ 0x0B ≤ n := by
  unfold commandOfOpcode
  split
  case h_11 =>
    simp only [imp_false] at *
    simp only [true_iff]
    omega
  all_goals simp

/-! ### Decoding -/

theorem decode_eq_ok (w : Word) (i : Instr) :
    decode w = .ok i ↔ w.extractLsb' 8 24 = 0#24 ∧ commandOfOpcode (w.extractLsb' 0 8).toNat = some i := by
  unfold decode
  split
  · next hrsv => simp [hrsv]
  · next hrsv =>
    rw [not_not] at hrsv
    split
    · next j hj => rw [hj]; simp [hrsv]
    · next hnone => rw [hnone]; simp

/-- A word is Illegal exactly when it is no command (30_encoding R92). -/
theorem decode_eq_error (w : Word) :
    (∃ e, decode w = .error e) ↔
      w.extractLsb' 8 24 ≠ 0#24 ∨ commandOfOpcode (w.extractLsb' 0 8).toNat = none := by
  have hno : (∃ e, decode w = .error e) ↔ ∀ i, decode w ≠ .ok i := by cases decode w <;> simp
  rw [hno, Option.eq_none_iff_forall_ne_some]
  simp only [ne_eq, decode_eq_ok, not_and, imp_iff_not_or, forall_or_left]

theorem decode_eq_ok_iff_opcode (w : Word) (i : Instr) :
    decode w = .ok i ↔ w.extractLsb' 8 24 = 0#24 ∧ w.extractLsb' 0 8 = opcode i := by
  rw [decode_eq_ok, commandOfOpcode_eq_some]

theorem decode_encode (i : Instr) : decode (encode i) = .ok i :=
  (decode_eq_ok_iff_opcode _ i).mpr ⟨BitVec.extractLsb'_append_eq_left, BitVec.extractLsb'_append_eq_right⟩

/-- Settles O1: each of the ten words is the encoding of its command. -/
theorem commandWordsDecode : Obligations.CommandWordsDecode :=
  ⟨decode_encode .parse, decode_encode .kdf, decode_encode .encrypt, decode_encode .decrypt, decode_encode .henc,
    decode_encode .hdec, decode_encode .lsbwr, decode_encode .lsbrd, decode_encode .embed, decode_encode .extract,
    decode_encode⟩

end Sys2Proof

namespace Sys2Proof.Machine

theorem coreStep_of_illegal (s : State) (w : Word) (e : Illegal) (hw : s.pending = some w)
    (he : decode w = .error e) : coreStep s = .next (s.completeErr .illegalCommand) := by
  simp only [coreStep, hw, he]

/-- Settles O2: a word decodes by the opcode map or is Illegal, and IllegalCommand, not being FormatError, keeps PARSED
(60_exceptions R203). -/
theorem decodeAcceptsExactlyTheTenWords : Obligations.DecodeAcceptsExactlyTheTenWords := by
  refine ⟨decode_eq_ok_iff_opcode, fun w => ?_, coreStep_of_illegal⟩
  rw [decode_eq_error, commandOfOpcode_eq_none]

/-! ### The wire in bytes and bits -/

/-- The wire buffer, byte by byte up to the body (30_encoding R98). -/
theorem wireBytes_eq (ecc : Bool) (enc : List Byte) :
    wireBytes ecc enc = [0x53, 0x54, 0x47, 0x31] ++ [if ecc then 1 else 0] ++
      [BitVec.ofNat 8 (enc.length / 2 ^ 24), BitVec.ofNat 8 (enc.length / 2 ^ 16), BitVec.ofNat 8 (enc.length / 2 ^ 8),
        BitVec.ofNat 8 enc.length] ++
      (if ecc then bitsToBytes (hamEncode (bytesToBits enc)) else enc) := by
  have hflag : (BitVec.ofBool ecc).setWidth 8 = if ecc then 1#8 else 0#8 := by cases ecc <;> rfl
  simp [wireBytes, header, body, magicTag, beBytes, leBytes, hflag, Nat.div_div_eq_div_mul]

/-- Element 8j + m of a byte sequence's bits is bit 7 − m of byte j (42_bits_hamming R150). -/
theorem bytesToBits_getElem? (bs : List Byte) (j m : Nat) (hm : m < 8) :
    (bytesToBits bs)[8 * j + m]? = bs[j]?.map (·.getLsbD (7 - m)) := by
  induction bs generalizing j with
  | nil => simp [bytesToBits]
  | cons b bs ih =>
    rw [bytesToBits]
    cases j with
    | zero =>
      rw [Nat.mul_zero, Nat.zero_add, List.getElem?_append_left (by rwa [length_byteBits]), byteBits_getElem? b m hm]
      rfl
    | succ j =>
      rw [List.getElem?_append_right (by rw [length_byteBits]; omega), length_byteBits, List.getElem?_cons_succ, ← ih j]
      congr 1
      omega

/-- The bits of a byte sequence written into sample LSBs: sample 8j + k carries bit 7 − k of byte j (30_encoding R98). -/
theorem writeLsbs_bytesToBits (m m' : Memory) (a : Nat) (bs : List Byte) (hm : m.wf = true)
    (h : writeLsbs m a (bytesToBits bs) = .ok m') (j k : Nat) (hj : j < bs.length) (hk : k < 8) :
    ∃ x, m'.read (a + 2 * (8 * j + k)) = some x ∧ x.getLsbD 0 = bs[j].getLsbD (7 - k) := by
  have hlen : 8 * j + k < (bytesToBits bs).length := by rw [length_bytesToBits]; omega
  have hbit : (bytesToBits bs)[8 * j + k] = bs[j].getLsbD (7 - k) := by
    rw [List.getElem_eq_iff, bytesToBits_getElem? bs j k hk, List.getElem?_eq_getElem hj, Option.map_some]
  obtain ⟨x, -, hx⟩ := writeLsbs_ok_read m m' a _ hm h _ hlen
  exact ⟨_, hx, (withLsb_bit0 x _).trans hbit⟩

/-! ### A successful EMBED -/

/-- What a successful EMBED has done (43_embed_extract R180): the wire of the encrypted payload stands in the sample LSBs
of the container it parsed. No register value is cut, because the samples lie in a carrier of under 2^32 bytes. -/
theorem embedWith_success (E : BlockCipher) (iv : Bytes16) (s t : State) (h : embedWith E iv s = .next t)
    (herr : t.err = false) :
    ∃ c P, embedCarrier s = .ok c ∧ s.buf.readBytes s.src.base s.src.len = some P ∧ t.wav = s.wav ∧
      t.dataOffset.toNat = c.dataOffset ∧
      8 * (wireBytes s.eccLatch (encryptBytes E s.key iv P)).length ≤ c.sampleCount ∧
      t.totalBits.toNat = 8 * (wireBytes s.eccLatch (encryptBytes E s.key iv P)).length ∧
      writeLsbs s.buf (lsbAddr s.wav.base c.dataOffset 0)
        (bytesToBits (wireBytes s.eccLatch (encryptBytes E s.key iv P))) = .ok t.buf := by
  obtain ⟨e, -, rfl⟩ | ⟨c, hcarrier, ⟨u, hpayload, rfl⟩ | ⟨e, -, rfl⟩⟩ := (embedWith_next E iv s t).mp h
  · simp at herr
  · obtain ⟨-, -, hc⟩ := (embedCarrier_ok _ _).mp hcarrier
    obtain ⟨P, hP, hfit, m, hm, rfl⟩ := (embedPayload_ok _ _ _ _ _).mp hpayload
    obtain ⟨-, -, hend, -⟩ := parseWav_ok_bounds _ _ _ c hc
    have hlen : s.wav.len < 2 ^ 32 := s.wavLen.isLt
    have hcount : c.sampleCount = c.dataSize / 2 := rfl
    refine ⟨c, P, hcarrier, hP, rfl, ?_, hfit, ?_, hm⟩
    · exact (BitVec.toNat_ofNat _ 32).trans (Nat.mod_eq_of_lt (by omega))
    · exact (BitVec.toNat_ofNat _ 32).trans (Nat.mod_eq_of_lt (hfit.trans_lt (by omega)))
  · simp at herr

/-- Settles O34: EMBED writes the bits of the wire into successive samples, and bit 8j + m of them is bit 7 − m of byte
j. -/
theorem embedLaysOutTheWireFormat : Obligations.EmbedLaysOutTheWireFormat := by
  rintro E iv s t P enc wire hcanon hnext herr hP rfl hwire
  obtain ⟨c, P', -, hP', hwav, hoffset, -, htotal, hwrite⟩ := embedWith_success E iv s t hnext herr
  obtain rfl : P' = P := Option.some.inj (hP'.symm.trans hP)
  obtain rfl : wire = wireBytes s.eccLatch (encryptBytes E s.key iv P') := hwire.trans (wireBytes_eq _ _).symm
  refine ⟨htotal, fun j m hj hm => ?_⟩
  rw [hwav, hoffset]
  exact writeLsbs_bytesToBits _ _ _ _ hcanon hwrite j m hj hm

end Sys2Proof.Machine
end

section
/-! SUPPORT. The parser, rule by rule (spec 40_container R110 to R116, 20_memory R66): what the walk does at each kind
of chunk, that it ends within its bound, what the parser answers for a carrier given as the list of its chunks, and what
PARSE and KDF leave alone. -/

namespace Sys2Proof.Machine

/-! ### Bytes held and loaded -/

theorem Memory.readBytes_eq_some_iff_holds (m : Memory) (a n : Nat) (bs : List Byte) :
    m.readBytes a n = some bs ↔ bs.length = n ∧ m.holds a bs := m.readBytes_eq_some a n bs

theorem Memory.load_of_holds (m : Memory) (a n : Nat) (bs : List Byte) (hlen : bs.length = n) (h : m.holds a bs) :
    m.load a n = .ok bs :=
  (m.load_ok a n bs).mpr ((m.readBytes_eq_some_iff_holds a n bs).mpr ⟨hlen, h⟩)

theorem Memory.load_of_unwritten (m : Memory) (a n : Nat) (h : m.readBytes a n = none) :
    m.load a n = .error (.fault .unwrittenRead) := (m.load_error a n _).mpr ⟨h, rfl⟩

theorem Memory.holds_append (m : Memory) (a : Nat) (xs ys : List Byte) :
    m.holds a (xs ++ ys) ↔ m.holds a xs ∧ m.holds (a + xs.length) ys := by
  constructor
  · intro h
    refine ⟨fun i hi => ?_, fun i hi => ?_⟩
    · rw [h i (by rw [List.length_append]; omega), List.getElem_append_left hi]
    · rw [Nat.add_assoc, h (xs.length + i) (by rw [List.length_append]; omega),
        List.getElem_append_right (Nat.le_add_right _ _)]
      simp
  · rintro ⟨hxs, hys⟩ i hi
    by_cases hlt : i < xs.length
    · rw [List.getElem_append_left hlt, hxs i hlt]
    · have hge : xs.length ≤ i := Nat.le_of_not_lt hlt
      have hy := hys (i - xs.length) (by rw [List.length_append] at hi; omega)
      rw [List.getElem_append_right hge, ← hy, Nat.add_assoc, Nat.add_sub_cancel' hge]

/-! ### The fields of a `fmt ` chunk -/

/-- The fields read back as they were laid out (30_encoding R101). -/
theorem loadFmt_of_holds (m : Memory) (wav cur : Nat) (f : FmtChunk) (hformat : f.format < 2 ^ 16)
    (hchannels : f.channels < 2 ^ 16) (hbits : f.bits < 2 ^ 16)
    (hhead : m.holds (wav + cur + 8) (leBytes 2 f.format ++ leBytes 2 f.channels))
    (htail : m.holds (wav + cur + 22) (leBytes 2 f.bits)) : loadFmt m wav cur = .ok f := by
  have value : ∀ v, v < 2 ^ 16 → leNat (leBytes 2 v) = v := fun v hv =>
    (leNat_leBytes 2 v).trans (Nat.mod_eq_of_lt hv)
  obtain ⟨hf, hc⟩ := (m.holds_append _ _ _).mp hhead
  rw [length_leBytes, Nat.add_assoc] at hc
  simp only [loadFmt, m.load_of_holds _ 2 _ (length_leBytes 2 _) hf, m.load_of_holds _ 2 _ (length_leBytes 2 _) hc,
    m.load_of_holds _ 2 _ (length_leBytes 2 _) htail, ok_bind, pure_eq_ok, value _ hformat, value _ hchannels,
    value _ hbits]

/-- An unwritten byte among the fields stops the parser (20_memory R66). -/
theorem loadFmt_of_unwritten (m : Memory) (wav cur : Nat)
    (h : ∃ i ∈ [8, 9, 10, 11, 22, 23], m.read (wav + cur + i) = none) :
    loadFmt m wav cur = .error (.fault .unwrittenRead) := by
  cases hload : loadFmt m wav cur with
  | error st =>
    obtain rfl | ⟨e, he, -⟩ := loadFmt_raisesOnly (es := []) m wav cur st hload
    · rfl
    · cases he
  | ok f =>
    simp only [loadFmt, bind_ok, Memory.load_ok] at hload
    obtain ⟨format, hformat, channels, hchannels, bits, hbits, -⟩ := hload
    have field : ∀ k bs, m.readBytes (wav + cur + k) 2 = some bs → ∀ i, k ≤ i → i < k + 2 →
        m.read (wav + cur + i) ≠ none := by
      intro k bs hbs i hle hlt hnone
      have hunwritten := m.readBytes_of_unwritten (wav + cur + k) 2 ⟨i - k, by omega, by
        rwa [Nat.add_assoc _ k, Nat.add_sub_cancel' hle]⟩
      simp [hbs] at hunwritten
    obtain ⟨i, hi, hnone⟩ := h
    simp only [List.mem_cons, List.not_mem_nil, or_false] at hi
    obtain hi | hi | hi : (8 ≤ i ∧ i < 10) ∨ (10 ≤ i ∧ i < 12) ∨ (22 ≤ i ∧ i < 24) := by omega
    · exact absurd hnone (field 8 format hformat i hi.1 hi.2)
    · exact absurd hnone (field 10 channels hchannels i hi.1 hi.2)
    · exact absurd hnone (field 22 bits hbits i hi.1 hi.2)

/-! ### The walk of the chunks -/

section
variable (m : Memory) (wav len fuel cur : Nat) (fmt : Option FmtChunk)

/-- The walk ends where no chunk head fits (40_container R111). -/
theorem walkChunks_of_no_head (h : len < cur + 8) :
    walkChunks m wav len fuel cur fmt = .ok { fmt := fmt, data := none } := by
  cases fuel with
  | zero => rfl
  | succ fuel =>
    rw [walkChunks]
    split
    · rfl
    · rfl

/-- A head of which any byte is unwritten stops the walk (20_memory R66). -/
theorem walkChunks_of_unwritten_head (hfit : cur + 8 ≤ len) (h : m.readBytes (wav + cur) 8 = none) :
    walkChunks m wav len (fuel + 1) cur fmt = .error (.fault .unwrittenRead) := by
  rw [walkChunks, if_neg (by omega), if_neg (by omega)]
  cases hid : m.load (wav + cur) 4 with
  | error st => rw [((m.load_error _ _ _).mp hid).2, error_bind]
  | ok id =>
    cases hsize : m.load (wav + cur + 4) 4 with
    | error st => rw [((m.load_error _ _ _).mp hsize).2, ok_bind, error_bind]
    | ok size =>
      obtain ⟨hidLen, hid⟩ := (m.readBytes_eq_some_iff_holds _ _ _).mp ((m.load_ok _ _ _).mp hid)
      obtain ⟨hsizeLen, hsize⟩ := (m.readBytes_eq_some_iff_holds _ _ _).mp ((m.load_ok _ _ _).mp hsize)
      have hread : m.readBytes (wav + cur) 8 = some (id ++ size) :=
        (m.readBytes_eq_some_iff_holds _ _ _).mpr
          ⟨by simp [hidLen, hsizeLen], (m.holds_append _ _ _).mpr ⟨hid, hidLen ▸ hsize⟩⟩
      simp [h] at hread

section
variable (id : List Byte) (size : Nat) (hfit : cur + 8 ≤ len) (hsize : size < 2 ^ 32)
include hfit hsize

/-- What the walk does at a head that is written: it goes by the ID (40_container R111). -/
theorem walkChunks_of_head (hid : id.length = 4) (h : m.holds (wav + cur) (id ++ leBytes 4 size)) :
    walkChunks m wav len (fuel + 1) cur fmt =
      if id = fmtTag then do
        require (decide (16 ≤ size) && decide (cur + 24 ≤ len)) .formatError
        let f ← loadFmt m wav cur
        walkChunks m wav len fuel (nextChunk cur size) (some f)
      else if id = dataTag then .ok { fmt := fmt, data := some (cur + 8, size) }
      else walkChunks m wav len fuel (nextChunk cur size) fmt := by
  obtain ⟨hidBytes, hsizeBytes⟩ := (m.holds_append _ _ _).mp h
  rw [hid] at hsizeBytes
  have hvalue : leNat (leBytes 4 size) = size := (leNat_leBytes 4 size).trans (Nat.mod_eq_of_lt hsize)
  rw [walkChunks, if_neg (by omega), if_neg (by omega), m.load_of_holds _ 4 _ hid hidBytes, ok_bind,
    m.load_of_holds _ 4 _ (length_leBytes 4 size) hsizeBytes, ok_bind, hvalue]
  rfl

theorem walkChunks_of_data (h : m.holds (wav + cur) (dataTag ++ leBytes 4 size)) :
    walkChunks m wav len (fuel + 1) cur fmt = .ok { fmt := fmt, data := some (cur + 8, size) } := by
  rw [walkChunks_of_head m wav len fuel cur fmt dataTag size hfit hsize rfl h, if_neg (by decide), if_pos rfl]

/-- A `fmt ` chunk that is too short or cut off (40_container R111, R114). -/
theorem walkChunks_of_short_fmt (h : m.holds (wav + cur) (fmtTag ++ leBytes 4 size))
    (hshort : size < 16 ∨ len < cur + 24) :
    walkChunks m wav len (fuel + 1) cur fmt = .error (.raise .formatError) := by
  have hcheck : (decide (16 ≤ size) && decide (cur + 24 ≤ len)) = false := by
    simp only [Bool.and_eq_false_iff, decide_eq_false_iff_not]
    omega
  rw [walkChunks_of_head m wav len fuel cur fmt fmtTag size hfit hsize rfl h, if_pos rfl, hcheck, require_false,
    error_bind]

/-- A `fmt ` chunk that is long enough: its fields are read, and the walk goes on behind it. -/
theorem walkChunks_of_fmt (h : m.holds (wav + cur) (fmtTag ++ leBytes 4 size)) (hlong : 16 ≤ size)
    (hbody : cur + 24 ≤ len) :
    walkChunks m wav len (fuel + 1) cur fmt =
      loadFmt m wav cur >>= fun f => walkChunks m wav len fuel (nextChunk cur size) (some f) := by
  rw [walkChunks_of_head m wav len fuel cur fmt fmtTag size hfit hsize rfl h, if_pos rfl, decide_eq_true hlong,
    decide_eq_true hbody, Bool.and_true, require_true, ok_bind]

end

/-- Each iteration passes at least the 8 bytes of a head, so a bound of (len − cur) div 8 iterations is enough and a
larger one changes nothing (40_container R115). -/
theorem walkChunks_of_more_fuel (more : Nat) (hend : len < cur + 8 * (fuel + 1)) (hle : fuel ≤ more) :
    walkChunks m wav len more cur fmt = walkChunks m wav len fuel cur fmt := by
  induction fuel generalizing more cur fmt with
  | zero =>
    rw [walkChunks_of_no_head m wav len more cur fmt (by omega), walkChunks_of_no_head m wav len 0 cur fmt (by omega)]
  | succ fuel ih =>
    obtain ⟨more, rfl⟩ : ∃ k, more = k + 1 := ⟨more - 1, by omega⟩
    have hnext : ∀ size fmt', walkChunks m wav len more (nextChunk cur size) fmt' =
        walkChunks m wav len fuel (nextChunk cur size) fmt' := fun size fmt' =>
      ih _ fmt' more (by unfold nextChunk; omega) (by omega)
    simp only [walkChunks, hnext]

end

/-- Settles O40: `walkChunks_of_more_fuel` at the first chunk. -/
theorem chunkWalkEnds : Obligations.ChunkWalkEnds := fun m wav len fuel hle =>
  walkChunks_of_more_fuel m wav len _ 12 none fuel (by omega) hle

/-- Settles O41: `parseWav_ok_bounds`, and a container's samples are whole pairs of its data bytes (40_container
R116). -/
theorem parsedContainerInsideCarrier : Obligations.ParsedContainerInsideCarrier := by
  intro m wav len c h
  obtain ⟨heven, hpast, hend, hchannels⟩ := parseWav_ok_bounds m wav len c h
  have hsamples : 2 * c.sampleCount ≤ c.dataSize := Nat.mul_div_le _ _
  exact ⟨heven, hpast, hend, by omega, hchannels⟩

/-! ### The walk over a list of chunks -/

/-- The `fmt ` fields in force after a chunk: its own if it is a `fmt ` chunk (40_container R111). -/
def Chunk.fmtSeen (fmt : Option FmtChunk) (c : Chunk) : Option FmtChunk :=
  if c.id = fmtTag then some c.fields else fmt

/-- The `fmt ` fields in force after the chunks `cs`. -/
def lastFmt (cs : List Chunk) : Option FmtChunk := cs.foldl Chunk.fmtSeen none

theorem foldl_fmtSeen_of_no_fmt (cs : List Chunk) (fmt : Option FmtChunk) (h : ∀ c ∈ cs, c.id ≠ fmtTag) :
    cs.foldl Chunk.fmtSeen fmt = fmt := by
  induction cs with
  | nil => rfl
  | cons c cs ih =>
    obtain ⟨hc, hcs⟩ := List.forall_mem_cons.mp h
    rw [List.foldl_cons, Chunk.fmtSeen, if_neg hc, ih hcs]

theorem lastFmt_of_no_fmt (cs : List Chunk) (h : ∀ c ∈ cs, c.id ≠ fmtTag) : lastFmt cs = none :=
  foldl_fmtSeen_of_no_fmt cs none h

theorem lastFmt_of_fmt (before after : List Chunk) (f : Chunk) (hf : f.id = fmtTag)
    (hafter : ∀ c ∈ after, c.id ≠ fmtTag) : lastFmt (before ++ f :: after) = some f.fields := by
  rw [lastFmt, List.foldl_append, List.foldl_cons, foldl_fmtSeen_of_no_fmt after _ hafter, Chunk.fmtSeen, if_pos hf]

section
variable (m : Memory) (wav len : Nat)

/-- The walk passes one chunk in one iteration. -/
theorem walkChunks_of_chunkAt (fuel cur : Nat) (fmt : Option FmtChunk) (c : Chunk) (h : m.chunkAt wav len cur c) :
    walkChunks m wav len (fuel + 1) cur fmt = walkChunks m wav len fuel (nextChunk cur c.size) (c.fmtSeen fmt) := by
  obtain ⟨hid, hdata, hsize, hfit, hhead, hfmt⟩ := h
  rw [Chunk.fmtSeen]
  split
  · next hisFmt =>
    obtain ⟨hlong, hbody, hformat, hchannels, hbits, hfields, htail⟩ := hfmt hisFmt
    rw [walkChunks_of_fmt m wav len fuel cur fmt c.size hfit hsize (hisFmt ▸ hhead) hlong hbody,
      loadFmt_of_holds m wav cur c.fields hformat hchannels hbits hfields htail, ok_bind]
  · next hnotFmt =>
    rw [walkChunks_of_head m wav len fuel cur fmt c.id c.size hfit hsize hid hhead, if_neg hnotFmt,
      if_neg (show c.id ≠ dataTag from hdata)]

theorem walkChunks_of_chunksFrom (cs : List Chunk) (fuel cur e : Nat) (fmt : Option FmtChunk)
    (h : m.chunksFrom wav len cur cs e) :
    walkChunks m wav len (fuel + cs.length) cur fmt = walkChunks m wav len fuel e (cs.foldl Chunk.fmtSeen fmt) := by
  induction cs generalizing cur fmt with
  | nil =>
    obtain rfl : cur = e := h
    rfl
  | cons c cs ih =>
    obtain ⟨hc, hcs⟩ := h
    calc walkChunks m wav len (fuel + cs.length + 1) cur fmt
        = walkChunks m wav len (fuel + cs.length) (nextChunk cur c.size) (c.fmtSeen fmt) :=
          walkChunks_of_chunkAt m wav len _ cur fmt c hc
      _ = walkChunks m wav len fuel e (cs.foldl Chunk.fmtSeen (c.fmtSeen fmt)) := ih _ _ hcs

/-! ### The parser -/

theorem parseWav_of_short (h : len < 12) : parseWav m wav len = .error (.raise .formatError) := by
  rw [parseWav, decide_eq_false (by omega), require_false, error_bind]

section
variable (hlen : 12 ≤ len)
include hlen

theorem parseWav_of_unwritten_riff (h : m.readBytes wav 4 = none) :
    parseWav m wav len = .error (.fault .unwrittenRead) := by
  simp [parseWav, hlen, m.load_of_unwritten _ _ h]

theorem parseWav_of_wrong_riff (tag : List Byte) (h : m.readBytes wav 4 = some tag) (hne : tag ≠ riffTag) :
    parseWav m wav len = .error (.raise .formatError) := by
  simp [parseWav, hlen, (m.load_ok _ _ _).mpr h, beq_eq_false_iff_ne.mpr hne]

variable (hriff : m.holds wav riffTag)
include hriff

theorem parseWav_of_unwritten_wave (h : m.readBytes (wav + 8) 4 = none) :
    parseWav m wav len = .error (.fault .unwrittenRead) := by
  simp [parseWav, hlen, m.load_of_holds wav 4 riffTag rfl hriff, m.load_of_unwritten _ _ h]

theorem parseWav_of_wrong_wave (tag : List Byte) (h : m.readBytes (wav + 8) 4 = some tag) (hne : tag ≠ waveTag) :
    parseWav m wav len = .error (.raise .formatError) := by
  simp [parseWav, hlen, m.load_of_holds wav 4 riffTag rfl hriff, (m.load_ok _ _ _).mpr h, beq_eq_false_iff_ne.mpr hne]

variable (hwave : m.holds (wav + 8) waveTag)
include hwave

/-- With both tags right the parser's answer is that of the walk from offset 12. -/
theorem parseWav_of_tags :
    parseWav m wav len = walkChunks m wav len ((len - 12) / 8 + 1) 12 none >>= containerOf len := by
  simp [parseWav, hlen, m.load_of_holds wav 4 riffTag rfl hriff, m.load_of_holds (wav + 8) 4 waveTag rfl hwave]

variable (cs : List Chunk) (e : Nat) (hcs : m.chunksFrom wav len 12 cs e)
include hcs

/-- The chunks before offset `e` leave only their last `fmt ` fields behind: because the bound on the walk can be
exceeded freely, the walk from `e` may be given the whole bound again. -/
theorem parseWav_of_chunksFrom :
    parseWav m wav len = walkChunks m wav len ((len - 12) / 8 + 1) e (lastFmt cs) >>= containerOf len := by
  rw [parseWav_of_tags m wav len hlen hriff hwave, lastFmt, ← walkChunks_of_chunksFrom m wav len cs _ 12 e none hcs,
    walkChunks_of_more_fuel m wav len _ 12 none _ (by omega) (Nat.le_add_right _ cs.length)]

theorem parseWav_of_no_head (h : len < e + 8) : parseWav m wav len = .error (.raise .formatError) := by
  rw [parseWav_of_chunksFrom m wav len hlen hriff hwave cs e hcs, walkChunks_of_no_head m wav len _ e _ h, ok_bind]
  rfl

variable (hfit : e + 8 ≤ len)
include hfit

theorem parseWav_of_unwritten_head (h : m.readBytes (wav + e) 8 = none) :
    parseWav m wav len = .error (.fault .unwrittenRead) := by
  rw [parseWav_of_chunksFrom m wav len hlen hriff hwave cs e hcs, walkChunks_of_unwritten_head m wav len _ e _ hfit h,
    error_bind]

variable (size : Nat) (hsize : size < 2 ^ 32)
include hsize

theorem parseWav_of_short_fmt (h : m.holds (wav + e) (fmtTag ++ leBytes 4 size)) (hshort : size < 16 ∨ len < e + 24) :
    parseWav m wav len = .error (.raise .formatError) := by
  rw [parseWav_of_chunksFrom m wav len hlen hriff hwave cs e hcs,
    walkChunks_of_short_fmt m wav len _ e _ size hfit hsize h hshort, error_bind]

theorem parseWav_of_unwritten_fmt (h : m.holds (wav + e) (fmtTag ++ leBytes 4 size)) (hlong : 16 ≤ size)
    (hbody : e + 24 ≤ len) (hfields : ∃ i ∈ [8, 9, 10, 11, 22, 23], m.read (wav + e + i) = none) :
    parseWav m wav len = .error (.fault .unwrittenRead) := by
  rw [parseWav_of_chunksFrom m wav len hlen hriff hwave cs e hcs,
    walkChunks_of_fmt m wav len _ e _ size hfit hsize h hlong hbody, loadFmt_of_unwritten m wav e hfields, error_bind,
    error_bind]

/-- At a `data` chunk the parser's answer is that of the checks after the walk (40_container R111). -/
theorem parseWav_of_data (h : m.holds (wav + e) (dataTag ++ leBytes 4 size)) :
    parseWav m wav len = containerOf len { fmt := lastFmt cs, data := some (e + 8, size) } := by
  rw [parseWav_of_chunksFrom m wav len hlen hriff hwave cs e hcs, walkChunks_of_data m wav len _ e _ size hfit hsize h,
    ok_bind]

end
end

/-! ### The checks after the walk -/

section
variable (len offset size : Nat) (f : FmtChunk)

theorem containerOf_of_no_fmt :
    containerOf len { fmt := none, data := some (offset, size) } = .error (.raise .formatError) := rfl

theorem containerOf_of_rejected (h : f.format ≠ 1 ∨ f.bits ≠ 16 ∨ len < offset + size) :
    containerOf len { fmt := some f, data := some (offset, size) } = .error (.raise .formatError) := by
  cases hpcm : (f.format == 1 && f.bits == 16) with
  | false => simp only [containerOf, hpcm, require_false, error_bind]
  | true =>
    simp only [Bool.and_eq_true, beq_iff_eq] at hpcm
    simp only [containerOf, hpcm.1, hpcm.2, BEq.rfl, Bool.and_true, require_true, ok_bind,
      decide_eq_false (show ¬ offset + size ≤ len by omega), require_false, error_bind]

theorem containerOf_of_accepted (hformat : f.format = 1) (hbits : f.bits = 16) (hend : offset + size ≤ len) :
    containerOf len { fmt := some f, data := some (offset, size) } =
      .ok { dataOffset := offset, dataSize := size, channelCount := f.channels } := by
  simp [containerOf, hformat, hbits, hend]

end

/-! ### PARSE -/

theorem exec_parse_of_outside (s : State) (h : s.inside s.wav = false) :
    exec .parse s = .next (s.completeErr .rangeError) := by
  simp [exec, execParse, parseBody, h]

theorem exec_parse_of_error (s : State) (st : Stop) (hin : s.inside s.wav = true) (h : s.parseCarrier = .error st) :
    exec .parse s = finish s (.error st) := by
  simp [exec, execParse, parseBody, hin, h]

theorem exec_parse_of_ok (s : State) (c : Container) (hin : s.inside s.wav = true) (h : s.parseCarrier = .ok c) :
    exec .parse s = .next (s.withContainer c).completeOk := by
  rw [exec, execParse, (parseBody_ok _ _).mpr ⟨hin, c, h, rfl⟩, finish]

/-- Settles O10: PARSE is one equation per answer of the parser, and the parser is one equation per way the
pseudocode can go: at the tags, at a chunk head, at a `fmt ` chunk and at the `data` chunk. -/
theorem parseFollowsItsRule : Obligations.ParseFollowsItsRule := by
  intro s
  refine ⟨exec_parse_of_outside s, exec_parse_of_error s _, fun f => exec_parse_of_error s _, exec_parse_of_ok s,
    parseWav_of_short _ _ _, fun hlen => ⟨parseWav_of_unwritten_riff _ _ _ hlen, parseWav_of_wrong_riff _ _ _ hlen,
      fun hriff => ⟨parseWav_of_unwritten_wave _ _ _ hlen hriff, parseWav_of_wrong_wave _ _ _ hlen hriff,
        fun hwave cs e hcs => ?_⟩⟩⟩
  refine ⟨parseWav_of_no_head _ _ _ hlen hriff hwave cs e hcs,
    parseWav_of_unwritten_head _ _ _ hlen hriff hwave cs e hcs,
    fun size hfit hsize => ⟨fun hfmt => ?_, fun hdata => ?_⟩⟩
  · exact ⟨parseWav_of_short_fmt _ _ _ hlen hriff hwave cs e hcs hfit size hsize hfmt,
      parseWav_of_unwritten_fmt _ _ _ hlen hriff hwave cs e hcs hfit size hsize hfmt⟩
  · have hparse : s.parseCarrier = containerOf s.wav.len { fmt := lastFmt cs, data := some (e + 8, size) } :=
      parseWav_of_data _ _ _ hlen hriff hwave cs e hcs hfit size hsize hdata
    refine ⟨fun hno => ?_, fun before after f hsplit hf hafter => ?_⟩
    · rw [hparse, lastFmt_of_no_fmt cs hno, containerOf_of_no_fmt]
    · rw [hparse, hsplit, lastFmt_of_fmt before after f hf hafter]
      exact ⟨containerOf_of_rejected _ _ _ _, containerOf_of_accepted _ _ _ _⟩

/-- The `fmt ` chunk of the canonical header (40_container R112): 16 bytes, PCM of 16 bits. -/
def canonicalFmt (channels : Nat) : Chunk :=
  { id := fmtTag, size := 16, fields := { format := 1, channels := channels, bits := 16 } }

theorem canonicalFmt_chunkAt (m : Memory) (wav len cur channels : Nat) (hbody : cur + 24 ≤ len)
    (hchannels : channels < 2 ^ 16) (hhead : m.holds (wav + cur) (fmtTag ++ leBytes 4 16))
    (hfields : m.holds (wav + cur + 8) (leBytes 2 1 ++ leBytes 2 channels))
    (hbits : m.holds (wav + cur + 22) (leBytes 2 16)) : m.chunkAt wav len cur (canonicalFmt channels) :=
  ⟨rfl, show fmtTag ≠ dataTag by decide, show 16 < 2 ^ 32 by decide, by omega, hhead, fun _ =>
    ⟨Nat.le_refl _, hbody, show 1 < 2 ^ 16 by decide, hchannels, show 16 < 2 ^ 16 by decide, hfields, hbits⟩⟩

/-- The canonical header is the tags, one `fmt ` chunk at offset 12 and the head of the `data` chunk at offset 36. -/
theorem parseWav_of_canonical (m : Memory) (wav len channels size : Nat) (riffSize rate byteRate align : List Byte)
    (hriffSize : riffSize.length = 4) (hrate : rate.length = 4) (hbyteRate : byteRate.length = 4)
    (halign : align.length = 2) (hchannels : channels < 2 ^ 16) (hsize : size < 2 ^ 32) (hend : 44 + size ≤ len)
    (h : m.holds wav (riffTag ++ riffSize ++ waveTag ++ fmtTag ++ leBytes 4 16 ++ leBytes 2 1 ++ leBytes 2 channels ++
      rate ++ byteRate ++ align ++ leBytes 2 16 ++ dataTag ++ leBytes 4 size)) :
    parseWav m wav len = .ok { dataOffset := 44, dataSize := size, channelCount := channels } := by
  simp only [Memory.holds_append, List.length_append, length_leBytes, hriffSize, hrate, hbyteRate, halign,
    show riffTag.length = 4 from rfl, show waveTag.length = 4 from rfl, show fmtTag.length = 4 from rfl,
    show dataTag.length = 4 from rfl, and_assoc] at h
  obtain ⟨hriff, -, hwave, hfmtId, hfmtSize, hformat, hcount, -, -, -, hbits, hdataId, hdataSize⟩ := h
  have hfmt : m.chunkAt wav len 12 (canonicalFmt channels) :=
    canonicalFmt_chunkAt m wav len 12 channels (by omega) hchannels ((m.holds_append _ _ _).mpr ⟨hfmtId, hfmtSize⟩)
      ((m.holds_append _ _ _).mpr ⟨hformat, hcount⟩) hbits
  have hchunks : m.chunksFrom wav len 12 [canonicalFmt channels] 36 :=
    ⟨hfmt, show 12 + 8 + 16 + 16 % 2 = 36 from rfl⟩
  rw [parseWav_of_data m wav len (by omega) hriff hwave _ 36 hchunks (by omega) size hsize
    ((m.holds_append _ _ _).mpr ⟨hdataId, hdataSize⟩)]
  exact containerOf_of_accepted len 44 size (canonicalFmt channels).fields rfl rfl hend

/-- Settles O11: the parser accepts the header (`parseWav_of_canonical`), and the carrier lies inside BUF. -/
theorem canonicalCarrierParses : Obligations.CanonicalCarrierParses := by
  intro s riffSize rate byteRate align channels size hriffSize hrate hbyteRate halign hchannels hin hend hread
  have hlen : s.wav.len < 2 ^ 32 := s.wavLen.isLt
  have hparse : s.parseCarrier = .ok { dataOffset := 44, dataSize := size, channelCount := channels } :=
    parseWav_of_canonical s.buf _ _ channels size riffSize rate byteRate align hriffSize hrate hbyteRate halign
      hchannels (by omega) hend ((s.buf.readBytes_eq_some_iff_holds _ _ _).mp hread).2
  exact ⟨_, exec_parse_of_ok s _ ((s.inside_eq_true s.wav).mpr hin) hparse, rfl⟩

/-! ### What PARSE and KDF leave alone -/

/-- Settles O21: a success is the container's registers or the key store, and a failure changes the status alone; KDF
does not raise FormatError, so it keeps PARSED (60_exceptions R203). -/
theorem frameOfParseAndKdf : Obligations.FrameOfParseAndKdf := by
  refine ⟨fun s t h => ?_, fun s t h => ?_⟩
  · obtain ⟨u, hu, rfl⟩ | ⟨e, -, rfl⟩ := (finish_next s t (parseBody s)).mp h
    · obtain ⟨-, c, -, rfl⟩ := (parseBody_ok s u).mp hu
      exact ⟨rfl, fun _ => rfl⟩
    · exact ⟨rfl, fun _ => rfl⟩
  · obtain ⟨u, hu, rfl⟩ | ⟨e, he, rfl⟩ := (finish_next s t (kdfBody Config.kdfFn s)).mp h
    · obtain ⟨-, pw, -, rfl⟩ := (kdfBody_ok Config.kdfFn s u).mp hu
      exact ⟨rfl, rfl, fun _ => rfl⟩
    · have hne : e ≠ .formatError := by
        rintro rfl
        simpa using kdfBody_raisesOnly Config.kdfFn s _ he
      exact ⟨rfl, if_neg hne, fun _ => rfl⟩

end Sys2Proof.Machine
end

section
/-! SUPPORT. Counter mode (spec 41_key_cipher R132, R138), what a command with an output area does to BUF (10_state R33,
R34), and KDF, ENCRYPT and DECRYPT rule by rule (41_key_cipher R130 to R138). -/

namespace Sys2Proof.Machine

/-! ### Counter mode -/

theorem keystreamByte_eq (E : BlockCipher) (K : Bytes32) (iv : Bytes16) (i : Nat) :
    keystreamByte E K iv i = (E K (counterBlock iv (i / 16)))[i % 16]'(Nat.mod_lt i (by decide)) := by
  simp [keystreamByte, List.getD_eq_getElem?_getD, Nat.mod_lt]

theorem beNat_counterBlock (iv : Bytes16) (j : Nat) :
    beNat (counterBlock iv j).toList = (beNat iv.toList + j) % 2 ^ 128 := by
  rw [counterBlock, toList_toBytes16 _ (length_beBytes 16 _), beNat_beBytes]
  exact Nat.mod_mod _ _

theorem ctrXorFrom_getElem? (E : BlockCipher) (K : Bytes32) (iv : Bytes16) (k : Nat) (X : List Byte) (i : Nat) :
    (ctrXorFrom E K iv k X)[i]? = X[i]?.map (· ^^^ keystreamByte E K iv (k + i)) := by
  induction X generalizing k i with
  | nil => simp [ctrXorFrom]
  | cons x xs ih =>
    cases i with
    | zero => rfl
    | succ i => rw [ctrXorFrom, List.getElem?_cons_succ, List.getElem?_cons_succ, ih, Nat.add_right_comm, Nat.add_assoc]

/-- Settles O30: the counter block is the big-endian form of its number, and each byte meets its keystream byte. -/
theorem keystreamIsCounterMode : Obligations.KeystreamIsCounterMode := by
  refine ⟨beNat_counterBlock, fun E K iv X => ⟨length_ctrXor E K iv X, fun i h => ?_⟩⟩
  rw [ctrXor, ctrXorFrom_getElem?, List.getElem?_eq_getElem h, Nat.zero_add, keystreamByte_eq, Option.map_some]

/-- The same keystream byte twice is no change (41_key_cipher R138). -/
theorem ctrXorFrom_ctrXorFrom (E : BlockCipher) (K : Bytes32) (iv : Bytes16) (k : Nat) (X : List Byte) :
    ctrXorFrom E K iv k (ctrXorFrom E K iv k X) = X := by
  induction X generalizing k with
  | nil => rfl
  | cons x xs ih => rw [ctrXorFrom, ctrXorFrom, ih, BitVec.xor_assoc, BitVec.xor_self, BitVec.xor_zero]

theorem decryptBytes_append (E : BlockCipher) (K : Bytes32) (iv : Bytes16) (C : List Byte) :
    decryptBytes E K (iv.toList ++ C) = ctrXor E K iv C := by
  rw [decryptBytes, toBytes16_toList, List.drop_left' iv.length_toList]

theorem decryptBytes_encryptBytes (E : BlockCipher) (K : Bytes32) (iv : Bytes16) (P : List Byte) :
    decryptBytes E K (encryptBytes E K iv P) = P :=
  (decryptBytes_append E K iv _).trans (ctrXorFrom_ctrXorFrom E K iv 0 P)

/-- Settles O31: the IV goes with the ciphertext, so DECRYPT makes ENCRYPT's keystream again. -/
theorem ctrXorIsItsOwnInverse : Obligations.CtrXorIsItsOwnInverse := fun E K iv X =>
  ⟨ctrXorFrom_ctrXorFrom E K iv 0 X, decryptBytes_encryptBytes E K iv X⟩

/-! ### KDF -/

theorem exec_kdf_of_outside (s : State) (h : s.inside s.src = false) :
    exec .kdf s = .next (s.completeErr .rangeError) := by
  simp [exec, execKdf, kdfBody, h]

theorem exec_kdf_of_unwritten (s : State) (hin : s.inside s.src = true)
    (h : s.buf.readBytes s.src.base s.src.len = none) : exec .kdf s = .fault .unwrittenRead := by
  simp [exec, execKdf, kdfBody, hin, s.buf.load_of_unwritten _ _ h]

theorem exec_kdf_of_read (s : State) (pw : List Byte) (hin : s.inside s.src = true)
    (h : s.buf.readBytes s.src.base s.src.len = some pw) :
    exec .kdf s = .next (State.completeOk { s with key := Config.kdfFn pw, keyw := 0xFF }) := by
  rw [exec, execKdf, (kdfBody_ok _ _ _).mpr ⟨hin, pw, h, rfl⟩, finish_ok]

/-- Settles O12: one equation per outcome, and keyw is 0xFF after a success. -/
theorem kdfFollowsItsRule : Obligations.KdfFollowsItsRule := fun s =>
  ⟨exec_kdf_of_outside s, exec_kdf_of_unwritten s, fun pw hin h => ⟨_, exec_kdf_of_read s pw hin h, rfl, rfl⟩⟩

/-! ### An output area -/

theorem Memory.holds_writeBytes (m : Memory) (a : Nat) (bs : List Byte) (h : a + bs.length ≤ m.bytes) :
    (m.writeBytes a bs).holds a bs := fun i hi => m.read_writeBytes_inside a i bs h hi

theorem Memory.sameOutside_writeBytes (m : Memory) (a : Nat) (bs : List Byte) :
    m.sameOutside (m.writeBytes a bs) a bs.length :=
  ⟨m.writeBytes_top a bs, fun x hx => m.read_writeBytes_outside a x bs hx⟩

/-- An output no longer than an area inside BUF lies inside BUF (60_exceptions R205). -/
theorem State.output_inside (s : State) (p q : Region) (n : Nat) (h : s.regionsOk p q = true) (hn : n ≤ q.len) :
    q.base + n ≤ s.buf.bytes := by
  simp only [State.regionsOk, Bool.and_eq_true, State.inside_eq_true] at h
  have hin : q.base + q.len ≤ s.buf.bytes := h.1.2
  omega

/-- An output that fits DST_CAP has a length that fits DST_LEN (10_state R33, R34). -/
theorem State.toNat_outputLen (s : State) (n : Nat) (h : n ≤ s.dst.len) : (BitVec.ofNat 32 n).toNat = n :=
  (BitVec.toNat_ofNat n 32).trans (Nat.mod_eq_of_lt (h.trans_lt s.dstCap.isLt))

/-! ### ENCRYPT -/

section
variable (E : BlockCipher) (iv : Bytes16) (s : State)

theorem encrypt_of_no_key (h : s.keyv = false) : finish s (encryptBody E iv s) = .next (s.completeErr .noKey) := by
  simp [encryptBody, h]

variable (hkey : s.keyv = true)
include hkey

theorem encrypt_of_bad_regions (h : s.regionsOk s.src s.dst = false) :
    finish s (encryptBody E iv s) = .next (s.completeErr .rangeError) := by
  simp [encryptBody, hkey, h]

variable (hregions : s.regionsOk s.src s.dst = true)
include hregions

theorem encrypt_of_small_area (h : s.dst.len < s.src.len + 16) :
    finish s (encryptBody E iv s) = .next (s.completeErr .rangeError) := by
  simp [encryptBody, hkey, hregions, Nat.not_le.mpr h]

variable (hfit : s.src.len + 16 ≤ s.dst.len)
include hfit

theorem encrypt_of_unwritten (h : s.buf.readBytes s.src.base s.src.len = none) :
    finish s (encryptBody E iv s) = .fault .unwrittenRead := by
  simp [encryptBody, hkey, hregions, hfit, s.buf.load_of_unwritten _ _ h]

theorem encrypt_of_read (P : List Byte) (h : s.buf.readBytes s.src.base s.src.len = some P) :
    finish s (encryptBody E iv s) = .next (s.drawn.withOutput (encryptBytes E s.key iv P)).completeOk := by
  rw [(encryptBody_ok E iv s _).mpr ⟨hkey, hregions, hfit, P, h, rfl⟩, finish_ok]

end

/-- Settles O13: one equation per outcome, and the output is written by `Memory.writeBytes` inside BUF. -/
theorem encryptFollowsItsRule : Obligations.EncryptFollowsItsRule := by
  intro s
  refine ⟨encrypt_of_no_key _ _ s, encrypt_of_bad_regions _ _ s, encrypt_of_small_area _ _ s,
    encrypt_of_unwritten _ _ s, fun P hkey hregions hfit hread => ?_⟩
  have hlen : (encryptBytes Config.blockCipher s.key (Config.ivDraw s.draws) P).length = s.src.len + 16 := by
    rw [length_encryptBytes, s.buf.length_of_readBytes _ _ _ hread]
  refine ⟨_, encrypt_of_read _ _ s hkey hregions hfit P hread, ?_, ?_, ?_⟩
  · rw [← hlen]; rfl
  · exact s.buf.holds_writeBytes _ _ (s.output_inside _ _ _ hregions (hlen.trans_le hfit))
  · rw [← hlen]; exact s.buf.sameOutside_writeBytes _ _

/-! ### DECRYPT -/

section
variable (E : BlockCipher) (s : State)

theorem decrypt_of_no_key (h : s.keyv = false) : finish s (decryptBody E s) = .next (s.completeErr .noKey) := by
  simp [decryptBody, h]

variable (hkey : s.keyv = true)
include hkey

theorem decrypt_of_bad_regions (h : s.regionsOk s.src s.dst = false) :
    finish s (decryptBody E s) = .next (s.completeErr .rangeError) := by
  simp [decryptBody, hkey, h]

variable (hregions : s.regionsOk s.src s.dst = true)
include hregions

theorem decrypt_of_short (h : s.src.len < 16) : finish s (decryptBody E s) = .next (s.completeErr .shortInput) := by
  simp [decryptBody, hkey, hregions, Nat.not_le.mpr h]

variable (hlong : 16 ≤ s.src.len)
include hlong

theorem decrypt_of_small_area (h : s.dst.len < s.src.len - 16) :
    finish s (decryptBody E s) = .next (s.completeErr .rangeError) := by
  simp [decryptBody, hkey, hregions, hlong, Nat.not_le.mpr (Nat.add_lt_of_lt_sub h)]

variable (hfit : s.src.len - 16 ≤ s.dst.len)
include hfit

theorem decrypt_of_unwritten (h : s.buf.readBytes s.src.base s.src.len = none) :
    finish s (decryptBody E s) = .fault .unwrittenRead := by
  simp [decryptBody, hkey, hregions, hlong, Nat.sub_le_iff_le_add.mp hfit, s.buf.load_of_unwritten _ _ h]

theorem decrypt_of_read (C : List Byte) (h : s.buf.readBytes s.src.base s.src.len = some C) :
    finish s (decryptBody E s) = .next (s.withOutput (decryptBytes E s.key C)).completeOk := by
  rw [(decryptBody_ok E s _).mpr ⟨hkey, hregions, hlong, hfit, C, h, rfl⟩, finish_ok]

end

/-- Settles O14: one equation per outcome; with the IV split off, the output is the rest in counter mode. -/
theorem decryptFollowsItsRule : Obligations.DecryptFollowsItsRule := by
  intro s
  refine ⟨decrypt_of_no_key _ s, decrypt_of_bad_regions _ s, decrypt_of_short _ s, decrypt_of_small_area _ s,
    decrypt_of_unwritten _ s, fun iv C hkey hregions hlong hfit hread => ?_⟩
  have hlen : (ctrXor Config.blockCipher s.key iv C).length = s.src.len - 16 := by
    rw [length_ctrXor, ← s.buf.length_of_readBytes _ _ _ hread]; simp
  have hnext := decrypt_of_read Config.blockCipher s hkey hregions hlong hfit _ hread
  rw [decryptBytes_append] at hnext
  refine ⟨_, hnext, ?_, ?_, ?_⟩
  · rw [← hlen]; rfl
  · exact s.buf.holds_writeBytes _ _ (s.output_inside _ _ _ hregions (hlen.trans_le hfit))
  · rw [← hlen]; exact s.buf.sameOutside_writeBytes _ _

/-! ### The round trip -/

/-- What a successful ENCRYPT has left (41_key_cipher R134): the IV and the ciphertext, DST_LEN bytes at DST_BASE. -/
theorem encrypt_success (E : BlockCipher) (iv : Bytes16) (s t : State) (P : List Byte)
    (h : finish s (encryptBody E iv s) = .next t) (herr : t.err = false)
    (hP : s.buf.readBytes s.src.base s.src.len = some P) :
    t.dstLen.toNat = P.length + 16 ∧ t.buf.readBytes s.dst.base t.dstLen.toNat = some (encryptBytes E s.key iv P) := by
  obtain ⟨u, hu, rfl⟩ | ⟨e, -, rfl⟩ := (finish_next s t _).mp h
  · obtain ⟨-, hregions, hfit, P', hP', rfl⟩ := (encryptBody_ok E iv s u).mp hu
    obtain rfl : P' = P := Option.some.inj (hP'.symm.trans hP)
    have hlen : (encryptBytes E s.key iv P').length ≤ s.dst.len := by
      rwa [length_encryptBytes, s.buf.length_of_readBytes _ _ _ hP]
    have hdst : (BitVec.ofNat 32 (encryptBytes E s.key iv P').length).toNat = _ := s.toNat_outputLen _ hlen
    refine ⟨hdst.trans (length_encryptBytes E s.key iv P'), ?_⟩
    rw [State.completeOk_dstLen, State.withOutput_dstLen, hdst]
    exact s.buf.readBytes_writeBytes_same _ _ (s.output_inside _ _ _ hregions hlen)
  · simp at herr

/-- Settles O32: DECRYPT reads the bytes ENCRYPT left, and `decryptBytes_encryptBytes` gives the plaintext. -/
theorem decryptUndoesEncrypt : Obligations.DecryptUndoesEncrypt := by
  intro E iv s t u P hnext herr hP hbuf hukey hkeyv hbase hlen hregions hfit
  obtain ⟨hdst, hread⟩ := encrypt_success E iv s t P hnext herr hP
  rw [← hbuf, ← hbase, ← hlen] at hread
  have hsrc : u.src.len = P.length + 16 := hlen.trans hdst
  have hdec := decrypt_of_read E u hkeyv hregions (by omega) (by omega) _ hread
  rw [hukey, decryptBytes_encryptBytes] at hdec
  exact ⟨_, hdec, rfl, u.toNat_outputLen _ hfit,
    u.buf.readBytes_writeBytes_same _ _ (u.output_inside _ _ _ hregions hfit)⟩

/-! ### What the output commands leave alone -/

/-- `t` is `s` after a command with an output area: with ERR set BUF is as it was, and otherwise an output of DST_LEN
bytes stands at DST_BASE. -/
def State.outputWritten (s t : State) : Prop :=
  (t.err = true ∧ t.buf = s.buf) ∨
  (t.err = false ∧ ∃ out, out.length ≤ s.dst.len ∧ t.dstLen = BitVec.ofNat 32 out.length ∧
    t.buf = s.buf.writeBytes s.dst.base out)

theorem State.outputWritten.read_eq {s t : State} (h : s.outputWritten t) (a : Nat)
    (ha : t.err = true ∨ a < s.dst.base ∨ s.dst.base + t.dstLen.toNat ≤ a) : t.buf.read a = s.buf.read a := by
  obtain ⟨-, hbuf⟩ | ⟨herr, out, hlen, hdst, hbuf⟩ := h
  · rw [hbuf]
  · rw [hdst, s.toNat_outputLen _ hlen] at ha
    rw [hbuf]
    exact s.buf.read_writeBytes_outside _ _ _ (ha.resolve_left (by simp [herr]))

/-- A command that does not raise FormatError keeps PARSED when it fails (60_exceptions R203). -/
theorem finish_next_of_no_formatError {es : List CmdError} (s t : State) (r : Except Stop State)
    (h : finish s r = .next t) (hr : RaisesOnly es r) (hes : .formatError ∉ es) :
    (∃ u, r = .ok u ∧ t = u.completeOk) ∨
    ∃ e : CmdError, t = { s with done := true, err := true, errcode := e.code, pending := none } := by
  obtain hok | ⟨e, he, rfl⟩ := (finish_next s t r).mp h
  · exact .inl hok
  · have hne : e ≠ .formatError := by
      rintro rfl
      obtain hfault | ⟨e, hmem, heq⟩ := hr _ he
      · cases hfault
      · cases heq; exact hes hmem
    exact .inr ⟨e, by simp [State.completeErr, hne]⟩

theorem exec_encrypt_frame (s t : State) (h : exec .encrypt s = .next t) :
    t = { s with
      buf := t.buf, dstLen := t.dstLen, draws := t.draws
      done := t.done, err := t.err, errcode := t.errcode, pending := t.pending } ∧ s.outputWritten t := by
  obtain ⟨u, hu, rfl⟩ | ⟨e, rfl⟩ := finish_next_of_no_formatError s t _ h (encryptBody_raisesOnly _ _ s) (by decide)
  · obtain ⟨-, -, hfit, P, hP, rfl⟩ := (encryptBody_ok _ _ _ _).mp hu
    refine ⟨rfl, .inr ⟨rfl, _, ?_, rfl, rfl⟩⟩
    rwa [length_encryptBytes, s.buf.length_of_readBytes _ _ _ hP]
  · exact ⟨rfl, .inl ⟨rfl, rfl⟩⟩

theorem exec_decrypt_frame (s t : State) (h : exec .decrypt s = .next t) :
    t = { s with
      buf := t.buf, dstLen := t.dstLen, done := t.done, err := t.err, errcode := t.errcode, pending := t.pending } ∧
    s.outputWritten t := by
  obtain ⟨u, hu, rfl⟩ | ⟨e, rfl⟩ := finish_next_of_no_formatError s t _ h (decryptBody_raisesOnly _ s) (by decide)
  · obtain ⟨-, -, -, hfit, C, hC, rfl⟩ := (decryptBody_ok _ _ _).mp hu
    refine ⟨rfl, .inr ⟨rfl, _, ?_, rfl, rfl⟩⟩
    rwa [length_decryptBytes, s.buf.length_of_readBytes _ _ _ hC]
  · exact ⟨rfl, .inl ⟨rfl, rfl⟩⟩

theorem exec_lsbrd_frame (s t : State) (h : exec .lsbrd s = .next t) :
    t = { s with
      buf := t.buf, dstLen := t.dstLen, done := t.done, err := t.err, errcode := t.errcode, pending := t.pending } ∧
    s.outputWritten t := by
  obtain ⟨u, hu, rfl⟩ | ⟨e, rfl⟩ := finish_next_of_no_formatError s t _ h (lsbrdBody_raisesOnly s) (by decide)
  · obtain ⟨-, -, -, hfit, bits, hbits, rfl⟩ := (lsbrdBody_ok _ _).mp hu
    refine ⟨rfl, .inr ⟨rfl, _, ?_, rfl, rfl⟩⟩
    rwa [length_bitsToBytes, readLsbs_length _ _ _ _ hbits]
  · exact ⟨rfl, .inl ⟨rfl, rfl⟩⟩

/-- HENC and HDEC alike, whatever the code function. -/
theorem codeBody_frame (code : List Bool → List Bool) (s t : State) (h : finish s (codeBody code s) = .next t) :
    t = { s with
      buf := t.buf, dstLen := t.dstLen, totalBits := t.totalBits
      done := t.done, err := t.err, errcode := t.errcode, pending := t.pending } ∧ s.outputWritten t := by
  obtain ⟨u, hu, rfl⟩ | ⟨e, rfl⟩ := finish_next_of_no_formatError s t _ h (codeBody_raisesOnly code s) (by decide)
  · obtain ⟨-, -, bits, -, hfit, rfl⟩ := (codeBody_ok _ _ _).mp hu
    exact ⟨rfl, .inr ⟨rfl, _, hfit, rfl, rfl⟩⟩
  · exact ⟨rfl, .inl ⟨rfl, rfl⟩⟩

/-- The body is cut to the payload length of the header (43_embed_extract R185). -/
theorem readBody_length_le (m : Memory) (wav : Nat) (c : Container) (h : WireHeader) (enc : List Byte)
    (henc : readBody m wav c h = .ok enc) : enc.length ≤ h.payloadLength := by
  obtain ⟨bits, -, henc⟩ := (bind_ok _ _ _).mp henc
  obtain rfl := Except.ok.inj henc
  exact List.length_take_le _ _

/-- EXTRACT may raise FormatError, and then PARSED is one of the fields that change. -/
theorem exec_extract_frame (s t : State) (h : exec .extract s = .next t) :
    t = { s with
      buf := t.buf, dstLen := t.dstLen, payloadLen := t.payloadLen, totalBits := t.totalBits
      dataOffset := t.dataOffset, dataSize := t.dataSize, channels := t.channels, sampleCount := t.sampleCount
      parsed := t.parsed, eccf := t.eccf, done := t.done, err := t.err, errcode := t.errcode, pending := t.pending } ∧
    s.outputWritten t := by
  obtain ⟨u, hu, rfl⟩ | ⟨e, -, rfl⟩ := (finish_next s t _).mp h
  · obtain ⟨-, -, c, -, hd, -, -, -, hfit, enc, henc, rfl⟩ := (extractBody_ok _ _ _).mp hu
    refine ⟨rfl, .inr ⟨rfl, _, ?_, rfl, rfl⟩⟩
    have hle := readBody_length_le _ _ _ _ _ henc
    rw [length_decryptBytes]
    omega
  · exact ⟨rfl, .inl ⟨rfl, rfl⟩⟩

/-- Settles O22: each command's frame names its registers and says that BUF changes by its output alone. -/
theorem frameOfOutputCommands : Obligations.FrameOfOutputCommands := by
  refine ⟨fun i s t hi h => State.outputWritten.read_eq ?_, fun s t h => (exec_encrypt_frame s t h).1,
    fun i s t hi h => ?_, fun i s t hi h => ?_, fun s t h => (exec_extract_frame s t h).1⟩
  · obtain rfl | rfl | rfl | rfl | rfl | rfl := hi
    · exact (exec_encrypt_frame s t h).2
    · exact (exec_decrypt_frame s t h).2
    · exact (codeBody_frame hamEncode s t h).2
    · exact (codeBody_frame hamDecode s t h).2
    · exact (exec_lsbrd_frame s t h).2
    · exact (exec_extract_frame s t h).2
  · obtain rfl | rfl := hi
    · exact (exec_decrypt_frame s t h).1
    · exact (exec_lsbrd_frame s t h).1
  · obtain rfl | rfl := hi
    · exact (codeBody_frame hamEncode s t h).1
    · exact (codeBody_frame hamDecode s t h).1

end Sys2Proof.Machine
end

section
/-! SUPPORT. The bit utilities (spec 42_bits_hamming R150 to R152): a packed byte sequence holds its bits in order, and
the bits past the end are 0. `List.takeD n s false` is the first `n` bits of `s`, 0 past its end (the `s'` of R151 and
R153). -/

namespace Sys2Proof.Machine

/-! ### Bits padded with 0 -/

theorem takeD_add (m n : Nat) (s : List Bool) :
    s.takeD (m + n) false = s.takeD m false ++ (s.drop m).takeD n false := by
  induction m generalizing s with
  | zero => simp
  | succ m ih => rw [Nat.succ_add, List.takeD, ih, List.drop_tail]; rfl

/-- A padded sequence is the sequence and then the padding (42_bits_hamming R152, R157). -/
theorem takeD_of_length_le (n : Nat) (s : List Bool) (h : s.length ≤ n) :
    s.takeD n false = s ++ List.replicate (n - s.length) false := by
  obtain ⟨k, rfl⟩ := Nat.exists_eq_add_of_le h
  simp [takeD_add, List.takeD_eq_take]

theorem takeD_getElem? (n : Nat) (s : List Bool) (i : Nat) (h : i < n) :
    (s.takeD n false)[i]? = some (s.getD i false) := by
  induction n generalizing s i with
  | zero => omega
  | succ n ih =>
    cases i with
    | zero => cases s <;> rfl
    | succ i =>
      rw [List.takeD, List.getElem?_cons_succ, ih s.tail i (by omega)]
      cases s <;> rfl

theorem takeD_four (s : List Bool) : s.takeD 4 false = [bitAt s 0, bitAt s 1, bitAt s 2, bitAt s 3] := by
  simp [bitAt, List.getD_eq_getElem?_getD, List.head?_eq_getElem?]

/-! ### One byte packed -/

/-- Bit 7 − m of a packed byte is element m (42_bits_hamming R151). -/
theorem packByte_getLsbD (s : List Bool) (m : Nat) (h : m < 8) : (packByte s).getLsbD (7 - m) = s.getD m false := by
  match m, h with
  | 0, _ | 1, _ | 2, _ | 3, _ | 4, _ | 5, _ | 6, _ | 7, _ =>
    simp only [packByte, BitVec.getLsbD_append]
    simp [bitAt]

theorem packByte_byteBits (b : Byte) : packByte (byteBits b) = b := by
  apply BitVec.eq_of_getLsbD_eq
  intro i hi
  have h := packByte_getLsbD (byteBits b) (7 - i) (by omega)
  rwa [List.getD_eq_getElem?_getD, byteBits_getElem? b _ (by omega), Option.getD_some,
    show 7 - (7 - i) = i by omega] at h

theorem byteBits_packByte_take (s : List Bool) : byteBits (packByte (s.take 8)) = s.takeD 8 false := by
  apply List.ext_getElem?
  intro m
  by_cases hm : m < 8
  · rw [byteBits_getElem? _ m hm, packByte_getLsbD _ m hm, takeD_getElem? 8 s m hm, List.getD_eq_getElem?_getD,
      List.getElem?_take_of_lt hm, List.getD_eq_getElem?_getD]
  · rw [List.getElem?_eq_none (by simpa using hm), List.getElem?_eq_none (by simpa using hm)]

/-! ### Sequences packed -/

/-- The bits of `n` packed bytes are the first 8n bits of the sequence, 0 past its end (42_bits_hamming R151). -/
theorem bytesToBits_packBytes (n : Nat) (s : List Bool) : bytesToBits (packBytes n s) = s.takeD (8 * n) false := by
  induction n generalizing s with
  | zero => rfl
  | succ n ih => rw [packBytes, bytesToBits, byteBits_packByte_take, ih, Nat.mul_succ, Nat.add_comm, takeD_add]

theorem bytesToBits_bitsToBytes (s : List Bool) :
    bytesToBits (bitsToBytes s) = s.takeD (8 * ((s.length + 7) / 8)) false := bytesToBits_packBytes _ s

theorem packBytes_bytesToBits (bs : List Byte) : packBytes bs.length (bytesToBits bs) = bs := by
  induction bs with
  | nil => rfl
  | cons b bs ih =>
    rw [List.length_cons, packBytes, bytesToBits, List.take_left' (length_byteBits b),
      List.drop_left' (length_byteBits b), packByte_byteBits, ih]

theorem bitsToBytes_bytesToBits (bs : List Byte) : bitsToBytes (bytesToBits bs) = bs := by
  have hlen : ceilDiv (bytesToBits bs).length 8 = bs.length := by
    rw [length_bytesToBits, ceilDiv]
    omega
  rw [bitsToBytes, hlen, packBytes_bytesToBits]

/-- Settles O24: the bits of a byte sequence stand byte by byte, and those of a packed sequence are the sequence padded
with 0. -/
theorem bitsAreTakenMostSignificantFirst : Obligations.BitsAreTakenMostSignificantFirst := by
  refine ⟨fun bs => ⟨length_bytesToBits bs, fun k m hk hm => ?_⟩,
    fun s => ⟨length_bitsToBytes s, fun k m hk hm => ?_⟩⟩
  · rw [bytesToBits_getElem? bs k m hm, List.getElem?_eq_getElem hk, Option.map_some]
  · have hbyte := bytesToBits_getElem? (bitsToBytes s) k m hm
    rw [List.getElem?_eq_getElem hk, Option.map_some] at hbyte
    have hlt : 8 * k + m < 8 * ((s.length + 7) / 8) := by
      have hk' : k < (s.length + 7) / 8 := by simpa [ceilDiv] using hk
      omega
    rw [bytesToBits_bitsToBytes, takeD_getElem? _ s _ hlt] at hbyte
    exact (Option.some.inj hbyte).symm

/-- Settles O25: unpacking a packed sequence gives it back with its padding, and packing unpacked bytes gives them
back. -/
theorem bitUtilityInverseLaws : Obligations.BitUtilityInverseLaws := by
  refine ⟨bitsToBytes_bytesToBits, fun s => ?_⟩
  rw [bytesToBits_bitsToBytes, takeD_of_length_le _ s (by omega)]
  exact ⟨List.take_left, List.drop_left⟩

end Sys2Proof.Machine
end

section
/-! SUPPORT. The Hamming(7,4) functions (spec 42_bits_hamming R153, R154, R156, R157) and HENC and HDEC rule by rule
(R155, R158). -/

namespace Sys2Proof.Machine

/-! ### The code, group by group -/

theorem encodeGroups_drop (n g : Nat) (s : List Bool) (h : g ≤ n) :
    (encodeGroups n s).drop (7 * g) = encodeGroups (n - g) (s.drop (4 * g)) := by
  induction g generalizing n s with
  | zero => rfl
  | succ g ih =>
    obtain ⟨n, rfl⟩ : ∃ k, n = k + 1 := ⟨n - 1, by omega⟩
    rw [Nat.mul_succ, Nat.add_comm, ← List.drop_drop, encodeGroups, List.drop_left' (length_hamGroup _ _ _ _),
      ih n _ (by omega), List.drop_drop, Nat.add_sub_add_right, Nat.mul_succ, Nat.add_comm 4]

theorem bitAt_drop (s : List Bool) (k i : Nat) : bitAt (s.drop k) i = bitAt s (k + i) := by
  simp [bitAt, List.getD_eq_getElem?_getD]

/-- Group `g` of the code of `n` groups (42_bits_hamming R153). -/
theorem encodeGroups_group (n g : Nat) (s : List Bool) (h : g < n) :
    ((encodeGroups n s).drop (7 * g)).take 7 =
      hamGroup (bitAt s (4 * g)) (bitAt s (4 * g + 1)) (bitAt s (4 * g + 2)) (bitAt s (4 * g + 3)) := by
  obtain ⟨k, hk⟩ : ∃ k, n - g = k + 1 := ⟨n - g - 1, by omega⟩
  rw [encodeGroups_drop n g s (Nat.le_of_lt h), hk, encodeGroups, List.take_left' (length_hamGroup _ _ _ _)]
  simp only [bitAt_drop, Nat.add_zero]

theorem length_hamEncode (s : List Bool) : (hamEncode s).length = 7 * ((s.length + 3) / 4) :=
  length_encodeGroups _ s

/-- Settles O26: `encodeGroups_group` for the groups of `hamEncode`. -/
theorem hammingCodeGroupByGroup : Obligations.HammingCodeGroupByGroup := by
  refine fun s => ⟨length_hamEncode s, ?_⟩
  rintro g hg _ _ _ _ rfl rfl rfl rfl
  exact encodeGroups_group _ g s hg

/-! ### One group received -/

theorem bitAt_zipWith_xor (sent flips : List Bool) (i : Nat) (h : sent.length = flips.length) :
    bitAt (List.zipWith Bool.xor sent flips) i = (bitAt sent i ^^ bitAt flips i) := by
  by_cases hi : i < sent.length
  · simp [bitAt, hi, h ▸ hi]
  · have hge : flips.length ≤ i := by omega
    simp [bitAt, hge, Nat.le_of_not_lt hi]

theorem flipAt_zipWith_xor (sent flips : List Bool) (p : Nat) :
    flipAt (List.zipWith Bool.xor sent flips) p = List.zipWith Bool.xor sent (flipAt flips p) := by
  unfold flipAt
  split
  · rfl
  · apply List.ext_getElem?
    intro i
    simp only [List.getElem?_modify, List.getElem?_zipWith]
    cases sent[i]? <;> cases flips[i]? <;> split <;> simp

@[simp] theorem length_flipAt (c : List Bool) (p : Nat) : (flipAt c p).length = c.length := by
  unfold flipAt; split <;> simp

section
variable (d1 d2 d3 d4 : Bool)

section
variable (flips : List Bool) (h : flips.length = 7)
include h

/-- The syndrome depends on the flips alone: a sent group satisfies the three parity checks (42_bits_hamming R154). -/
theorem syndrome_zipWith_xor_hamGroup :
    syndrome (List.zipWith Bool.xor (hamGroup d1 d2 d3 d4) flips) = syndrome flips := by
  have hbit := fun i => bitAt_zipWith_xor (hamGroup d1 d2 d3 d4) flips i h.symm
  simp only [syndrome, hbit]
  simp [hamGroup, bitAt, Bool.xor_left_comm, Bool.xor_comm]

/-- Decoding adds to the data what the flips alone decode to (42_bits_hamming R154). -/
theorem decodeGroup_zipWith_xor_hamGroup :
    decodeGroup (List.zipWith Bool.xor (hamGroup d1 d2 d3 d4) flips) =
      List.zipWith Bool.xor [d1, d2, d3, d4] (decodeGroup flips) := by
  have hbit := fun i => bitAt_zipWith_xor (hamGroup d1 d2 d3 d4) (flipAt flips (syndrome flips)) i (by simp [h])
  simp only [decodeGroup, syndrome_zipWith_xor_hamGroup _ _ _ _ flips h, flipAt_zipWith_xor, hbit]
  rfl

/-- A received group decodes to the data exactly when its flips alone decode to 0. -/
theorem decodeGroup_eq_data_iff :
    decodeGroup (List.zipWith Bool.xor (hamGroup d1 d2 d3 d4) flips) = [d1, d2, d3, d4] ↔
      decodeGroup flips = [false, false, false, false] := by
  have hxor : ∀ a b : Bool, (a ^^ b) = a ↔ b = false := by decide
  rw [decodeGroup_zipWith_xor_hamGroup _ _ _ _ flips h]
  simp [decodeGroup, hxor]

end

theorem hamEncode_of_four : hamEncode [d1, d2, d3, d4] = hamGroup d1 d2 d3 d4 := by
  simp [hamEncode, ceilDiv, encodeGroups, bitAt]

theorem hamDecode_of_seven (c : List Bool) (h : c.length = 7) : hamDecode c = decodeGroup c := by
  simp [hamDecode, decodeGroups, h, List.take_of_length_le (Nat.le_of_eq h)]

/-- One flip, or none, is corrected (42_bits_hamming R156). -/
theorem decodeGroup_flipAt_hamGroup (p : Nat) (hp : p ≤ 7) :
    decodeGroup (flipAt (hamGroup d1 d2 d3 d4) p) = [d1, d2, d3, d4] := by
  have hsent : hamGroup d1 d2 d3 d4 = List.zipWith Bool.xor (hamGroup d1 d2 d3 d4) (List.replicate 7 false) := by
    simp [hamGroup]
  have hflip : ∀ q : Fin 8, decodeGroup (flipAt (List.replicate 7 false) q.val) = [false, false, false, false] := by
    decide
  rw [hsent, flipAt_zipWith_xor, decodeGroup_eq_data_iff _ _ _ _ _ (by simp)]
  exact hflip ⟨p, by omega⟩

end

/-- What the flips of one group alone give (42_bits_hamming R156): a single flip stands at the syndrome's position, and
only no flip and a single flip decode to 0. -/
theorem syndrome_and_decodeGroup_of_flips : ∀ f1 f2 f3 f4 f5 f6 f7 : Bool,
    let flips := [f1, f2, f3, f4, f5, f6, f7]
    (flips.count true = 0 → syndrome flips = 0) ∧
    (flips.count true = 1 → flips[syndrome flips - 1]? = some true ∧ 1 ≤ syndrome flips) ∧
    (flips.count true = 2 → syndrome flips ≠ 0) ∧
    (decodeGroup flips = [false, false, false, false] ↔ flips.count true ≤ 1) := by
  decide

/-- Settles O28: syndrome and correction depend on the flips alone, and there are 128 patterns of them. -/
theorem hammingGroupCorrection : Obligations.HammingGroupCorrection := by
  rintro d1 d2 d3 d4 f1 f2 f3 f4 f5 f6 f7 _ _ _ rfl rfl rfl
  obtain ⟨hnone, hone, htwo, hdecode⟩ := syndrome_and_decodeGroup_of_flips f1 f2 f3 f4 f5 f6 f7
  rw [hamEncode_of_four, hamDecode_of_seven _ (by simp), syndrome_zipWith_xor_hamGroup _ _ _ _ _ rfl, ne_eq,
    decodeGroup_eq_data_iff _ _ _ _ _ rfl, hdecode]
  exact ⟨fun h => ⟨hnone h, by omega⟩, fun h => ⟨(hone h).1, (hone h).2, by omega⟩, by omega, htwo⟩

/-! ### Codes of any length -/

/-- Two sequences that differ at one position at most differ by a flip (42_bits_hamming R156). -/
theorem exists_flipAt_of_differ_once (sent received : List Bool) (q : Nat) (hlen : received.length = sent.length)
    (h : ∀ i, received[i]? ≠ sent[i]? → i = q) : ∃ p ≤ sent.length, received = flipAt sent p := by
  by_cases hq : received[q]? = sent[q]?
  · refine ⟨0, Nat.zero_le _, List.ext_getElem? fun i => ?_⟩
    by_contra hi
    exact hi (h i hi ▸ hq)
  · have hlt : q < sent.length := by
      by_contra hge
      exact hq (by rw [List.getElem?_eq_none (by omega), List.getElem?_eq_none (by omega)])
    refine ⟨q + 1, hlt, List.ext_getElem? fun i => ?_⟩
    rw [flipAt, if_neg (Nat.succ_ne_zero q), Nat.add_sub_cancel, List.getElem?_modify]
    by_cases hi : q = i
    · subst hi
      rw [List.getElem?_eq_getElem hlt, List.getElem?_eq_getElem (hlen ▸ hlt)] at hq ⊢
      simpa [Bool.eq_not] using hq
    · simpa [hi] using not_imp_comm.mp (h i) (Ne.symm hi)

/-- Decoding corrects at most one flip in each group: the flip of group `g` is at position `p g` of it (42_bits_hamming
R156, R157). -/
theorem decodeGroups_of_flips (n : Nat) (s received : List Bool) (p : Nat → Nat) (hlen : received.length = 7 * n)
    (h : ∀ i, received[i]? ≠ (encodeGroups n s)[i]? → i % 7 = p (i / 7)) :
    decodeGroups n received = s.takeD (4 * n) false := by
  induction n generalizing s received p with
  | zero => rfl
  | succ n ih =>
    rw [encodeGroups] at h
    have hfirst : ∀ i, (received.take 7)[i]? ≠ (hamGroup (bitAt s 0) (bitAt s 1) (bitAt s 2) (bitAt s 3))[i]? →
        i = p 0 := by
      intro i hi
      have hlt : i < 7 := by
        by_contra hge
        exact hi (by rw [List.getElem?_eq_none (by simp; omega), List.getElem?_eq_none (by simp; omega)])
      rw [List.getElem?_take_of_lt hlt] at hi
      have hpos := h i (by rwa [List.getElem?_append_left hlt])
      rwa [Nat.mod_eq_of_lt hlt, Nat.div_eq_of_lt hlt] at hpos
    have hgroup : decodeGroup (received.take 7) = s.takeD 4 false := by
      obtain ⟨q, hq, hflip⟩ := exists_flipAt_of_differ_once _ (received.take 7) (p 0) (by simp; omega) hfirst
      rw [hflip, decodeGroup_flipAt_hamGroup _ _ _ _ q hq, takeD_four]
    have hrest : decodeGroups n (received.drop 7) = (s.drop 4).takeD (4 * n) false := by
      refine ih (s.drop 4) (received.drop 7) (fun g => p (g + 1)) (by simp; omega) fun i hi => ?_
      rw [List.getElem?_drop] at hi
      have hpos := h (7 + i) (by rwa [List.getElem?_append_right (by simp), length_hamGroup, Nat.add_sub_cancel_left])
      rwa [Nat.add_mod_left, Nat.add_div_left i (by decide)] at hpos
    rw [decodeGroups, hgroup, hrest, Nat.mul_succ, Nat.add_comm, takeD_add]

/-- Settles O29: `decodeGroups_of_flips`, and the data padded to whole groups. -/
theorem hammingCorrectsOneFlipPerGroup : Obligations.HammingCorrectsOneFlipPerGroup := by
  intro s received p hlen h
  rw [length_hamEncode] at hlen
  rw [hamDecode, hlen, Nat.mul_div_cancel_left _ (by decide), decodeGroups_of_flips _ s received p hlen h,
    takeD_of_length_le _ s (by omega)]

theorem hamDecode_hamEncode (s : List Bool) :
    hamDecode (hamEncode s) = s ++ List.replicate (4 * ((s.length + 3) / 4) - s.length) false :=
  hammingCorrectsOneFlipPerGroup s (hamEncode s) (fun _ => 0) rfl fun _ h => absurd rfl h

/-- Settles O27: a code without flips is one with at most one in each group, and whole bytes are whole groups. -/
theorem hammingDecodesItsOwnCode : Obligations.HammingDecodesItsOwnCode := by
  refine ⟨length_hamEncode, hamDecode_hamEncode, fun enc => ?_⟩
  have hgroups : (8 * enc.length + 3) / 4 = 2 * enc.length := by omega
  rw [length_hamEncode, hamDecode_hamEncode, length_bytesToBits, hgroups]
  refine ⟨by omega, ?_⟩
  rw [show 4 * (2 * enc.length) - 8 * enc.length = 0 by omega, List.replicate_zero, List.append_nil]

/-! ### HENC and HDEC -/

theorem length_hamDecode (c : List Bool) : (hamDecode c).length = 4 * (c.length / 7) := length_decodeGroups _ c

/-- The source bytes hold the bits asked for (42_bits_hamming R155). -/
theorem State.sourceBits_length (s : State) (n : Nat) (bits : List Bool) (h : s.sourceBits n = .ok bits) :
    bits.length = n := by
  obtain ⟨bytes, hread, rfl⟩ := (s.sourceBits_ok n bits).mp h
  have hle : n ≤ 8 * ceilDiv n 8 := by
    unfold ceilDiv
    omega
  rw [List.length_take, length_bytesToBits, s.buf.length_of_readBytes _ _ _ hread, Nat.min_eq_left hle]

section
variable (code : List Bool → List Bool) (s : State)

theorem code_of_bad_regions (h : s.regionsOk s.src s.dst = false) :
    finish s (codeBody code s) = .next (s.completeErr .rangeError) := by
  simp [codeBody, h]

variable (hregions : s.regionsOk s.src s.dst = true)
include hregions

theorem code_of_long_count (h : 8 * s.src.len < s.bitCount.toNat) :
    finish s (codeBody code s) = .next (s.completeErr .rangeError) := by
  simp [codeBody, hregions, Nat.not_le.mpr h]

variable (hcount : s.bitCount.toNat ≤ 8 * s.src.len)
include hcount

theorem code_of_unwritten (h : s.buf.readBytes s.src.base (ceilDiv s.bitCount.toNat 8) = none) :
    finish s (codeBody code s) = .fault .unwrittenRead := by
  simp [codeBody, State.sourceBits, hregions, hcount, s.buf.load_of_unwritten _ _ h]

variable (bytes : List Byte) (hread : s.buf.readBytes s.src.base (ceilDiv s.bitCount.toNat 8) = some bytes)
  (n : Nat) (hlen : ∀ bits, bits.length = s.bitCount.toNat → (code bits).length = n)
include hread hlen

theorem code_of_small_area (h : s.dst.len < ceilDiv n 8) :
    finish s (codeBody code s) = .next (s.completeErr .rangeError) := by
  have hbits := (s.sourceBits_ok _ _).mpr ⟨bytes, hread, rfl⟩
  simp [codeBody, hregions, hcount, hbits, hlen _ (s.sourceBits_length _ _ hbits), Nat.not_le.mpr h]

/-- The packed code of the source bits, with DST_LEN and TOTAL_BITS (42_bits_hamming R155, R158). -/
theorem code_of_fit (hfit : ceilDiv n 8 ≤ s.dst.len) :
    ∃ t, finish s (codeBody code s) = .next t ∧
      t = { s with
        buf := t.buf, dstLen := BitVec.ofNat 32 (ceilDiv n 8), totalBits := BitVec.ofNat 32 n
        done := true, err := false, errcode := 0, pending := none } ∧
      t.buf.holds s.dst.base (bitsToBytes (code ((bytesToBits bytes).take s.bitCount.toNat))) ∧
      s.buf.sameOutside t.buf s.dst.base (ceilDiv n 8) := by
  have hbits := (s.sourceBits_ok _ _).mpr ⟨bytes, hread, rfl⟩
  have hcode := hlen _ (s.sourceBits_length _ _ hbits)
  have hout := (length_bitsToBytes _).trans (congrArg (ceilDiv · 8) hcode)
  have hok := (codeBody_ok code s _).mpr ⟨hregions, hcount, _, hbits, hout.trans_le hfit, rfl⟩
  refine ⟨_, by rw [hok, finish_ok], ?_, ?_, ?_⟩
  · rw [← hout, ← hcode]; rfl
  · exact s.buf.holds_writeBytes _ _ (s.output_inside _ _ _ hregions (hout.trans_le hfit))
  · rw [← hout]; exact s.buf.sameOutside_writeBytes _ _

end

/-- Settles O15: one equation per outcome, shared with HDEC; N bits have a code of 7·ceil(N/4) bits. -/
theorem hencFollowsItsRule : Obligations.HencFollowsItsRule := by
  intro s
  have hlen : ∀ bits, bits.length = s.bitCount.toNat → (hamEncode bits).length = 7 * ceilDiv s.bitCount.toNat 4 :=
    fun bits h => h ▸ length_hamEncode bits
  exact ⟨code_of_bad_regions hamEncode s, code_of_long_count hamEncode s, code_of_unwritten hamEncode s,
    fun bytes hregions hcount hread => ⟨code_of_small_area hamEncode s hregions hcount bytes hread _ hlen,
      code_of_fit hamEncode s hregions hcount bytes hread _ hlen⟩⟩

/-- Settles O16: one equation per outcome, shared with HENC; N bits decode to 4·(N div 7) bits. -/
theorem hdecFollowsItsRule : Obligations.HdecFollowsItsRule := by
  intro s
  have hlen : ∀ bits, bits.length = s.bitCount.toNat → (hamDecode bits).length = 4 * (s.bitCount.toNat / 7) :=
    fun bits h => h ▸ length_hamDecode bits
  exact ⟨code_of_bad_regions hamDecode s, code_of_long_count hamDecode s, code_of_unwritten hamDecode s,
    fun bytes hregions hcount hread => ⟨code_of_small_area hamDecode s hregions hcount bytes hread _ hlen,
      code_of_fit hamDecode s hregions hcount bytes hread _ hlen⟩⟩

end Sys2Proof.Machine
end

section
/-! SUPPORT. Sample LSBs read and written as bit sequences, and LSBWR and LSBRD rule by rule (spec 43_embed_extract R171
to R174, 20_memory R65, R66). -/

namespace Sys2Proof.Machine

/-! ### Sample LSBs as bit sequences -/

/-- The low byte of a sample that is written for its LSB, in the form the statements give it (20_memory R65). -/
theorem withLsb_eq_ite (x : Byte) (b : Bool) : withLsb x b = (x &&& 0xFE#8) ||| (if b then 1#8 else 0#8) := by
  cases b <;> rfl

theorem writeLsbs_lsbsReplaced (m m' : Memory) (a : Nat) (bits : List Bool) (hm : m.wf = true)
    (h : writeLsbs m a bits = .ok m') : m.lsbsReplaced m' a bits := by
  obtain ⟨htop, -, hframe⟩ := writeLsbs_ok_frame m m' a bits h
  refine ⟨htop, fun i hi => ?_, hframe⟩
  obtain ⟨x, hx, hx'⟩ := writeLsbs_ok_read m m' a bits hm h i hi
  exact ⟨x, hx, by rw [hx', withLsb_eq_ite]⟩

/-- Bits written into sample LSBs are read back from them (43_embed_extract R171). -/
theorem readLsbs_writeLsbs (m m' : Memory) (a : Nat) (bits : List Bool) (hm : m.wf = true)
    (h : writeLsbs m a bits = .ok m') : readLsbs m' a bits.length = .ok bits := by
  refine (readLsbs_ok m' a _ bits).mpr ⟨rfl, fun i hi => ?_⟩
  obtain ⟨x, -, hx'⟩ := writeLsbs_ok_read m m' a bits hm h i hi
  exact ⟨_, hx', (withLsb_bit0 x bits[i]).symm⟩

/-- Part of the samples read gives that part of the bits. -/
theorem readLsbs_slice (m : Memory) (a n : Nat) (bits : List Bool) (h : readLsbs m a n = .ok bits) (i k : Nat)
    (hik : i + k ≤ n) : readLsbs m (a + 2 * i) k = .ok ((bits.drop i).take k) := by
  obtain ⟨hlen, hbits⟩ := (readLsbs_ok m a n bits).mp h
  refine (readLsbs_ok m _ k _).mpr ⟨by simp; omega, fun j hj => ?_⟩
  have hj' : j < k ∧ i + j < bits.length := by simp at hj; omega
  obtain ⟨x, hx, hbit⟩ := hbits (i + j) hj'.2
  refine ⟨x, ?_, ?_⟩
  · rw [← hx]; congr 1; omega
  · rw [List.getElem_take, List.getElem_drop, hbit]

/-- The LSBs of low bytes that are known (43_embed_extract R171). -/
theorem readLsbs_of_bytes (m : Memory) (a : Nat) (low : List Byte)
    (h : ∀ i (hi : i < low.length), m.read (a + 2 * i) = some low[i]) :
    readLsbs m a low.length = .ok (low.map fun x => x.getLsbD 0) :=
  (readLsbs_ok _ _ _ _).mpr ⟨List.length_map _, fun i hi => ⟨_, h i (by simpa using hi), List.getElem_map _⟩⟩

/-! ### LSBWR -/

section
variable (s : State)

theorem exec_lsbwr_of_not_parsed (h : s.parsed = false) : exec .lsbwr s = .next (s.completeErr .notParsed) := by
  simp [exec, execLsbwr, lsbwrBody, h]

variable (hparsed : s.parsed = true)
include hparsed

theorem exec_lsbwr_of_bad_regions (h : s.regionsOk s.src s.wav = false) :
    exec .lsbwr s = .next (s.completeErr .rangeError) := by
  simp [exec, execLsbwr, lsbwrBody, hparsed, h]

variable (hregions : s.regionsOk s.src s.wav = true)
include hregions

theorem exec_lsbwr_of_long_count (h : 8 * s.src.len < s.bitCount.toNat) :
    exec .lsbwr s = .next (s.completeErr .rangeError) := by
  simp [exec, execLsbwr, lsbwrBody, hparsed, hregions, Nat.not_le.mpr h]

variable (hcount : s.bitCount.toNat ≤ 8 * s.src.len)
include hcount

theorem exec_lsbwr_of_few_samples (h : s.sampleCount.toNat < s.bitStart.toNat + s.bitCount.toNat) :
    exec .lsbwr s = .next (s.completeErr .capacityError) := by
  simp [exec, execLsbwr, lsbwrBody, hparsed, hregions, hcount, Nat.not_le.mpr h]

variable (hsamples : s.bitStart.toNat + s.bitCount.toNat ≤ s.sampleCount.toNat)
include hsamples

theorem exec_lsbwr_of_unwritten_source (h : s.buf.readBytes s.src.base (ceilDiv s.bitCount.toNat 8) = none) :
    exec .lsbwr s = .fault .unwrittenRead := by
  simp [exec, execLsbwr, lsbwrBody, State.sourceBits, hparsed, hregions, hcount, hsamples,
    s.buf.load_of_unwritten _ _ h]

/-- Once its checks have passed and its source is read, LSBWR is the writing of the LSBs (43_embed_extract R172). -/
theorem exec_lsbwr_of_source (bits : List Bool) (h : s.sourceBits s.bitCount.toNat = .ok bits) :
    exec .lsbwr s = finish s (do
      let m ← writeLsbs s.buf (lsbAddr s.wav.base s.dataOffset.toNat s.bitStart.toNat) bits
      return { s with buf := m }) := by
  simp only [exec, execLsbwr, lsbwrBody, hparsed, hregions, hcount, hsamples, h, decide_true, require_true, ok_bind]

theorem exec_lsbwr_of_unwritten_sample
    (h : ∃ i, i < s.bitCount.toNat ∧
      s.buf.read (lsbAddr s.wav.base s.dataOffset.toNat (s.bitStart.toNat + i)) = none) :
    exec .lsbwr s = .fault .unwrittenRead := by
  cases hread : s.buf.readBytes s.src.base (ceilDiv s.bitCount.toNat 8) with
  | none => exact exec_lsbwr_of_unwritten_source s hparsed hregions hcount hsamples hread
  | some bytes =>
    have hbits := (s.sourceBits_ok _ _).mpr ⟨bytes, hread, rfl⟩
    have hlen := s.sourceBits_length _ _ hbits
    simp only [lsbAddr_add] at h
    rw [exec_lsbwr_of_source s hparsed hregions hcount hsamples _ hbits, writeLsbs_fails _ _ _ (by rwa [hlen]),
      error_bind, finish_stop]

/-- The success of LSBWR (43_embed_extract R172). -/
theorem exec_lsbwr_of_written (bytes : List Byte) (hcanon : s.canonicalBuf)
    (hread : s.buf.readBytes s.src.base (ceilDiv s.bitCount.toNat 8) = some bytes)
    (h : ∀ i, i < s.bitCount.toNat →
      (s.buf.read (lsbAddr s.wav.base s.dataOffset.toNat (s.bitStart.toNat + i))).isSome) :
    ∃ t, exec .lsbwr s = .next t ∧
      t = { s with buf := t.buf, done := true, err := false, errcode := 0, pending := none } ∧
      s.buf.lsbsReplaced t.buf (lsbAddr s.wav.base s.dataOffset.toNat s.bitStart.toNat)
        ((bytesToBits bytes).take s.bitCount.toNat) := by
  have hbits := (s.sourceBits_ok _ _).mpr ⟨bytes, hread, rfl⟩
  have hlen := s.sourceBits_length _ _ hbits
  simp only [lsbAddr_add] at h
  obtain ⟨m, hm⟩ := writeLsbs_succeeds s.buf _ _ (by rwa [hlen])
  refine ⟨State.completeOk { s with buf := m }, ?_, rfl, writeLsbs_lsbsReplaced _ _ _ _ hcanon hm⟩
  rw [exec_lsbwr_of_source s hparsed hregions hcount hsamples _ hbits, hm, ok_bind, pure_eq_ok, finish_ok]

end

/-- Settles O17: one equation per outcome, and the bits written replace bit 0 of the samples' low bytes. -/
theorem lsbwrFollowsItsRule : Obligations.LsbwrFollowsItsRule := fun s =>
  ⟨exec_lsbwr_of_not_parsed s, exec_lsbwr_of_bad_regions s, exec_lsbwr_of_long_count s, exec_lsbwr_of_few_samples s,
    fun hparsed hregions hcount hsamples h =>
      h.elim (exec_lsbwr_of_unwritten_source s hparsed hregions hcount hsamples)
        (exec_lsbwr_of_unwritten_sample s hparsed hregions hcount hsamples),
    fun bytes hparsed hregions hcount hsamples => exec_lsbwr_of_written s hparsed hregions hcount hsamples bytes⟩

/-! ### LSBRD -/

section
variable (s : State)

theorem exec_lsbrd_of_not_parsed (h : s.parsed = false) : exec .lsbrd s = .next (s.completeErr .notParsed) := by
  simp [exec, execLsbrd, lsbrdBody, h]

variable (hparsed : s.parsed = true)
include hparsed

theorem exec_lsbrd_of_bad_regions (h : s.regionsOk s.wav s.dst = false) :
    exec .lsbrd s = .next (s.completeErr .rangeError) := by
  simp [exec, execLsbrd, lsbrdBody, hparsed, h]

variable (hregions : s.regionsOk s.wav s.dst = true)
include hregions

theorem exec_lsbrd_of_few_samples (h : s.sampleCount.toNat < s.bitStart.toNat + s.bitCount.toNat) :
    exec .lsbrd s = .next (s.completeErr .truncatedError) := by
  simp [exec, execLsbrd, lsbrdBody, hparsed, hregions, Nat.not_le.mpr h]

variable (hsamples : s.bitStart.toNat + s.bitCount.toNat ≤ s.sampleCount.toNat)
include hsamples

theorem exec_lsbrd_of_small_area (h : s.dst.len < ceilDiv s.bitCount.toNat 8) :
    exec .lsbrd s = .next (s.completeErr .rangeError) := by
  simp [exec, execLsbrd, lsbrdBody, hparsed, hregions, hsamples, Nat.not_le.mpr h]

variable (hfit : ceilDiv s.bitCount.toNat 8 ≤ s.dst.len)
include hfit

theorem exec_lsbrd_of_unwritten
    (h : ∃ i, i < s.bitCount.toNat ∧
      s.buf.read (lsbAddr s.wav.base s.dataOffset.toNat (s.bitStart.toNat + i)) = none) :
    exec .lsbrd s = .fault .unwrittenRead := by
  simp only [lsbAddr_add] at h
  simp [exec, execLsbrd, lsbrdBody, hparsed, hregions, hsamples, hfit, readLsbs_fails _ _ _ h]

theorem exec_lsbrd_of_read (bits : List Bool)
    (h : readLsbs s.buf (lsbAddr s.wav.base s.dataOffset.toNat s.bitStart.toNat) s.bitCount.toNat = .ok bits) :
    exec .lsbrd s = .next (s.withOutput (bitsToBytes bits)).completeOk := by
  rw [exec, execLsbrd, (lsbrdBody_ok s _).mpr ⟨hparsed, hregions, hsamples, hfit, bits, h, rfl⟩, finish_ok]

end

/-- Settles O18: one equation per outcome, and the packed bits are written by `Memory.writeBytes` inside BUF. -/
theorem lsbrdFollowsItsRule : Obligations.LsbrdFollowsItsRule := by
  intro s
  refine ⟨exec_lsbrd_of_not_parsed s, exec_lsbrd_of_bad_regions s, exec_lsbrd_of_few_samples s,
    exec_lsbrd_of_small_area s, exec_lsbrd_of_unwritten s, fun low hparsed hregions hsamples hfit hlen hlow => ?_⟩
  simp only [lsbAddr_add] at hlow
  have hbits := readLsbs_of_bytes s.buf _ low hlow
  rw [hlen] at hbits
  have hout : (bitsToBytes (low.map fun x => x.getLsbD 0)).length = ceilDiv s.bitCount.toNat 8 := by
    rw [length_bitsToBytes, List.length_map, hlen]
  refine ⟨_, exec_lsbrd_of_read s hparsed hregions hsamples hfit _ hbits, ?_, ?_, ?_⟩
  · rw [← hout]; rfl
  · exact s.buf.holds_writeBytes _ _ (s.output_inside _ _ _ hregions (hout.trans_le hfit))
  · rw [← hout]; exact s.buf.sameOutside_writeBytes _ _

end Sys2Proof.Machine
end

section
/-! SUPPORT. The parser reads nothing from the data on (spec 40_container R111): two memories with the same bytes before
the data of the container found in one hold the same container. -/

namespace Sys2Proof.Machine

theorem Memory.load_congr (m m' : Memory) (a n : Nat) (h : ∀ x, a ≤ x → x < a + n → m'.read x = m.read x) :
    m'.load a n = m.load a n := by
  rw [Memory.load, Memory.load, m.readBytes_congr m' a n h]

theorem loadFmt_congr (m m' : Memory) (wav cur : Nat)
    (h : ∀ x, wav + cur ≤ x → x < wav + cur + 24 → m'.read x = m.read x) : loadFmt m' wav cur = loadFmt m wav cur := by
  rw [loadFmt, loadFmt, m.load_congr m' _ 2 fun x hlo hhi => h x (by omega) (by omega),
    m.load_congr m' _ 2 fun x hlo hhi => h x (by omega) (by omega),
    m.load_congr m' _ 2 fun x hlo hhi => h x (by omega) (by omega)]

/-- The walk passes chunk after chunk up to the head of the `data` chunk, which ends where the data begins, so every
byte it reads lies before the data (40_container R111). -/
theorem walkChunks_congr (m m' : Memory) (wav len fuel cur : Nat) (fmt : Option FmtChunk) (w : WalkEnd)
    (h : walkChunks m wav len fuel cur fmt = .ok w) (offset size : Nat) (hdata : w.data = some (offset, size))
    (hsame : ∀ x, wav ≤ x → x < wav + offset → m'.read x = m.read x) :
    cur + 8 ≤ offset ∧ walkChunks m' wav len fuel cur fmt = .ok w := by
  induction fuel generalizing cur fmt with
  | zero =>
    obtain rfl := Except.ok.inj h
    cases hdata
  | succ fuel ih =>
    rw [walkChunks] at h ⊢
    split at h
    · obtain rfl := Except.ok.inj h
      cases hdata
    · next hlow =>
      split at h
      · obtain rfl := Except.ok.inj h
        cases hdata
      · next hhead =>
        simp only [bind_ok] at h
        obtain ⟨id, hid, sizeBytes, hsize, h⟩ := h
        have hloads : cur + 8 ≤ offset → m'.load (wav + cur) 4 = .ok id ∧ m'.load (wav + cur + 4) 4 = .ok sizeBytes :=
          fun hle => ⟨hid ▸ m.load_congr m' _ 4 fun x hlo hhi => hsame x (by omega) (by omega),
            hsize ▸ m.load_congr m' _ 4 fun x hlo hhi => hsame x (by omega) (by omega)⟩
        rw [if_neg hlow, if_neg hhead]
        split at h
        · next hfmt =>
          simp only [bind_ok, require_ok] at h
          obtain ⟨-, hcheck, f, hf, h⟩ := h
          obtain ⟨hnext, hrest⟩ := ih _ _ h
          have hle : cur + 24 ≤ offset := by
            simp only [Bool.and_eq_true, decide_eq_true_eq] at hcheck
            unfold nextChunk at hnext
            omega
          obtain ⟨hid', hsize'⟩ := hloads (by omega)
          have hf' : loadFmt m' wav cur = .ok f :=
            hf ▸ loadFmt_congr m m' wav cur fun x hlo hhi => hsame x (by omega) (by omega)
          refine ⟨by omega, ?_⟩
          rw [hid', ok_bind, hsize', ok_bind, if_pos hfmt, hcheck, require_true, ok_bind, hf', ok_bind, hrest]
        · next hnotFmt =>
          split at h
          · next hisData =>
            obtain rfl := Except.ok.inj h
            obtain ⟨rfl, rfl⟩ := Prod.mk.inj (Option.some.inj hdata)
            obtain ⟨hid', hsize'⟩ := hloads (Nat.le_refl _)
            refine ⟨Nat.le_refl _, ?_⟩
            rw [hid', ok_bind, hsize', ok_bind, if_neg hnotFmt, if_pos hisData, pure_eq_ok]
          · next hnotData =>
            obtain ⟨hnext, hrest⟩ := ih _ _ h
            have hle : cur + 8 ≤ offset := by
              unfold nextChunk at hnext
              omega
            obtain ⟨hid', hsize'⟩ := hloads hle
            refine ⟨hle, ?_⟩
            rw [hid', ok_bind, hsize', ok_bind, if_neg hnotFmt, if_neg hnotData, hrest]

/-- A container found in `m` is found in every memory that agrees with `m` before its data. -/
theorem parseWav_congr (m m' : Memory) (wav len : Nat) (c : Container) (h : parseWav m wav len = .ok c)
    (hsame : ∀ x, wav ≤ x → x < wav + c.dataOffset → m'.read x = m.read x) : parseWav m' wav len = .ok c := by
  simp only [parseWav, bind_ok] at h ⊢
  obtain ⟨u, hlen, riff, hriff, u', hriffTag, wave, hwave, u'', hwaveTag, w, hwalk, hc⟩ := h
  obtain ⟨hdata, -, -⟩ := containerOf_ok len w c hc
  obtain ⟨hle, hwalk'⟩ := walkChunks_congr m m' wav len _ 12 none w hwalk _ _ hdata hsame
  exact ⟨u, hlen, riff, hriff ▸ m.load_congr m' _ 4 fun x hlo hhi => hsame x (by omega) (by omega), u', hriffTag, wave,
    hwave ▸ m.load_congr m' _ 4 fun x hlo hhi => hsame x (by omega) (by omega), u'', hwaveTag, w, hwalk', hc⟩

end Sys2Proof.Machine
end

section
/-! SUPPORT. EMBED rule by rule, and the capacity arithmetic (spec 43_embed_extract R175 to R181). -/

namespace Sys2Proof.Machine

theorem lsbAddr_zero_add (wav dataOffset i : Nat) :
    lsbAddr wav dataOffset 0 + 2 * i = lsbAddr wav dataOffset i := by
  rw [← lsbAddr_add, Nat.zero_add]

/-- The state EMBED's own writes leave (43_embed_extract R180): BUF is `m`, with a wire of `bits` bits embedded into the
samples of container `c`. -/
def State.embedded (s : State) (c : Container) (m : Memory) (bits : Nat) : State :=
  { s.drawn.withContainer c with
    buf := m
    payloadLen := BitVec.ofNat 32 (s.src.len + 16)
    totalBits := BitVec.ofNat 32 bits
    eccf := s.eccLatch }

/-! ### The carrier of EMBED -/

section
variable (E : BlockCipher) (iv : Bytes16) (s : State)

theorem embedWith_of_no_key (h : s.keyv = false) : embedWith E iv s = .next (s.completeErr .noKey) := by
  simp [embedWith, embedCarrier, h]

variable (hkey : s.keyv = true)
include hkey

theorem embedWith_of_bad_regions (h : s.regionsOk s.wav s.src = false) :
    embedWith E iv s = .next (s.completeErr .rangeError) := by
  simp [embedWith, embedCarrier, hkey, h]

variable (hregions : s.regionsOk s.wav s.src = true)
include hregions

theorem embedWith_of_parse_error (st : Stop) (h : s.parseCarrier = .error st) :
    embedWith E iv s = finish s (.error st) := by
  simp [embedWith, embedCarrier, hkey, hregions, h]

/-! ### The payload of EMBED -/

variable (c : Container) (hparse : s.parseCarrier = .ok c)
include hparse

/-- With its carrier accepted EMBED draws its IV and goes on with the payload (43_embed_extract R180). -/
theorem embedWith_of_carrier : embedWith E iv s = finish s.drawn (embedPayload E iv c s.drawn) := by
  rw [embedWith, (embedCarrier_ok s c).mpr ⟨hkey, hregions, hparse⟩]

theorem embedWith_of_unwritten_payload (h : s.buf.readBytes s.src.base s.src.len = none) :
    embedWith E iv s = .fault .unwrittenRead := by
  have hload : s.drawn.buf.load s.drawn.src.base s.drawn.src.len = _ := s.buf.load_of_unwritten _ _ h
  rw [embedWith_of_carrier E iv s hkey hregions c hparse, embedPayload, hload, error_bind, finish_stop]

variable (P wire : List Byte) (hread : s.buf.readBytes s.src.base s.src.len = some P)
  (hwire : wire = wireBytes s.eccLatch (encryptBytes E s.key iv P))
include hread hwire

/-- With its payload read EMBED is the capacity check and the writing of the LSBs (43_embed_extract R180). -/
theorem embedWith_of_payload :
    embedWith E iv s = finish s.drawn (do
      require (decide (8 * wire.length ≤ c.sampleCount)) .capacityError
      let m ← writeLsbs s.buf (lsbAddr s.wav.base c.dataOffset 0) (bytesToBits wire)
      return s.embedded c m (8 * wire.length)) := by
  have hload : s.drawn.buf.load s.drawn.src.base s.drawn.src.len = .ok P := (s.buf.load_ok _ _ _).mpr hread
  have hlen : (encryptBytes E s.key iv P).length = s.src.len + 16 := by
    rw [length_encryptBytes, s.buf.length_of_readBytes _ _ _ hread]
  rw [embedWith_of_carrier E iv s hkey hregions c hparse, embedPayload, hload, ok_bind, hwire]
  simp only [State.embedded, ← hlen]
  rfl

theorem embedWith_of_few_samples (h : c.sampleCount < 8 * wire.length) :
    embedWith E iv s = .next (s.drawn.completeErr .capacityError) := by
  rw [embedWith_of_payload E iv s hkey hregions c hparse P wire hread hwire, decide_eq_false (Nat.not_le.mpr h),
    require_false, error_bind, finish_raise]

variable (hfit : 8 * wire.length ≤ c.sampleCount)
include hfit

theorem embedWith_of_unwritten_sample (st : Stop)
    (h : writeLsbs s.buf (lsbAddr s.wav.base c.dataOffset 0) (bytesToBits wire) = .error st) :
    embedWith E iv s = .fault .unwrittenRead := by
  rw [embedWith_of_payload E iv s hkey hregions c hparse P wire hread hwire, decide_eq_true hfit, require_true, ok_bind,
    h, writeLsbs_error _ _ _ _ h, error_bind, finish_stop]

theorem embedWith_of_written (m : Memory)
    (h : writeLsbs s.buf (lsbAddr s.wav.base c.dataOffset 0) (bytesToBits wire) = .ok m) :
    embedWith E iv s = .next (s.embedded c m (8 * wire.length)).completeOk := by
  rw [embedWith_of_payload E iv s hkey hregions c hparse P wire hread hwire, decide_eq_true hfit, require_true, ok_bind,
    h, ok_bind, pure_eq_ok, finish_ok]

end

/-- Settles O19: one equation per outcome, and the wire's bits replace bit 0 of the samples' low bytes. -/
theorem embedFollowsItsRule : Obligations.EmbedFollowsItsRule := by
  intro s
  refine ⟨embedWith_of_no_key _ _ s, embedWith_of_bad_regions _ _ s,
    fun hkey hregions => embedWith_of_parse_error _ _ s hkey hregions _,
    fun f hkey hregions => embedWith_of_parse_error _ _ s hkey hregions _,
    fun c hkey hregions hparse => embedWith_of_unwritten_payload _ _ s hkey hregions c hparse,
    fun c P wire hkey hregions hparse hread hwire => ?_⟩
  replace hwire :
      wire = wireBytes s.eccLatch (encryptBytes Config.blockCipher s.key (Config.ivDraw s.draws) P) := by
    rw [hwire, wireBytes, length_encryptBytes, s.buf.length_of_readBytes _ _ _ hread, encryptBytes]
  refine ⟨fun hfew => ⟨_, embedWith_of_few_samples _ _ s hkey hregions c hparse P wire hread hwire hfew, rfl⟩,
    fun hfit hunwritten => ?_, fun hfit hcanon hwritten => ?_⟩
  · exact embedWith_of_unwritten_sample _ _ s hkey hregions c hparse P wire hread hwire hfit _
      (writeLsbs_fails _ _ _ (by simpa only [length_bytesToBits, lsbAddr_zero_add] using hunwritten))
  · obtain ⟨m, hm⟩ := writeLsbs_succeeds s.buf (lsbAddr s.wav.base c.dataOffset 0) (bytesToBits wire)
      (by simpa only [length_bytesToBits, lsbAddr_zero_add] using hwritten)
    exact ⟨_, embedWith_of_written _ _ s hkey hregions c hparse P wire hread hwire hfit m hm, rfl,
      writeLsbs_lsbsReplaced _ _ _ _ hcanon hm⟩

/-! ### Capacity -/

/-- The capacity arithmetic (43_embed_extract R177). -/
theorem wireBits_eq (ecc : Bool) (enc : List Byte) :
    8 * (wireBytes ecc enc).length =
      if ecc then 72 + 14 * enc.length + 2 * (enc.length % 4) else 72 + 8 * enc.length := by
  cases ecc with
  | false => simp [wireBytes, body]; omega
  | true => simp [wireBytes, body, length_hamEncode, ceilDiv]; omega

/-- The one error EMBED's payload can raise, and when: nothing has been written then (43_embed_extract R181). -/
theorem embedPayload_raise (E : BlockCipher) (iv : Bytes16) (c : Container) (s : State) (e : CmdError) :
    embedPayload E iv c s = .error (.raise e) ↔ e = .capacityError ∧
      ∃ P, s.buf.readBytes s.src.base s.src.len = some P ∧
        c.sampleCount < 8 * (wireBytes s.eccLatch (encryptBytes E s.key iv P)).length := by
  have hwrite : ∀ a bits, writeLsbs s.buf a bits ≠ .error (.raise e) := fun a bits h => by
    cases writeLsbs_error _ _ _ _ h
  simp [embedPayload, bind_error, hwrite, and_comm, and_assoc]

/-- Settles O33: a wire that does not fit is CapacityError before a byte is written, and a wire that fits has its length
in TOTAL_BITS. -/
theorem embedCapacityBoundary : Obligations.EmbedCapacityBoundary := by
  refine ⟨wireBits_eq, fun s t c P totalBits hkey hregions hparse hread htotal hnext => ?_⟩
  have hwire : totalBits = 8 * (wireBytes s.eccLatch
      (encryptBytes Config.blockCipher s.key (Config.ivDraw s.draws) P)).length := by
    rw [htotal, wireBits_eq, length_encryptBytes]
  have hcarrier := (embedCarrier_ok s c).mpr ⟨hkey, hregions, hparse⟩
  obtain ⟨e, herr, -⟩ | ⟨c', hc', ⟨u, -, rfl⟩ | ⟨e, he, rfl⟩⟩ := (embedWith_next _ _ s t).mp hnext
  · cases hcarrier.symm.trans herr
  · obtain ⟨c', P', hc', hread', -, -, hfit, hbits, -⟩ := embedWith_success _ _ s _ hnext rfl
    obtain rfl := Except.ok.inj (hc'.symm.trans hcarrier)
    obtain rfl := Option.some.inj (hread'.symm.trans hread)
    have hcode : u.completeOk.errcode ≠ 2 := by rw [State.completeOk_errcode]; decide
    exact ⟨iff_of_false hcode (by omega), fun h => absurd h hcode, fun _ => ⟨rfl, hbits.trans hwire.symm⟩⟩
  · obtain rfl := Except.ok.inj (hc'.symm.trans hcarrier)
    obtain ⟨rfl, P', hread', hfew⟩ := (embedPayload_raise _ _ _ _ e).mp he
    obtain rfl := Option.some.inj (hread'.symm.trans hread)
    exact ⟨iff_of_true rfl (hwire ▸ hfew), fun _ => rfl, fun h => absurd rfl h⟩

end Sys2Proof.Machine
end

section
/-! SUPPORT. EXTRACT rule by rule: its header, what stops it before it decrypts, and its output (spec 43_embed_extract
R185, R186). -/

namespace Sys2Proof.Machine

/-! ### The header -/

section
variable (m : Memory) (wav : Nat) (c : Container)

theorem readHeader_of_few_samples (h : c.sampleCount < 32) :
    readHeader m wav c = .error (.raise .notFoundError) := by
  simp [readHeader, Nat.not_le.mpr h]

variable (hsamples : 32 ≤ c.sampleCount)
include hsamples

theorem readHeader_of_unwritten_magic (h : ∃ i, i < 32 ∧ m.read (lsbAddr wav c.dataOffset i) = none) :
    readHeader m wav c = .error (.fault .unwrittenRead) := by
  have hfails := readLsbs_fails m (lsbAddr wav c.dataOffset 0) 32 (by simpa only [lsbAddr_zero_add] using h)
  simp [readHeader, hsamples, hfails]

variable (magic : List Bool) (hread : readLsbs m (lsbAddr wav c.dataOffset 0) 32 = .ok magic)
include hread

theorem readHeader_of_wrong_magic (h : bitsToBytes magic ≠ magicTag) :
    readHeader m wav c = .error (.raise .notFoundError) := by
  simp [readHeader, hsamples, hread, beq_eq_false_iff_ne.mpr h]

variable (hmagic : bitsToBytes magic = magicTag)
include hmagic

/-- With the magic found the flag and the length are read (43_embed_extract R185). -/
theorem readHeader_of_magic :
    readHeader m wav c = (do
      require (decide (72 ≤ c.sampleCount)) .truncatedError
      let flag ← readLsbs m (lsbAddr wav c.dataOffset 32) 8
      let len ← readLsbs m (lsbAddr wav c.dataOffset 40) 32
      return { ecc := bitsToBytes flag != [0], payloadLength := beNat (bitsToBytes len) }) := by
  simp [readHeader, hsamples, hread, hmagic]

theorem readHeader_of_cut_header (h : c.sampleCount < 72) :
    readHeader m wav c = .error (.raise .truncatedError) := by
  simp [readHeader_of_magic m wav c hsamples magic hread hmagic, Nat.not_le.mpr h]

theorem readHeader_of_unwritten (hwhole : 72 ≤ c.sampleCount)
    (h : ∃ i, 32 ≤ i ∧ i < 72 ∧ m.read (lsbAddr wav c.dataOffset i) = none) :
    readHeader m wav c = .error (.fault .unwrittenRead) := by
  rw [readHeader_of_magic m wav c hsamples magic hread hmagic, decide_eq_true hwhole, require_true, ok_bind]
  obtain ⟨i, hlo, hhi, hnone⟩ := h
  have fails : ∀ start n, start ≤ i → i < start + n →
      readLsbs m (lsbAddr wav c.dataOffset start) n = .error (.fault .unwrittenRead) := fun start n hle hlt =>
    readLsbs_fails _ _ _ ⟨i - start, by omega, by rwa [← lsbAddr_add, Nat.add_sub_cancel' hle]⟩
  obtain hflag | hlen : i < 40 ∨ 40 ≤ i := Nat.lt_or_ge i 40
  · rw [fails 32 8 hlo hflag, error_bind]
  · rw [fails 40 32 hlen hhi]
    cases hflag : readLsbs m (lsbAddr wav c.dataOffset 32) 8 with
    | error st => rw [error_bind, readLsbs_error _ _ _ _ hflag]
    | ok flag => rw [ok_bind, error_bind]

end

/-! ### Before and after the key is used -/

/-- What EXTRACT has read when it comes to decrypt: the container, the header and the encrypted payload. -/
structure ReadPayload where
  container : Container
  header : WireHeader
  enc : List Byte

/-- EXTRACT up to its decryption (43_embed_extract R185): the key plays no part in it (R186). -/
def readPayload (s : State) : Except Stop ReadPayload := do
  require s.keyv .noKey
  require (s.regionsOk s.wav s.dst) .rangeError
  let c ← s.parseCarrier
  let h ← readHeader s.buf s.wav.base c
  require (decide (72 + bodyBits h.ecc h.payloadLength ≤ c.sampleCount)) .truncatedError
  require (decide (16 ≤ h.payloadLength)) .shortInput
  require (decide (h.payloadLength - 16 ≤ s.dst.len)) .rangeError
  let enc ← readBody s.buf s.wav.base c h
  return { container := c, header := h, enc := enc }

/-- The state EXTRACT's own writes leave, with `out` in the output area (43_embed_extract R185). -/
def State.extracted (s : State) (r : ReadPayload) (out : List Byte) : State :=
  { (s.withContainer r.container).withOutput out with
    payloadLen := BitVec.ofNat 32 r.header.payloadLength
    totalBits := BitVec.ofNat 32 (72 + bodyBits r.header.ecc r.header.payloadLength)
    eccf := r.header.ecc }

theorem extractBody_eq (E : BlockCipher) (s : State) :
    extractBody E s = readPayload s >>= fun r => .ok (s.extracted r (decryptBytes E s.key r.enc)) := by
  simp [extractBody, readPayload, State.extracted]

theorem extract_of_stop (E : BlockCipher) (s : State) (st : Stop) (h : readPayload s = .error st) :
    finish s (extractBody E s) = finish s (.error st) := by
  rw [extractBody_eq, h, error_bind]

theorem extract_of_payload (E : BlockCipher) (s : State) (r : ReadPayload) (h : readPayload s = .ok r) :
    finish s (extractBody E s) = .next (s.extracted r (decryptBytes E s.key r.enc)).completeOk := by
  rw [extractBody_eq, h, ok_bind, finish_ok]

/-- Everything EXTRACT can do: the errors are those of the part before decryption. -/
theorem extract_next (E : BlockCipher) (s t : State) :
    finish s (extractBody E s) = .next t ↔
      (∃ r, readPayload s = .ok r ∧ t = (s.extracted r (decryptBytes E s.key r.enc)).completeOk) ∨
      (∃ e, readPayload s = .error (.raise e) ∧ t = s.completeErr e) := by
  rw [finish_next, extractBody_eq]
  simp [bind_ok, bind_error]

/-! ### What stops EXTRACT before it decrypts -/

section
variable (s : State)

theorem readPayload_of_no_key (h : s.keyv = false) : readPayload s = .error (.raise .noKey) := by
  simp [readPayload, h]

variable (hkey : s.keyv = true)
include hkey

theorem readPayload_of_bad_regions (h : s.regionsOk s.wav s.dst = false) :
    readPayload s = .error (.raise .rangeError) := by
  simp [readPayload, hkey, h]

variable (hregions : s.regionsOk s.wav s.dst = true)
include hregions

theorem readPayload_of_parse_error (st : Stop) (h : s.parseCarrier = .error st) : readPayload s = .error st := by
  simp [readPayload, hkey, hregions, h]

variable (c : Container) (hparse : s.parseCarrier = .ok c)
include hparse

theorem readPayload_of_header_error (st : Stop) (h : readHeader s.buf s.wav.base c = .error st) :
    readPayload s = .error st := by
  simp [readPayload, hkey, hregions, hparse, h]

variable (hd : WireHeader) (hheader : readHeader s.buf s.wav.base c = .ok hd)
include hheader

theorem readPayload_of_few_samples (h : c.sampleCount < 72 + bodyBits hd.ecc hd.payloadLength) :
    readPayload s = .error (.raise .truncatedError) := by
  simp [readPayload, hkey, hregions, hparse, hheader, Nat.not_le.mpr h]

variable (hsamples : 72 + bodyBits hd.ecc hd.payloadLength ≤ c.sampleCount)
include hsamples

theorem readPayload_of_short (h : hd.payloadLength < 16) : readPayload s = .error (.raise .shortInput) := by
  simp [readPayload, hkey, hregions, hparse, hheader, hsamples, Nat.not_le.mpr h]

variable (hlong : 16 ≤ hd.payloadLength)
include hlong

theorem readPayload_of_small_area (h : s.dst.len < hd.payloadLength - 16) :
    readPayload s = .error (.raise .rangeError) := by
  simp [readPayload, hkey, hregions, hparse, hheader, hsamples, hlong, Nat.not_le.mpr (Nat.add_lt_of_lt_sub h)]

variable (hfit : hd.payloadLength - 16 ≤ s.dst.len)
include hfit

/-- With every check passed EXTRACT reads the body (43_embed_extract R185). -/
theorem readPayload_of_checks :
    readPayload s = readBody s.buf s.wav.base c hd >>= fun enc =>
      .ok { container := c, header := hd, enc := enc } := by
  simp [readPayload, hkey, hregions, hparse, hheader, hsamples, hlong, Nat.sub_le_iff_le_add.mp hfit]

theorem readPayload_of_unwritten
    (h : ∃ i, i < bodyBits hd.ecc hd.payloadLength ∧ s.buf.read (lsbAddr s.wav.base c.dataOffset (72 + i)) = none) :
    readPayload s = .error (.fault .unwrittenRead) := by
  simp only [lsbAddr_add] at h
  rw [readPayload_of_checks s hkey hregions c hparse hd hheader hsamples hlong hfit, readBody, readLsbs_fails _ _ _ h,
    error_bind, error_bind]

theorem readPayload_of_body (bits : List Bool)
    (h : readLsbs s.buf (lsbAddr s.wav.base c.dataOffset 72) (bodyBits hd.ecc hd.payloadLength) = .ok bits) :
    readPayload s = .ok ⟨c, hd, (bitsToBytes (if hd.ecc then hamDecode bits else bits)).take hd.payloadLength⟩ := by
  rw [readPayload_of_checks s hkey hregions c hparse hd hheader hsamples hlong hfit, readBody, h]
  rfl

end

/-- The body samples hold whole groups and whole bytes: they decode to the payload length's bytes (43_embed_extract
R185). -/
theorem length_body_decoded (ecc : Bool) (P : Nat) (bits : List Bool) (h : bits.length = bodyBits ecc P) :
    (bitsToBytes (if ecc then hamDecode bits else bits)).length = P := by
  cases ecc with
  | false => simp [h, bodyBits, ceilDiv]; omega
  | true => simp [length_hamDecode, h, bodyBits, ceilDiv]; omega

/-- The plaintext fits the output area (43_embed_extract R185). -/
theorem readPayload_ok_fits (s : State) (r : ReadPayload) (h : readPayload s = .ok r) :
    r.enc.length - 16 ≤ s.dst.len := by
  simp only [readPayload, bind_ok, require_ok, decide_eq_true_eq] at h
  obtain ⟨-, -, -, -, c, -, hd, -, -, -, -, -, -, hfit, enc, henc, hr⟩ := h
  obtain rfl := Except.ok.inj hr
  exact (Nat.sub_le_sub_right (readBody_length_le _ _ _ _ _ henc) 16).trans hfit

theorem State.extracted_outputWritten (s : State) (r : ReadPayload) (out : List Byte) (h : out.length ≤ s.dst.len) :
    s.outputWritten (s.extracted r out).completeOk := .inr ⟨rfl, out, h, rfl, rfl⟩

/-- Settles O20: one equation per outcome of the part before decryption; with the IV split off, the output is the rest
in counter mode. -/
theorem extractFollowsItsRule : Obligations.ExtractFollowsItsRule := by
  intro s
  have stop : ∀ st, readPayload s = .error st → exec .extract s = finish s (.error st) := extract_of_stop _ s
  refine ⟨fun h => stop _ (readPayload_of_no_key s h), fun hkey h => stop _ (readPayload_of_bad_regions s hkey h),
    fun hkey hregions h => stop _ (readPayload_of_parse_error s hkey hregions _ h),
    fun f hkey hregions h => stop _ (readPayload_of_parse_error s hkey hregions _ h),
    fun c hkey hregions hparse => ?_⟩
  have noHeader : ∀ st, readHeader s.buf s.wav.base c = .error st → exec .extract s = finish s (.error st) :=
    fun st h => stop st (readPayload_of_header_error s hkey hregions c hparse st h)
  refine ⟨fun h => noHeader _ (readHeader_of_few_samples _ _ c h),
    fun h32 h => noHeader _ (readHeader_of_unwritten_magic _ _ c h32 h), fun magic h32 hmagicBits =>
    ⟨fun h => noHeader _ (readHeader_of_wrong_magic _ _ c h32 magic hmagicBits h),
      fun hmagic h => noHeader _ (readHeader_of_cut_header _ _ c h32 magic hmagicBits hmagic h),
      fun hmagic h72 h => noHeader _ (readHeader_of_unwritten _ _ c h32 magic hmagicBits hmagic h72 h), ?_⟩⟩
  rintro flag flagBits lenBits P nbits ecc hmagic h72 hflagBits hflag hlenBits hP hecc hnbits
  have hheader : readHeader s.buf s.wav.base c = .ok { ecc := ecc, payloadLength := P } := by
    refine (readHeader_ok _ _ _ _).mpr
      ⟨h32, ⟨magic, hmagicBits, hmagic⟩, h72, flagBits, hflagBits, lenBits, hlenBits, ?_⟩
    rw [hflag, hP, hecc]
    simp [bne, Bool.beq_eq_decide_eq]
  obtain rfl : nbits = bodyBits ecc P := hnbits
  refine ⟨fun h => stop _ (readPayload_of_few_samples s hkey hregions c hparse _ hheader h),
    fun hsamples h => stop _ (readPayload_of_short s hkey hregions c hparse _ hheader hsamples h),
    fun hsamples hlong h => stop _ (readPayload_of_small_area s hkey hregions c hparse _ hheader hsamples hlong h),
    fun hsamples hlong hfit h =>
      stop _ (readPayload_of_unwritten s hkey hregions c hparse _ hheader hsamples hlong hfit h),
    fun bits iv C hsamples hlong hfit hbits hbody => ?_⟩
  have hpayload := readPayload_of_body s hkey hregions c hparse _ hheader hsamples hlong hfit bits hbits
  have hlen : (ctrXor Config.blockCipher s.key iv C).length = P - 16 := by
    have hbodyLen := congrArg List.length hbody
    rw [List.length_take, length_body_decoded ecc P bits (readLsbs_length _ _ _ _ hbits)] at hbodyLen
    rw [length_ctrXor]
    simp at hbodyLen
    omega
  have hnext := extract_of_payload Config.blockCipher s _ hpayload
  simp only [hbody, decryptBytes_append] at hnext
  refine ⟨_, hnext, ?_, ?_, ?_⟩
  · rw [← hlen]; rfl
  · exact s.buf.holds_writeBytes _ _ (s.output_inside _ _ _ hregions (hlen.trans_le hfit))
  · rw [← hlen]; exact s.buf.sameOutside_writeBytes _ _

end Sys2Proof.Machine
end

section
/-! SUPPORT. The payload EXTRACT does not find, and what EXTRACT and EMBED do not read: the key in EXTRACT's errors, and
what an earlier command left (spec 43_embed_extract R186, R187, R192, R193, 41_key_cipher R137). -/

namespace Sys2Proof.Machine

/-! ### The magic -/

/-- Packing loses nothing of a sequence of whole bytes (42_bits_hamming R152). -/
theorem bitsToBytes_eq_iff (bits : List Bool) (bs : List Byte) (h : bits.length = 8 * bs.length) :
    bitsToBytes bits = bs ↔ bits = bytesToBits bs := by
  constructor
  · rintro rfl
    rw [bytesToBits_bitsToBytes, takeD_of_length_le _ bits (by omega)]
    simp at h ⊢
    omega
  · rintro rfl
    exact bitsToBytes_bytesToBits bs

/-- Where the magic stands EXTRACT goes past its check, and the header is cut or read (43_embed_extract R185, R186). -/
theorem readPayload_raisesOnly_of_magic (s : State) (c : Container) (hparse : s.parseCarrier = .ok c)
    (hsamples : 32 ≤ c.sampleCount) (magic : List Bool)
    (hread : readLsbs s.buf (lsbAddr s.wav.base c.dataOffset 0) 32 = .ok magic)
    (hmagic : bitsToBytes magic = magicTag) :
    RaisesOnly [.noKey, .rangeError, .truncatedError, .shortInput] (readPayload s) := by
  rw [readPayload, hparse, ok_bind, readHeader_of_magic _ _ c hsamples magic hread hmagic]
  refine .bind (.require _ _ (by simp)) fun _ _ => .bind (.require _ _ (by simp)) fun _ _ => ?_
  refine .bind ?_ fun hd _ => .bind (.require _ _ (by simp)) fun _ _ => .bind (.require _ _ (by simp)) fun _ _ =>
    .bind (.require _ _ (by simp)) fun _ _ => .bind (readBody_raisesOnly _ _ _ _) fun _ _ => .pure _ _
  exact .bind (.require _ _ (by simp)) fun _ _ => .bind (.readLsbs _ _ _) fun _ _ => .bind (.readLsbs _ _ _) fun _ _ =>
    .pure _ _

/-- Settles O37: 32 bits that differ from the magic's pack to other bytes, and past the magic no check raises
NotFoundError. -/
theorem extractFindsNoPayload : Obligations.ExtractFindsNoPayload := by
  intro s c hkey hregions hparse
  refine ⟨fun h => ?_, fun hsamples h t hnext hcode => ?_⟩
  · suffices hheader : readHeader s.buf s.wav.base c = .error (.raise .notFoundError) from
      extract_of_stop _ s _ (readPayload_of_header_error s hkey hregions c hparse _ hheader)
    obtain hfew | hsamples := Nat.lt_or_ge c.sampleCount 32
    · exact readHeader_of_few_samples _ _ c hfew
    · obtain ⟨hwritten, i, x, hi, hx, hne⟩ := h.resolve_left (Nat.not_lt.mpr hsamples)
      simp only [← lsbAddr_zero_add s.wav.base c.dataOffset i] at hx
      obtain ⟨bits, hbits⟩ := readLsbs_succeeds s.buf (lsbAddr s.wav.base c.dataOffset 0) 32
        (by simpa only [lsbAddr_zero_add] using hwritten)
      refine readHeader_of_wrong_magic _ _ c hsamples bits hbits fun hmagic => hne ?_
      obtain ⟨hlen, hbit⟩ := (readLsbs_ok _ _ _ _).mp hbits
      obtain ⟨y, hy, hxy⟩ := hbit i (hlen ▸ hi)
      obtain rfl : x = y := Option.some.inj (hx.symm.trans hy)
      rw [← hxy, ← List.getElem?_eq_getElem, (bitsToBytes_eq_iff bits magicTag hlen).mp hmagic]
      rfl
  · have hread : readLsbs s.buf (lsbAddr s.wav.base c.dataOffset 0) 32 = .ok (bytesToBits magicTag) := by
      refine (readLsbs_ok _ _ _ _).mpr ⟨rfl, fun i hi => ?_⟩
      obtain ⟨x, hx, hbit⟩ := h i hi
      refine ⟨x, by rwa [lsbAddr_zero_add], ?_⟩
      exact (Option.some.inj (hbit.trans (List.getElem?_eq_getElem hi))).symm
    obtain ⟨p, -, rfl⟩ | ⟨e, he, rfl⟩ := (extract_next _ s t).mp hnext
    · exact absurd hcode (show (0#4) ≠ 3 by decide)
    · have hmagic := bitsToBytes_bytesToBits magicTag
      have hraise := readPayload_raisesOnly_of_magic s c hparse hsamples _ hread hmagic _ he
      obtain ⟨e', hmem, heq⟩ := hraise.resolve_left (by simp)
      obtain rfl := Stop.raise.inj heq
      have hcodes : ∀ e ∈ [CmdError.noKey, .rangeError, .truncatedError, .shortInput], e.code ≠ 3 := by decide
      exact hcodes e hmem hcode

/-! ### The key -/

/-- Settles O38: the part before the key is used is the same, and the output has the same length. -/
theorem extractErrorsIgnoreTheKey : Obligations.ExtractErrorsIgnoreTheKey := by
  intro E s t K hnext
  have hsame : readPayload { s with key := K } = readPayload s := rfl
  obtain ⟨p, hp, rfl⟩ | ⟨e, he, rfl⟩ := (extract_next E s t).mp hnext
  · have hfit : ∀ K', (decryptBytes E K' p.enc).length ≤ s.dst.len := fun K' =>
      (length_decryptBytes E K' p.enc).trans_le (readPayload_ok_fits s p hp)
    have hlen : (decryptBytes E K p.enc).length = (decryptBytes E s.key p.enc).length := by
      rw [length_decryptBytes, length_decryptBytes]
    refine ⟨_, extract_of_payload E _ p (hsame.trans hp), ?_, fun h => by simp at h, fun a ha => ?_⟩
    · simp only [State.extracted, State.withOutput, hlen]
      rfl
    · have ha' : a < s.dst.base ∨ s.dst.base + (BitVec.ofNat 32 (decryptBytes E K p.enc).length).toNat ≤ a := hlen ▸ ha
      calc _ = s.buf.read a := (State.extracted_outputWritten { s with key := K } p _ (hfit K)).read_eq a (.inr ha')
        _ = _ := ((s.extracted_outputWritten p _ (hfit s.key)).read_eq a (.inr ha)).symm
  · exact ⟨_, (extract_next E _ _).mpr (.inr ⟨e, hsame.trans he, rfl⟩), rfl, fun _ => rfl, fun _ _ => rfl⟩

/-! ### What an earlier command left -/

/-- Settles O39: both commands read the same in `s` and `r`, and a success sets every result register but the DST_LEN of
EMBED. -/
theorem embedAndExtractAreStateless : Obligations.EmbedAndExtractAreStateless := by
  intro i s r t hi hr hnext
  obtain rfl | rfl := hi
  · have hcarrier : embedCarrier r = embedCarrier s := by rw [hr]; rfl
    have hexec : exec .embed r = embedWith Config.blockCipher (Config.ivDraw s.draws) r := by rw [hr]; rfl
    rw [hexec]
    obtain ⟨e, he, rfl⟩ | ⟨c, hc, ⟨u, hu, rfl⟩ | ⟨e, he, rfl⟩⟩ := (embedWith_next _ _ s t).mp hnext
    · exact ⟨_, (embedWith_next _ _ r _).mpr (.inl ⟨e, hcarrier.trans he, rfl⟩), rfl, rfl, by rw [hr]; rfl,
        fun h => by simp at h⟩
    · obtain ⟨P, hP, hfit, m, hm, rfl⟩ := (embedPayload_ok _ _ _ _ _).mp hu
      have hpayload := (embedPayload_ok Config.blockCipher (Config.ivDraw s.draws) c r.drawn _).mpr
        ⟨P, by rw [hr]; exact hP, by rw [hr]; exact hfit, m, by rw [hr]; exact hm, rfl⟩
      exact ⟨_, (embedWith_next _ _ r _).mpr (.inr ⟨c, hcarrier.trans hc, .inl ⟨_, hpayload, rfl⟩⟩), rfl, rfl, rfl,
        fun _ => ⟨by rw [hr]; rfl, by simp⟩⟩
    · obtain ⟨rfl, P, hP, hfew⟩ := (embedPayload_raise _ _ _ _ e).mp he
      have hpayload := (embedPayload_raise Config.blockCipher (Config.ivDraw s.draws) c r.drawn _).mpr
        ⟨rfl, P, by rw [hr]; exact hP, by rw [hr]; exact hfew⟩
      exact ⟨_, (embedWith_next _ _ r _).mpr (.inr ⟨c, hcarrier.trans hc, .inr ⟨_, hpayload, rfl⟩⟩), rfl, rfl,
        by rw [hr]; rfl, fun h => by simp at h⟩
  · have hsame : readPayload r = readPayload s := by rw [hr]; rfl
    obtain ⟨p, hp, rfl⟩ | ⟨e, he, rfl⟩ := (extract_next _ s t).mp hnext
    · exact ⟨_, extract_of_payload _ r p (hsame.trans hp), rfl, rfl, by rw [hr]; rfl,
        fun _ => ⟨by rw [hr]; rfl, fun _ => by rw [hr]; rfl⟩⟩
    · exact ⟨_, (extract_next _ r _).mpr (.inr ⟨e, hsame.trans he, rfl⟩), rfl, rfl, by rw [hr]; rfl,
        fun h => by simp at h⟩

end Sys2Proof.Machine
end

section
/-! SUPPORT. EMBED and then EXTRACT (spec 43_embed_extract R190, R191): the wire EMBED leaves in the carrier, what
EXTRACT reads from a carrier that holds it, and the body samples that may change between the two. -/

namespace Sys2Proof.Machine

/-! ### The wire in the samples -/

/-- Bytes in the middle of a sequence embedded into sample LSBs are read from their own samples. -/
theorem readLsbs_middle (m : Memory) (a : Nat) (xs ys zs : List Byte)
    (h : readLsbs m a (8 * (xs ++ ys ++ zs).length) = .ok (bytesToBits (xs ++ ys ++ zs))) :
    readLsbs m (a + 2 * (8 * xs.length)) (8 * ys.length) = .ok (bytesToBits ys) := by
  have hslice := readLsbs_slice m a _ _ h (8 * xs.length) (8 * ys.length) (by simp only [List.length_append]; omega)
  rw [bytesToBits_append, bytesToBits_append, List.append_assoc, List.drop_left' (length_bytesToBits xs),
    List.take_left' (length_bytesToBits ys)] at hslice
  exact hslice

/-- The bits of the body samples (43_embed_extract R176): the Hamming code of the encrypted payload, or its own bits. -/
def bodyCode (ecc : Bool) (enc : List Byte) : List Bool :=
  if ecc then hamEncode (bytesToBits enc) else bytesToBits enc

theorem length_bodyCode (ecc : Bool) (enc : List Byte) : (bodyCode ecc enc).length = bodyBits ecc enc.length := by
  cases ecc with
  | false => simp [bodyCode, bodyBits]; omega
  | true => simp [bodyCode, bodyBits, length_hamEncode]; omega

/-- The body's bytes are its bits and then padding (43_embed_extract R176). -/
theorem take_bytesToBits_body (ecc : Bool) (enc : List Byte) :
    (bytesToBits (body ecc enc)).take (bodyBits ecc enc.length) = bodyCode ecc enc := by
  have hlen := length_bodyCode ecc enc
  cases ecc with
  | false => exact List.take_of_length_le (Nat.le_of_eq hlen)
  | true =>
    rw [body, if_pos rfl, bytesToBits_bitsToBytes, takeD_of_length_le _ _ (by omega)]
    exact List.take_left' hlen

/-- The header and the body's bits fit into the wire's samples (43_embed_extract R177). -/
theorem bodyBits_le_wire (ecc : Bool) (enc : List Byte) :
    72 + bodyBits ecc enc.length ≤ 8 * (wireBytes ecc enc).length := by
  rw [wireBits_eq]
  cases ecc with
  | false => simp [bodyBits]; omega
  | true => simp [bodyBits]; omega

/-- What EXTRACT needs of a carrier (43_embed_extract R185): the parser finds container `c` in it, whose samples hold
the header of a payload of `P` bytes and, behind it, the body bits `bits`. -/
structure Memory.carriesWire (m : Memory) (wav : Region) (c : Container) (ecc : Bool) (P : Nat) (bits : List Bool) :
    Prop where
  parse : parseWav m wav.base wav.len = .ok c
  fits : 72 + bodyBits ecc P ≤ c.sampleCount
  header : readLsbs m (lsbAddr wav.base c.dataOffset 0) 72 = .ok (bytesToBits (header ecc P))
  body : readLsbs m (lsbAddr wav.base c.dataOffset 72) (bodyBits ecc P) = .ok bits

/-- A wire wholly embedded into the samples of a container. -/
theorem carriesWire_of_wire (m : Memory) (wav : Region) (c : Container) (ecc : Bool) (enc : List Byte)
    (hparse : parseWav m wav.base wav.len = .ok c) (hfit : 8 * (wireBytes ecc enc).length ≤ c.sampleCount)
    (hwire : readLsbs m (lsbAddr wav.base c.dataOffset 0) (8 * (wireBytes ecc enc).length) =
      .ok (bytesToBits (wireBytes ecc enc))) :
    m.carriesWire wav c ecc enc.length (bodyCode ecc enc) where
  parse := hparse
  fits := (bodyBits_le_wire ecc enc).trans hfit
  header := by
    have h := readLsbs_middle m _ [] (Machine.header ecc enc.length) (Machine.body ecc enc) hwire
    rwa [length_header] at h
  body := by
    have h := readLsbs_middle m _ (Machine.header ecc enc.length) (Machine.body ecc enc) [] (by
      rw [List.append_nil]; exact hwire)
    have hle := bodyBits_le_wire ecc enc
    rw [wireBytes, List.length_append, length_header] at hle
    have hbody := readLsbs_slice m _ _ _ h 0 (bodyBits ecc enc.length) (by omega)
    rwa [length_header, lsbAddr_zero_add, List.drop_zero, take_bytesToBits_body] at hbody

/-- The body samples apart, nothing of the carrier may differ in another memory. -/
theorem Memory.carriesWire.of_same_header {m : Memory} {wav : Region} {c : Container} {ecc : Bool} {P : Nat}
    {bits : List Bool} (h : m.carriesWire wav c ecc P bits) (m' : Memory) (bits' : List Bool)
    (hsame : ∀ x, wav.base ≤ x → x < lsbAddr wav.base c.dataOffset 72 → m'.read x = m.read x)
    (hbody : readLsbs m' (lsbAddr wav.base c.dataOffset 72) (bodyBits ecc P) = .ok bits') :
    m'.carriesWire wav c ecc P bits' where
  parse := parseWav_congr m m' _ _ c h.parse fun x hlo hhi => hsame x hlo (by unfold lsbAddr; omega)
  fits := h.fits
  header := by
    rw [← h.header]
    exact readLsbs_congr m m' _ 72 fun i hi => hsame _ (by unfold lsbAddr; omega) (by unfold lsbAddr; omega)
  body := hbody

/-- The header EXTRACT reads is the one EMBED wrote (43_embed_extract R175, R185). -/
theorem readHeader_of_header (m : Memory) (wav : Nat) (c : Container) (ecc : Bool) (P : Nat) (hP : P < 2 ^ 32)
    (hsamples : 72 ≤ c.sampleCount)
    (h : readLsbs m (lsbAddr wav c.dataOffset 0) 72 = .ok (bytesToBits (header ecc P))) :
    readHeader m wav c = .ok { ecc := ecc, payloadLength := P } := by
  have hmagic := readLsbs_middle m _ [] magicTag ([(BitVec.ofBool ecc).setWidth 8] ++ beBytes 4 P) h
  have hflag := readLsbs_middle m _ magicTag [(BitVec.ofBool ecc).setWidth 8] (beBytes 4 P) h
  have hlen := readLsbs_middle m _ (magicTag ++ [(BitVec.ofBool ecc).setWidth 8]) (beBytes 4 P) [] (by
    rw [List.append_nil]; exact h)
  have hecc : ([(BitVec.ofBool ecc).setWidth 8] != ([0] : List Byte)) = ecc := by cases ecc <;> rfl
  refine (readHeader_ok _ _ _ _).mpr
    ⟨by omega, ⟨_, hmagic, bitsToBytes_bytesToBits magicTag⟩, hsamples, _, hflag, _, hlen, ?_⟩
  rw [bitsToBytes_bytesToBits, bitsToBytes_bytesToBits, beNat_beBytes, Nat.mod_eq_of_lt (show P < 256 ^ 4 from hP),
    hecc]

/-! ### EXTRACT of a wire -/

/-- What EXTRACT reads from a carrier that holds a wire (43_embed_extract R185): the samples lie in a carrier of under
2^32 bytes, so the payload length is not cut. -/
theorem readPayload_of_carriesWire (u : State) (c : Container) (ecc : Bool) (P : Nat) (bits : List Bool)
    (h : u.buf.carriesWire u.wav c ecc P bits) (hkey : u.keyv = true) (hregions : u.regionsOk u.wav u.dst = true)
    (hlong : 16 ≤ P) (hfit : P - 16 ≤ u.dst.len) :
    readPayload u = .ok ⟨c, ⟨ecc, P⟩, bitsToBytes (if ecc then hamDecode bits else bits)⟩ ∧ P < 2 ^ 32 := by
  obtain ⟨hparse, hsamples, hheader, hbody⟩ := h
  have hP : P < 2 ^ 32 := by
    obtain ⟨-, -, hend, -⟩ := parseWav_ok_bounds _ _ _ c hparse
    have hlen : u.wav.len < 2 ^ 32 := u.wavLen.isLt
    unfold Container.sampleCount bodyBits at hsamples
    split at hsamples <;> omega
  have hpayload := readPayload_of_body u hkey hregions c hparse ⟨ecc, P⟩
    (readHeader_of_header _ _ c ecc P hP (by omega) hheader) hsamples hlong hfit bits hbody
  have hdecoded := length_body_decoded ecc P bits (readLsbs_length _ _ _ _ hbody)
  rw [List.take_of_length_le (Nat.le_of_eq hdecoded)] at hpayload
  exact ⟨hpayload, hP⟩

/-- EXTRACT gives the payload when the body bits decode to its encryption (43_embed_extract R190, R191). -/
theorem extract_of_carriesWire (E : BlockCipher) (iv : Bytes16) (u : State) (m : List Byte) (c : Container) (ecc : Bool)
    (bits : List Bool) (h : u.buf.carriesWire u.wav c ecc (m.length + 16) bits)
    (hdecode : bitsToBytes (if ecc then hamDecode bits else bits) = encryptBytes E u.key iv m)
    (hkey : u.keyv = true) (hregions : u.regionsOk u.wav u.dst = true) (hfit : m.length ≤ u.dst.len) :
    ∃ v, finish u (extractBody E u) = .next v ∧ v.err = false ∧ v.buf.readBytes u.dst.base m.length = some m ∧
      v.dstLen.toNat = m.length ∧ v.payloadLen.toNat = m.length + 16 ∧ v.eccf = ecc := by
  obtain ⟨hpayload, hP⟩ := readPayload_of_carriesWire u c ecc _ bits h hkey hregions (by omega) (by omega)
  have hnext := extract_of_payload E u _ hpayload
  simp only [hdecode, decryptBytes_encryptBytes] at hnext
  exact ⟨_, hnext, rfl, u.buf.readBytes_writeBytes_same _ _ (u.output_inside _ _ _ hregions hfit),
    u.toNat_outputLen _ hfit, (BitVec.toNat_ofNat _ 32).trans (Nat.mod_eq_of_lt hP), rfl⟩

/-- A successful EMBED leaves its wire in the carrier: it writes no byte the parser reads (43_embed_extract R180). -/
theorem embedWith_carriesWire (E : BlockCipher) (iv : Bytes16) (s t : State) (m : List Byte) (hcanon : s.canonicalBuf)
    (hread : s.buf.readBytes s.src.base s.src.len = some m) (hnext : embedWith E iv s = .next t)
    (herr : t.err = false) :
    ∃ c, t.dataOffset.toNat = c.dataOffset ∧ t.buf.top = s.buf.top ∧ s.inside s.wav = true ∧
      t.buf.carriesWire s.wav c s.eccLatch (m.length + 16) (bodyCode s.eccLatch (encryptBytes E s.key iv m)) := by
  obtain ⟨c, m', hcarrier, hread', -, hoffset, hfit, -, hwrite⟩ := embedWith_success E iv s t hnext herr
  obtain rfl : m' = m := Option.some.inj (hread'.symm.trans hread)
  obtain ⟨-, hregions, hparse⟩ := (embedCarrier_ok s c).mp hcarrier
  obtain ⟨htop, -, hframe⟩ := writeLsbs_ok_frame _ _ _ _ hwrite
  refine ⟨c, hoffset, htop, s.inside_of_regionsOk _ _ hregions, ?_⟩
  rw [← length_encryptBytes E s.key iv m']
  refine carriesWire_of_wire _ _ c _ _
    (parseWav_congr _ _ _ _ c hparse fun x hlo hhi => hframe x fun i hi => ?_) hfit ?_
  · unfold lsbAddr
    omega
  · rw [← length_bytesToBits]
    exact readLsbs_writeLsbs _ _ _ _ hcanon hwrite

/-! ### The two laws -/

section
variable {m : Memory} {wav : Region} {c : Container} {ecc : Bool} {P : Nat} {bits : List Bool}
  (h : m.carriesWire wav c ecc P bits)
include h

/-- The samples lie inside the carrier (40_container R111, R116). -/
theorem Memory.carriesWire.samples_end : lsbAddr wav.base c.dataOffset (72 + bodyBits ecc P) ≤ wav.base + wav.len := by
  obtain ⟨-, -, hend, -⟩ := parseWav_ok_bounds _ _ _ c h.parse
  have hfits := h.fits
  unfold Container.sampleCount at hfits
  unfold lsbAddr
  omega

theorem Memory.carriesWire.header_lt (x : Nat) (hx : x < lsbAddr wav.base c.dataOffset 72) :
    x < wav.base + wav.len := by
  have hend := h.samples_end
  unfold lsbAddr at hx hend
  omega

theorem Memory.carriesWire.body_lt (i : Nat) (hi : i < bodyBits ecc P) :
    lsbAddr wav.base c.dataOffset (72 + i) < wav.base + wav.len := by
  have hend := h.samples_end
  unfold lsbAddr at hend ⊢
  omega

end

/-- Body bits with at most one flip in each group of seven decode to the payload that was encoded (42_bits_hamming R156,
R157). -/
theorem decode_bodyCode_of_flips (enc : List Byte) (received : List Bool) (p : Nat → Nat)
    (hlen : received.length = (bodyCode true enc).length)
    (h : ∀ i, received[i]? ≠ (bodyCode true enc)[i]? → i % 7 = p (i / 7)) :
    bitsToBytes (hamDecode received) = enc := by
  have hsent : hamDecode received = hamDecode (bodyCode true enc) :=
    (hammingCorrectsOneFlipPerGroup _ received p hlen h).trans (hamDecode_hamEncode _).symm
  rw [hsent, bodyCode, if_pos rfl, (hammingDecodesItsOwnCode.2.2 enc).2, bitsToBytes_bytesToBits]

theorem decode_bodyCode (ecc : Bool) (enc : List Byte) :
    bitsToBytes (if ecc then hamDecode (bodyCode ecc enc) else bodyCode ecc enc) = enc := by
  cases ecc with
  | false => exact bitsToBytes_bytesToBits enc
  | true => exact decode_bodyCode_of_flips enc _ (fun _ => 0) rfl fun i h => absurd rfl h

/-- The regions of EXTRACT, when its carrier is one that lies inside a BUF of the same size. -/
theorem State.regionsOk_of_same_top (s u : State) (htop : u.buf.top = s.buf.top) (hinside : s.inside s.wav = true)
    (hwav : u.wav = s.wav) (hin : u.inside u.dst = true) (hapart : overlap u.wav u.dst = false) :
    u.regionsOk u.wav u.dst = true := by
  have hcarrier : u.inside u.wav = true := by
    rw [hwav, ← hinside, State.inside, State.inside, State.bufBytes, State.bufBytes, Memory.bytes, Memory.bytes, htop]
  rw [State.regionsOk, hcarrier, hin, hapart]
  rfl

/-- Settles O35: the carrier EMBED left holds its wire, and EXTRACT reads the same bytes of it. -/
theorem embedExtractRoundTrip : Obligations.EmbedExtractRoundTrip := by
  intro E iv s t u m hcanon hread hnext herr htop hsame hwav hkey hkeyv hin hapart hfit
  obtain ⟨c, -, htop', hinside, ht⟩ := embedWith_carriesWire E iv s t m hcanon hread hnext herr
  have hregions := s.regionsOk_of_same_top u (htop.trans htop') hinside hwav hin hapart
  have hbody : readLsbs u.buf (lsbAddr s.wav.base c.dataOffset 72) (bodyBits s.eccLatch (m.length + 16)) =
      .ok (bodyCode s.eccLatch (encryptBytes E s.key iv m)) := by
    rw [← ht.body]
    refine readLsbs_congr _ _ _ _ fun i hi => ?_
    rw [← lsbAddr_add]
    exact hsame _ (by unfold lsbAddr; omega) (ht.body_lt i hi)
  have hu := ht.of_same_header u.buf _
    (fun x hlo hhi => hsame x hlo (ht.header_lt x hhi)) hbody
  rw [← hwav] at hu
  exact extract_of_carriesWire E iv u m c _ _ hu (by rw [hkey, decode_bodyCode]) hkeyv hregions hfit

/-- Samples of which some are free to change give bits that differ at free positions only. -/
theorem readLsbs_of_free (m m' : Memory) (a n : Nat) (sent : List Bool) (free : Nat → Prop)
    (h : readLsbs m a n = .ok sent)
    (hkept : ∀ i, i < n → ¬ free i → m'.read (a + 2 * i) = m.read (a + 2 * i))
    (hfree : ∀ i, i < n → free i → (m'.read (a + 2 * i)).isSome) :
    ∃ bits, readLsbs m' a n = .ok bits ∧ ∀ i, bits[i]? ≠ sent[i]? → free i := by
  obtain ⟨hsentLen, hsent⟩ := (readLsbs_ok _ _ _ _).mp h
  obtain ⟨bits, hbits⟩ := readLsbs_succeeds m' a n fun i hi => by
    by_cases hi' : free i
    · exact hfree i hi hi'
    · obtain ⟨x, hx, -⟩ := hsent i (by omega)
      rw [hkept i hi hi', hx]
      rfl
  obtain ⟨hlen, hbit⟩ := (readLsbs_ok _ _ _ _).mp hbits
  refine ⟨bits, hbits, fun i hne => ?_⟩
  by_contra hi'
  obtain hi | hi := Nat.lt_or_ge i n
  · obtain ⟨x, hx, hxbit⟩ := hsent i (by omega)
    obtain ⟨y, hy, hybit⟩ := hbit i (by omega)
    obtain rfl : y = x := Option.some.inj (hy.symm.trans ((hkept i hi hi').trans hx))
    exact hne (by rw [List.getElem?_eq_getElem (by omega), List.getElem?_eq_getElem (by omega), hybit, hxbit])
  · exact hne (by rw [List.getElem?_eq_none (by omega), List.getElem?_eq_none (by omega)])

/-- Settles O36: the bits EXTRACT reads from the body differ from EMBED's only at the free position of each group. -/
theorem extractToleratesOneFlipPerGroup : Obligations.ExtractToleratesOneFlipPerGroup := by
  intro E iv s t u m p hcanon hecc hread hnext herr htop hp hsame hflips hwav hkey hkeyv hin hapart hfit
  obtain ⟨c, hoffset, htop', hinside, ht⟩ := embedWith_carriesWire E iv s t m hcanon hread hnext herr
  have hregions := s.regionsOk_of_same_top u (htop.trans htop') hinside hwav hin hapart
  rw [hoffset] at hsame hflips
  rw [hecc] at ht
  have hgroups : bodyBits true (m.length + 16) = 7 * (2 * (m.length + 16)) := by
    rw [bodyBits, if_pos rfl]
    omega
  have hkept : ∀ i, i < bodyBits true (m.length + 16) → i % 7 ≠ p (i / 7) →
      u.buf.read (lsbAddr s.wav.base c.dataOffset 72 + 2 * i) =
        t.buf.read (lsbAddr s.wav.base c.dataOffset 72 + 2 * i) := by
    intro i hi hne
    rw [← lsbAddr_add]
    refine hsame _ (by unfold lsbAddr; omega) (ht.body_lt i hi) fun g hg haddr => hne ?_
    have hpos := hp g
    obtain rfl : i = 7 * g + p g := by unfold lsbAddr at haddr; omega
    rw [show (7 * g + p g) / 7 = g by omega]
    omega
  have hfree : ∀ i, i < bodyBits true (m.length + 16) → i % 7 = p (i / 7) →
      (u.buf.read (lsbAddr s.wav.base c.dataOffset 72 + 2 * i)).isSome := by
    intro i hi hat
    obtain ⟨-, y, -, hy, -⟩ := hflips (i / 7) (by omega)
    rw [← lsbAddr_add, show 72 + i = 72 + 7 * (i / 7) + p (i / 7) by omega, hy]
    rfl
  obtain ⟨bits, hbody, hdiffer⟩ := readLsbs_of_free _ _ _ _ _ (fun i => i % 7 = p (i / 7)) ht.body hkept hfree
  have hdecode := decode_bodyCode_of_flips _ bits p
    (by rw [readLsbs_length _ _ _ _ hbody, readLsbs_length _ _ _ _ ht.body]) hdiffer
  have hu := ht.of_same_header u.buf bits (fun x hlo hhi =>
    hsame x hlo (ht.header_lt x hhi) fun g hg => by unfold lsbAddr at hhi ⊢; omega) hbody
  rw [← hwav] at hu
  obtain ⟨v, hv, hverr, hvread, -⟩ :=
    extract_of_carriesWire E iv u m c _ _ hu (by rw [hkey, if_pos rfl, hdecode]) hkeyv hregions hfit
  exact ⟨v, hv, hverr, hvread⟩

end Sys2Proof.Machine
end

section
/-! SUPPORT. How a command ends (spec 60_exceptions R201 to R203, R210, R211): each completion keeps the operands, a
failing one changes only STATUS, and IRQ follows from IE and DONE. Then that no command stops in a fault when every byte
of BUF holds a value: every byte a command reads lies in a region it has checked (20_memory R66, R67; 60_exceptions
R205). -/

namespace Sys2Proof.Machine

/-! ### Completions -/

/-- Settles O4: a completion sets BUSY and DONE, and `OwnWrites.keeps` says what a successful command leaves alone. -/
theorem everyCompletionKeepsTheOperands : Obligations.EveryCompletionKeepsTheOperands := by
  intro i s t h
  obtain ⟨u, hu, rfl⟩ | ⟨e, -, d, rfl⟩ := exec_next i s t h
  · exact ⟨rfl, rfl, fun _ => rfl, hu.keeps⟩
  · simp [State.busy]

theorem exec_done (i : Instr) (s t : State) (h : exec i s = .next t) : t.done = true :=
  (everyCompletionKeepsTheOperands i s t h).2.1

/-- A next state with ERR set is a completion with one of the command's errors, whatever the count of IVs drawn. -/
theorem exec_next_of_err (i : Instr) (s t : State) (h : exec i s = .next t) (herr : t.err = true) :
    ∃ e ∈ raisable i, ∃ d, t = State.completeErr { s with draws := d } e := by
  obtain ⟨u, -, rfl⟩ | hfail := exec_next i s t h
  · cases herr
  · exact hfail

/-- Settles O5: `State.completeErr` writes the fields the statement names. -/
theorem failingCommandChangesOnlyStatus : Obligations.FailingCommandChangesOnlyStatus := by
  intro i s t h herr
  obtain ⟨e, -, d, rfl⟩ := exec_next_of_err i s t h herr
  exact ⟨e, rfl⟩

/-- Settles O6: the error of a failing command is one of its row. -/
theorem commandsRaiseOnlyTheirErrors : Obligations.CommandsRaiseOnlyTheirErrors := by
  refine ⟨fun i s t h herr => ?_, rfl, rfl, rfl, rfl, rfl, rfl, rfl, rfl, rfl⟩
  obtain ⟨e, he, d, rfl⟩ := exec_next_of_err i s t h herr
  exact ⟨e, he, rfl⟩

/-! ### IRQ -/

theorem State.irq_of_not_done (s : State) (h : s.done = false) : s.irq = false := by
  simp [State.irq, h]

/-- A CTRL write without SRST stores IE and leaves DONE (10_state R25). -/
theorem State.irq_ctrlWrite (s : State) (v : Word) (hrst : v.getLsbD 31 = false) :
    (s.ctrlWrite v).irq = (v.getLsbD 0 && s.done) := by
  cases hb : s.busy with
  | true => rw [s.ctrlWrite_of_busy v hb hrst]; rfl
  | false => rw [s.ctrlWrite_of_idle v hb hrst]; split <;> rfl

theorem State.irq_ctrlWrite_of_ie_clear (s : State) (v : Word) (hie : v.getLsbD 0 = false) :
    (s.ctrlWrite v).irq = false := by
  cases hrst : v.getLsbD 31 with
  | true => rw [s.ctrlWrite_of_srst v hrst]; rfl
  | false => rw [s.irq_ctrlWrite v hrst, hie, Bool.false_and]

/-- A completion sets DONE, so it leaves IRQ at IE, which no command changes. -/
theorem exec_irq (i : Instr) (s t : State) (h : exec i s = .next t) : t.irq = s.ie := by
  obtain ⟨-, hdone, -, hie, -⟩ := everyCompletionKeepsTheOperands i s t h
  rw [State.irq, hdone, hie, Bool.and_true]

/-- Settles O60: a fall of IRQ is a fall of IE or of DONE, and every completion sets DONE. -/
theorem interruptIsALevel : Obligations.InterruptIsALevel := by
  refine ⟨fun s => ?_, rfl, exec_irq, fun s w => State.irq_of_not_done _ rfl, fun s v hdone => ?_,
    State.irq_ctrlWrite_of_ie_clear, fun s v hie hrst => ?_, fun i s t v h => exec_done i _ t h⟩
  · rw [s.ctrlWord_getLsbD 0 (by decide), s.statusWord_getLsbD 1 (by decide)]
    rfl
  · exact State.irq_of_not_done _ (by simp [State.regWrite, State.statusClear, hdone])
  · exact (s.irq_ctrlWrite v hrst).trans (by rw [hie, Bool.true_and])

/-! ### Work that does not fault -/

/-- `r` succeeds or raises an error. -/
def NeverFaults {α : Type} (r : Except Stop α) : Prop := ∀ f, r ≠ .error (.fault f)

theorem NeverFaults.pure {α : Type} (a : α) : NeverFaults (Pure.pure a : Except Stop α) := fun _ => nofun

/-- What comes after a check or a load may rest on its success. -/
theorem NeverFaults.bind {α β : Type} {r : Except Stop α} {g : α → Except Stop β} (hr : NeverFaults r)
    (hg : ∀ a, r = .ok a → NeverFaults (g a)) : NeverFaults (r >>= g) := by
  intro f h
  obtain hstop | ⟨a, ha, hstop⟩ := (bind_error _ _ _).mp h
  · exact hr f hstop
  · exact hg a ha f hstop

theorem NeverFaults.of_require (c : Bool) (e : CmdError) : NeverFaults (require c e) := by
  intro f h
  cases ((require_error c e _).mp h).2

/-- A check, and the rest of the command where the check holds. -/
theorem NeverFaults.check {β : Type} {c : Bool} {e : CmdError} {g : Unit → Except Stop β}
    (hg : c = true → NeverFaults (g ())) : NeverFaults (require c e >>= g) :=
  .bind (.of_require c e) fun u hu => hg ((require_ok c e u).mp hu)

theorem containerOf_neverFaults (len : Nat) (w : WalkEnd) : NeverFaults (containerOf len w) := by
  unfold containerOf
  split
  · exact .check fun _ => .check fun _ => .pure _
  · exact fun _ => nofun

/-! ### Where the commands read -/

theorem State.regionsOk_inside (s : State) {p q : Region} (h : s.regionsOk p q = true) :
    p.base + p.len ≤ s.buf.bytes ∧ q.base + q.len ≤ s.buf.bytes :=
  ⟨(s.inside_eq_true p).mp (s.inside_of_regionsOk p q h), s.output_inside p q q.len h le_rfl⟩

/-- Consecutive samples end where the samples up to a count do, when they are among those. -/
theorem lsbAddr_slice_le {wav dataOffset samples bound start n : Nat}
    (hin : lsbAddr wav dataOffset samples ≤ bound) (h : start + n ≤ samples) :
    lsbAddr wav dataOffset start + 2 * n ≤ bound := by
  unfold lsbAddr at hin ⊢
  omega

/-- The samples of a parsed container end inside its carrier (40_container R111, R116). -/
theorem lsbAddr_sampleCount_le (m : Memory) (wav len : Nat) (c : Container) (h : parseWav m wav len = .ok c) :
    lsbAddr wav c.dataOffset c.sampleCount ≤ wav + len := by
  obtain ⟨-, -, hend, -⟩ := parseWav_ok_bounds _ _ _ c h
  unfold lsbAddr Container.sampleCount
  omega

/-- The samples the registers name end inside BUF while PARSED = 1 (10_state R36, R39). -/
theorem State.parsedCarrier.samples_le {s : State} (h : s.parsedCarrier) (hparsed : s.parsed = true) :
    lsbAddr s.wav.base s.dataOffset.toNat s.sampleCount.toNat ≤ s.buf.bytes := by
  obtain ⟨hin, hend, -, -, hcount, -⟩ := h hparsed
  unfold State.bufBytes at hin
  unfold lsbAddr
  omega

/-! ### Reads of a written BUF -/

section
variable {m : Memory} (hm : ∀ a, a < m.bytes → (m.read a).isSome)
include hm

theorem Memory.readBytes_ne_none (a n : Nat) (hin : a + n ≤ m.bytes) : m.readBytes a n ≠ none := by
  induction n generalizing a with
  | zero => simp [Memory.readBytes]
  | succ n ih =>
    obtain ⟨b, hb⟩ := Option.isSome_iff_exists.mp (hm a (by omega))
    obtain ⟨bs, hbs⟩ := Option.ne_none_iff_exists'.mp (ih (a + 1) (by omega))
    simp [Memory.readBytes, hb, hbs]

theorem NeverFaults.load (a n : Nat) (hin : a + n ≤ m.bytes) : NeverFaults (m.load a n) := by
  intro f h
  exact m.readBytes_ne_none hm a n hin ((m.load_error a n _).mp h).1

theorem NeverFaults.readLsbs (a n : Nat) (hin : a + 2 * n ≤ m.bytes) : NeverFaults (Machine.readLsbs m a n) := by
  intro f h
  obtain ⟨bits, hbits⟩ := readLsbs_succeeds m a n fun i hi => hm _ (by omega)
  cases hbits.symm.trans h

theorem NeverFaults.writeLsbs (a : Nat) (bits : List Bool) (hin : a + 2 * bits.length ≤ m.bytes) :
    NeverFaults (Machine.writeLsbs m a bits) := by
  intro f h
  obtain ⟨m', hm'⟩ := writeLsbs_succeeds m a bits fun i hi => hm _ (by omega)
  cases hm'.symm.trans h

/-! ### The parser -/

theorem loadFmt_neverFaults (wav cur : Nat) (hin : wav + cur + 24 ≤ m.bytes) : NeverFaults (loadFmt m wav cur) :=
  .bind (.load hm _ _ (by omega)) fun _ _ => .bind (.load hm _ _ (by omega)) fun _ _ =>
    .bind (.load hm _ _ (by omega)) fun _ _ => .pure _

/-- The walk checks against the carrier's length before each read (40_container R111). -/
theorem walkChunks_neverFaults (wav len fuel cur : Nat) (fmt : Option FmtChunk) (hin : wav + len ≤ m.bytes) :
    NeverFaults (walkChunks m wav len fuel cur fmt) := by
  induction fuel generalizing cur fmt with
  | zero => exact .pure _
  | succ fuel ih =>
    unfold walkChunks
    split
    · exact .pure _
    · split
      · exact .pure _
      · refine .bind (.load hm _ _ (by omega)) fun id _ => .bind (.load hm _ _ (by omega)) fun size _ => ?_
        dsimp only
        split
        · refine .check fun hbody => ?_
          simp only [Bool.and_eq_true, decide_eq_true_eq] at hbody
          exact .bind (loadFmt_neverFaults hm _ _ (by omega)) fun _ _ => ih _ _
        · split
          · exact .pure _
          · exact ih _ _

theorem parseWav_neverFaults (wav len : Nat) (hin : wav + len ≤ m.bytes) : NeverFaults (parseWav m wav len) := by
  refine .check fun hlen => ?_
  have hhead : 12 ≤ len := of_decide_eq_true hlen
  exact .bind (.load hm _ _ (by omega)) fun _ _ => .check fun _ => .bind (.load hm _ _ (by omega)) fun _ _ =>
    .check fun _ => .bind (walkChunks_neverFaults hm _ _ _ _ _ hin) fun _ _ => containerOf_neverFaults _ _

/-! ### EXTRACT's header and body -/

/-- The magic is read only where the container has 32 samples, the rest of the header where it has 72 (43_embed_extract
R185). -/
theorem readHeader_neverFaults (wav : Nat) (c : Container)
    (hin : lsbAddr wav c.dataOffset c.sampleCount ≤ m.bytes) : NeverFaults (readHeader m wav c) := by
  refine .check fun hmagic => .bind (.readLsbs hm _ _ ?_) fun _ _ => .check fun _ => .check fun hwhole => ?_
  · exact lsbAddr_slice_le hin (of_decide_eq_true hmagic)
  · have hsamples : 72 ≤ c.sampleCount := of_decide_eq_true hwhole
    exact .bind (.readLsbs hm _ _ (lsbAddr_slice_le hin (by omega))) fun _ _ =>
      .bind (.readLsbs hm _ _ (lsbAddr_slice_le hin hsamples)) fun _ _ => .pure _

theorem readBody_neverFaults (wav : Nat) (c : Container) (hd : WireHeader)
    (hsamples : 72 + bodyBits hd.ecc hd.payloadLength ≤ c.sampleCount)
    (hin : lsbAddr wav c.dataOffset c.sampleCount ≤ m.bytes) : NeverFaults (readBody m wav c hd) :=
  .bind (.readLsbs hm _ _ (lsbAddr_slice_le hin hsamples)) fun _ _ => .pure _

end

/-! ### The commands on a written BUF -/

section
variable {s : State} (hs : s.bufWritten)

include hs

theorem State.parseCarrier_neverFaults (hin : s.wav.base + s.wav.len ≤ s.buf.bytes) : NeverFaults s.parseCarrier :=
  parseWav_neverFaults hs _ _ hin

/-- The source bits are read from the source region when they fit it (42_bits_hamming R155). -/
theorem State.sourceBits_neverFaults (n : Nat) (hfit : n ≤ 8 * s.src.len)
    (hin : s.src.base + s.src.len ≤ s.buf.bytes) : NeverFaults (s.sourceBits n) :=
  .bind (.load hs _ _ (by unfold ceilDiv; omega)) fun _ _ => .pure _

theorem parseBody_neverFaults : NeverFaults (parseBody s) :=
  .check fun hin => .bind (s.parseCarrier_neverFaults hs ((s.inside_eq_true _).mp hin)) fun _ _ => .pure _

theorem kdfBody_neverFaults (F : List Byte → Bytes32) : NeverFaults (kdfBody F s) :=
  .check fun hin => .bind (.load hs _ _ ((s.inside_eq_true _).mp hin)) fun _ _ => .pure _

theorem encryptBody_neverFaults (E : BlockCipher) (iv : Bytes16) : NeverFaults (encryptBody E iv s) :=
  .check fun _ => .check fun hregions => .check fun _ =>
    .bind (.load hs _ _ (s.regionsOk_inside hregions).1) fun _ _ => .pure _

theorem decryptBody_neverFaults (E : BlockCipher) : NeverFaults (decryptBody E s) :=
  .check fun _ => .check fun hregions => .check fun _ => .check fun _ =>
    .bind (.load hs _ _ (s.regionsOk_inside hregions).1) fun _ _ => .pure _

theorem codeBody_neverFaults (code : List Bool → List Bool) : NeverFaults (codeBody code s) :=
  .check fun hregions => .check fun hcount =>
    .bind (s.sourceBits_neverFaults hs _ (of_decide_eq_true hcount) (s.regionsOk_inside hregions).1) fun _ _ =>
    .check fun _ => .pure _

theorem lsbwrBody_neverFaults (hcarrier : s.parsedCarrier) : NeverFaults (lsbwrBody s) := by
  refine .check fun hparsed => .check fun hregions => .check fun hcount => .check fun hsamples =>
    .bind (s.sourceBits_neverFaults hs _ (of_decide_eq_true hcount) (s.regionsOk_inside hregions).1) fun bits hbits =>
    .bind (.writeLsbs hs _ _ ?_) fun _ _ => .pure _
  rw [s.sourceBits_length _ bits hbits]
  exact lsbAddr_slice_le (hcarrier.samples_le hparsed) (of_decide_eq_true hsamples)

theorem lsbrdBody_neverFaults (hcarrier : s.parsedCarrier) : NeverFaults (lsbrdBody s) :=
  .check fun hparsed => .check fun _ => .check fun hsamples => .check fun _ =>
    .bind (.readLsbs hs _ _ (lsbAddr_slice_le (hcarrier.samples_le hparsed) (of_decide_eq_true hsamples))) fun _ _ =>
    .pure _

theorem embedCarrier_neverFaults : NeverFaults (embedCarrier s) :=
  .check fun _ => .check fun hregions => s.parseCarrier_neverFaults hs (s.regionsOk_inside hregions).1

theorem embedPayload_neverFaults (E : BlockCipher) (iv : Bytes16) (c : Container)
    (hsrc : s.src.base + s.src.len ≤ s.buf.bytes)
    (hend : lsbAddr s.wav.base c.dataOffset c.sampleCount ≤ s.buf.bytes) : NeverFaults (embedPayload E iv c s) := by
  refine .bind (.load hs _ _ hsrc) fun P _ => .check fun hfit => .bind (.writeLsbs hs _ _ ?_) fun _ _ => .pure _
  rw [length_bytesToBits]
  exact lsbAddr_slice_le hend (by simpa using hfit)

/-- EMBED's payload is placed in the state with one more IV drawn, which has the same registers and BUF. -/
theorem embedWith_ne_fault (E : BlockCipher) (iv : Bytes16) (f : Fault) : embedWith E iv s ≠ .fault f := by
  intro h
  unfold embedWith at h
  split at h
  · next st hstop =>
    obtain rfl := Except.error.inj ((finish_fault _ _ _).mp h)
    exact embedCarrier_neverFaults hs f hstop
  · next c hc =>
    obtain ⟨-, hregions, hparse⟩ := (embedCarrier_ok s c).mp hc
    obtain ⟨hwav, hsrc⟩ := s.regionsOk_inside hregions
    have hend := (lsbAddr_sampleCount_le _ _ _ c hparse).trans hwav
    exact embedPayload_neverFaults (s := s.drawn) hs E iv c hsrc hend f ((finish_fault _ _ _).mp h)

theorem extractBody_neverFaults (E : BlockCipher) : NeverFaults (extractBody E s) := by
  refine .check fun _ => .check fun hregions => ?_
  have hwav := (s.regionsOk_inside hregions).1
  refine .bind (s.parseCarrier_neverFaults hs hwav) fun c hc => ?_
  have hend := (lsbAddr_sampleCount_le _ _ _ c hc).trans hwav
  exact .bind (readHeader_neverFaults hs _ c hend) fun hd _ => .check fun hsamples => .check fun _ => .check fun _ =>
    .bind (readBody_neverFaults hs _ c hd (of_decide_eq_true hsamples) hend) fun _ _ => .pure _

theorem exec_ne_fault (hcarrier : s.parsedCarrier) (i : Instr) (f : Fault) : exec i s ≠ .fault f := by
  have ofBody : ∀ r : Except Stop State, NeverFaults r → finish s r ≠ .fault f :=
    fun r hr h => hr f ((finish_fault s r f).mp h)
  cases i with
  | parse => exact ofBody _ (parseBody_neverFaults hs)
  | kdf => exact ofBody _ (kdfBody_neverFaults hs _)
  | encrypt => exact ofBody _ (encryptBody_neverFaults hs _ _)
  | decrypt => exact ofBody _ (decryptBody_neverFaults hs _)
  | henc | hdec => exact ofBody _ (codeBody_neverFaults hs _)
  | lsbwr => exact ofBody _ (lsbwrBody_neverFaults hs hcarrier)
  | lsbrd => exact ofBody _ (lsbrdBody_neverFaults hs hcarrier)
  | embed => exact embedWith_ne_fault hs _ _ f
  | extract => exact ofBody _ (extractBody_neverFaults hs _)

end

/-- Settles O8: a command completes unless it reads an unwritten byte (O7), and every address a command reads is checked
to lie in BUF. -/
theorem commandsCompleteOnWrittenBuf : Obligations.CommandsCompleteOnWrittenBuf := fun i s hs hcarrier =>
  (commandsFaultOnlyOnUnwrittenBytes i s).resolve_right (exec_ne_fault hs hcarrier i _)

end Sys2Proof.Machine
end

section
/-! SUPPORT. The two resets, and a host that waits by polling STATUS (spec 70_reset_and_hazards R230, R232, R246). -/

namespace Sys2Proof.Machine

/-! ### Power-on reset -/

/-- Settles O47: the reset state has BUF unwritten, ERR and PARSED clear, nothing pending and a zero key. -/
theorem resetMeetsTheInvariants : Obligations.ResetMeetsTheInvariants :=
  ⟨(State.powerOn_buf_wf State.reset).1, State.errorRegsLegal_of_clear _ rfl rfl,
    State.parsedCarrier_of_not_parsed _ rfl, State.busyQuiet_of_not_busy _ rfl, State.unwrittenKeyZero_of_zero _ rfl⟩

/-- CTRL and STATUS are put together from flags, all clear; any other register is a field of the state or always reads 0
(10_state R22). -/
theorem State.regRead_reset (r : Reg) (hr : r ≠ .id) : State.reset.regRead r = 0 := by
  cases r with
  | id => exact absurd rfl hr
  | ctrl | status => decide
  | _ => rfl

/-- Settles O48: the registers are `State.regRead_reset`, the rest is `State.reset` field by field. -/
theorem powerOnResetValues : Obligations.PowerOnResetValues :=
  ⟨rfl, State.regRead_reset, rfl, rfl, rfl, rfl, rfl, fun _ => rfl⟩

/-! ### Soft reset -/

/-- A CTRL write with SRST as the next turn of a run (10_state R25). -/
theorem step_of_srst (s : State) (v : Word) (rest : List Turn) (hrst : v.getLsbD 31 = true)
    (h : s.agenda = hostWr .ctrl v :: rest) : step s = .next (s.withAgenda rest).softReset :=
  (step_of_hostWr s .ctrl v rest h).trans (congrArg Host.Outcome.next (State.ctrlWrite_of_srst _ v hrst))

/-- Settles O49: the step is the soft reset, and after it the core has nothing to perform. -/
theorem softResetKeepsOnlyBuf : Obligations.SoftResetKeepsOnlyBuf := fun s v rest hrst h =>
  ⟨_, step_of_srst s v rest hrst h, rfl, rfl, coreStep_of_idle _ rfl⟩

/-! ### Polling -/

theorem State.statusWord_busy (s : State) : s.statusWord.getLsbD 0 = s.busy :=
  s.statusWord_getLsbD 0 (by decide)

/-- `s` after `j` polls of STATUS, with the turns `turns` still to come. -/
def State.polled (s : State) (j : Nat) (turns : List Turn) : State :=
  { s with agenda := turns, hostReads := List.replicate j s.statusWord ++ s.hostReads }

theorem State.polled_zero (s : State) (turns : List Turn) (h : s.agenda = turns) : s.polled 0 turns = s := by
  subst h
  rfl

/-- A poll leaves STATUS as it is, so the polls after it read the same word. -/
theorem State.polled_polled (s : State) (j : Nat) (turns rest : List Turn) :
    (s.polled 1 turns).polled j rest = s.polled (j + 1) rest := by
  have hreads : List.replicate j s.statusWord ++ s.statusWord :: s.hostReads =
      List.replicate (j + 1) s.statusWord ++ s.hostReads := by
    rw [List.replicate_succ', List.append_assoc, List.singleton_append]
  exact congrArg (fun reads => { s with agenda := rest, hostReads := reads }) hreads

/-- One poll as the next turn of a run (20_memory R69). -/
theorem step_of_poll (s : State) (rest : List Turn) (h : s.agenda = hostRd .status :: rest) :
    step s = .next (s.polled 1 rest) :=
  (step_of_host s _ rest h).trans (hostStep_read _ .status)

/-- A run that begins with `j` polls goes on from `State.polled`. -/
theorem run_polls (j n : Nat) (s : State) (rest : List Turn)
    (h : s.agenda = List.replicate j (hostRd .status) ++ rest) :
    Sys2Proof.core.run (j + n) s = Sys2Proof.core.run n (s.polled j rest) := by
  induction j generalizing s with
  | zero => rw [s.polled_zero rest h, Nat.zero_add]
  | succ j ih =>
    have hpoll : step s = .next (s.polled 1 (List.replicate j (hostRd .status) ++ rest)) := step_of_poll s _ h
    rw [Nat.add_right_comm, run_succ _ _ _ hpoll, ih _ rfl, State.polled_polled]

/-- The first `j` polls of a wait, and the wait that is left. -/
theorem hostWait_split (j k : Nat) (h : j ≤ k) :
    hostWait k = List.replicate j (hostRd .status) ++ hostWait (k - j) := by
  rw [hostWait, hostWait, ← List.append_assoc, List.replicate_append_replicate, Nat.add_sub_cancel' h]

/-- The pending command completes on a written BUF, be its word a command's or Illegal (60_exceptions R202), and the turns
to come and what the host has read are left alone. -/
theorem coreStep_completes (s : State) (hwritten : s.bufWritten) (hcarrier : s.parsedCarrier) (hbusy : s.busy = true) :
    ∃ u, coreStep s = .next u ∧ u.busy = false ∧ u.done = true ∧ u.agenda = s.agenda ∧ u.hostReads = s.hostReads := by
  obtain ⟨w, hw⟩ := Option.isSome_iff_exists.mp hbusy
  cases hd : decode w with
  | ok i =>
    obtain ⟨u, hu⟩ := commandsCompleteOnWrittenBuf i s hwritten hcarrier
    obtain ⟨hidle, hdone, -, -, -, -, -, -, -, -, -, -, -, -, -, -, hagenda, hreads, -⟩ :=
      everyCompletionKeepsTheOperands i s u hu
    exact ⟨u, (coreStep_of_decode s w i hw hd).trans hu, hidle, hdone, hagenda, hreads⟩
  | error e => exact ⟨_, coreStep_of_illegal s w e hw hd, rfl, rfl, rfl, rfl⟩

/-- Settles O9: `j` polls, then the core's turn after all `k` of them, then one poll more. -/
theorem pollingHostSeesCompletion : Obligations.PollingHostSeesCompletion := by
  intro s k hwritten hcarrier hbusy hagenda
  refine ⟨s.statusWord_busy.trans hbusy, fun j hj => ?_, ?_⟩
  · exact run_polls j 0 s _ (hagenda.trans (hostWait_split j k hj))
  · obtain ⟨u, hu, hidle, hdone, hturns, hreads⟩ :=
      coreStep_completes (s.polled k [hostRd .status]) hwritten hcarrier hbusy
    refine ⟨u, hu, hidle, hdone, u.statusWord_busy.trans hidle, hreads, ?_⟩
    have hcore : step (s.polled k [.core, hostRd .status]) = .next u :=
      (step_of_core _ [hostRd .status] rfl).trans hu
    calc Sys2Proof.core.run (k + 2) s
        = Sys2Proof.core.run 2 (s.polled k [.core, hostRd .status]) := run_polls k 2 s _ hagenda
      _ = Sys2Proof.core.run 1 u := run_succ 1 _ _ hcore
      _ = .next (u.polled 1 []) := run_polls 1 0 u [] hturns

end Sys2Proof.Machine
end
